-- ==== Sys2Proof/Config.lean ====
section
/-! DEFINITION. Config: the parameters of `00_scope.md` rule R7 and the free values of the model.
The widths that a machine is built with are a record, `Params`, of which `Machine.State` holds one: a claim about every
state is a claim about every legal width. `WINDOW_BITS` is no constant here: INIT sets it, so it is a register of
`Machine.State`. -/

namespace Sys2Proof.Config

/-- The two widths that R7 makes parameters, each as the number of bits by which it exceeds its least legal value,
so that every value of this type is a legal choice and every legal choice is a value of it. -/
structure Params where
  cursorBitsAbove16 : Nat
  accBitsAbove32 : Nat
deriving DecidableEq, Repr

/-- `CURSOR_BITS`, the width of the six session cursors: any number from 16 up (R7, D2). -/
def Params.cursorBits (p : Params) : Nat := 16 + p.cursorBitsAbove16

/-- `ACC_BITS`, the width of the bit accumulator: any number from 32 up (R7, R30, D26). -/
def Params.accBits (p : Params) : Nat := 32 + p.accBitsAbove32

/-- The reference values of R7: `CURSOR_BITS = 64` and `ACC_BITS = 32` (log entry 1). -/
def Params.reference : Params := ⟨48, 0⟩

/-- `FAST_BITS_LL` less 1, so that the width is 1..15 (R7). Not observable (R165): no rule reads it. -/
opaque fastBitsLL : Fin 15

/-- `FAST_BITS_D` less 1 (R7). Not observable (R165): no rule reads it. -/
opaque fastBitsD : Fin 15

/-- `FAST_BITS_CL` less 1 (R7). Not observable (R165): no rule reads it. -/
opaque fastBitsCL : Fin 15

/-- The free values of log entry 5: what a cursor register that R45 gives 'no value' after INIT reads as,
one value for each number of the counter `State.freeCount`; the register takes its low `CURSOR_BITS` bits. -/
opaque freeCursor : Nat → Nat

end Sys2Proof.Config
end

