-- ==== Sys2Proof/Word.lean ====
section
/-! DEFINITION. Word: the machine's words. The hardware has no general-purpose word (`10_state.md` R20): a byte is
what the three byte spaces hold. The session cursors and `BITBUF` have widths that are parameters (R7), which stand in no
type: they are naturals (R8), and each write keeps the width (`Machine.advance`, `Machine.lowBits`). -/

namespace Sys2Proof

/-- One byte of `IN`, `OUT` or `WIN` (R65: every access moves exactly one byte). -/
abbrev Byte := BitVec 8

end Sys2Proof
end

