-- ==== Sys2Proof/Syntax.lean ====
section
/-! DEFINITION. Syntax: the instructions of the hardware. An instruction is one syntax element of the DEFLATE
bitstream or one host command (`00_scope.md` R3); there is one constructor for each row of
`spec/opcode_table.json`. -/

namespace Sys2Proof

/-- A byte region the host hands over with a DECODE (R272): its bytes, index 0 first, and where in the host's
memory its byte 0 lies. The hardware never sees `base`; it only tells whether two ranges overlap (R78, R334(b);
log entry 7). -/
structure Region where
  base : Nat
  bytes : List Byte
deriving DecidableEq, Repr

/-- What the host sends with a DECODE: what it writes to the four RW registers of R22, and the two regions of R272. A
register takes the low `CURSOR_BITS` bits of what is sent (log entry 8). -/
structure DecodeArgs where
  nextIn : Nat
  availIn : Nat
  nextOut : Nat
  availOut : Nat
  inRegion : Region
  outRegion : Region
deriving DecidableEq, Repr

/-- One instruction: a stream element with its operands, as its fields stand in the stream, or a host command. -/
inductive Instr where
  /-- `BLOCK_STORED`: a block header with `BTYPE = 00` and `BFINAL = last` (R181). -/
  | blockStored (last : Bool)
  /-- `BLOCK_FIXED`: a block header with `BTYPE = 01` (R182). -/
  | blockFixed (last : Bool)
  /-- `BLOCK_DYNAMIC`: a block header with `BTYPE = 10` (R183). -/
  | blockDynamic (last : Bool)
  /-- `BLOCK_RESERVED`: a block header with `BTYPE = 11` (R184). -/
  | blockReserved (last : Bool)
  /-- `STORED_LEN`: the stored-block length header, `LEN` and `NLEN` (R185, R94). -/
  | storedLen (len nlen : BitVec 16)
  /-- `STORED_DATA`: one payload byte of a stored block (R187, R95). -/
  | storedData (b : Byte)
  /-- `DYN_HEADER`: the dynamic header with legal counts (R200, R96). -/
  | dynHeader (hlit5 hdist5 : BitVec 5) (hclen4 : BitVec 4)
  /-- `DYN_HEADER_TOO_MANY_HLIT`: a dynamic header with `HLIT5` 30 or 31 (R200, R107). -/
  | dynHeaderTooManyHlit (hlit5 hdist5 : BitVec 5) (hclen4 : BitVec 4)
  /-- `DYN_HEADER_TOO_MANY_HDIST`: a dynamic header with `HDIST5` 30 or 31 (R200, R107). -/
  | dynHeaderTooManyHdist (hlit5 hdist5 : BitVec 5) (hclen4 : BitVec 4)
  /-- `CLC_ENTRY`: one code-length-code length (R201, R97). -/
  | clcEntry (len : BitVec 3)
  /-- `CL_LEN`: the code-length symbol `len`, 0..15 (R203, R98). -/
  | clLen (len : BitVec 4)
  /-- `CL_REPEAT_PREV`: the code-length symbol 16 (R204). -/
  | clRepeatPrev
  /-- `CL_REPEAT_ZERO_SHORT`: the code-length symbol 17 (R205). -/
  | clRepeatZeroShort
  /-- `CL_REPEAT_ZERO_LONG`: the code-length symbol 18 (R205). -/
  | clRepeatZeroLong
  /-- `CL16_EXTRA`: the 2 extra bits of symbol 16 (R206). -/
  | cl16Extra (x : BitVec 2)
  /-- `CL17_EXTRA`: the 3 extra bits of symbol 17 (R206). -/
  | cl17Extra (x : BitVec 3)
  /-- `CL18_EXTRA`: the 7 extra bits of symbol 18 (R206). -/
  | cl18Extra (x : BitVec 7)
  /-- `LIT`: the literal/length symbol `b`, 0..255 (R231). -/
  | lit (b : Byte)
  /-- `EOB`: the literal/length symbol 256, end of block (R232). -/
  | eob
  /-- `LEN_257`: the literal/length symbol 257 (R233, R99). -/
  | len257
  /-- `LEN_258`: the literal/length symbol 258 (R233, R99). -/
  | len258
  /-- `LEN_259`: the literal/length symbol 259 (R233, R99). -/
  | len259
  /-- `LEN_260`: the literal/length symbol 260 (R233, R99). -/
  | len260
  /-- `LEN_261`: the literal/length symbol 261 (R233, R99). -/
  | len261
  /-- `LEN_262`: the literal/length symbol 262 (R233, R99). -/
  | len262
  /-- `LEN_263`: the literal/length symbol 263 (R233, R99). -/
  | len263
  /-- `LEN_264`: the literal/length symbol 264 (R233, R99). -/
  | len264
  /-- `LEN_265`: the literal/length symbol 265 (R233, R99). -/
  | len265
  /-- `LEN_266`: the literal/length symbol 266 (R233, R99). -/
  | len266
  /-- `LEN_267`: the literal/length symbol 267 (R233, R99). -/
  | len267
  /-- `LEN_268`: the literal/length symbol 268 (R233, R99). -/
  | len268
  /-- `LEN_269`: the literal/length symbol 269 (R233, R99). -/
  | len269
  /-- `LEN_270`: the literal/length symbol 270 (R233, R99). -/
  | len270
  /-- `LEN_271`: the literal/length symbol 271 (R233, R99). -/
  | len271
  /-- `LEN_272`: the literal/length symbol 272 (R233, R99). -/
  | len272
  /-- `LEN_273`: the literal/length symbol 273 (R233, R99). -/
  | len273
  /-- `LEN_274`: the literal/length symbol 274 (R233, R99). -/
  | len274
  /-- `LEN_275`: the literal/length symbol 275 (R233, R99). -/
  | len275
  /-- `LEN_276`: the literal/length symbol 276 (R233, R99). -/
  | len276
  /-- `LEN_277`: the literal/length symbol 277 (R233, R99). -/
  | len277
  /-- `LEN_278`: the literal/length symbol 278 (R233, R99). -/
  | len278
  /-- `LEN_279`: the literal/length symbol 279 (R233, R99). -/
  | len279
  /-- `LEN_280`: the literal/length symbol 280 (R233, R99). -/
  | len280
  /-- `LEN_281`: the literal/length symbol 281 (R233, R99). -/
  | len281
  /-- `LEN_282`: the literal/length symbol 282 (R233, R99). -/
  | len282
  /-- `LEN_283`: the literal/length symbol 283 (R233, R99). -/
  | len283
  /-- `LEN_284`: the literal/length symbol 284 (R233, R99). -/
  | len284
  /-- `LEN_285`: the literal/length symbol 285 (R233, R99). -/
  | len285
  /-- `LL_INVALID_286`: the literal/length symbol 286 (R234, R104). -/
  | llInvalid286
  /-- `LL_INVALID_287`: the literal/length symbol 287 (R234, R104). -/
  | llInvalid287
  /-- `LL_NO_MATCH`: no codeword of the literal/length table matches (R234(b)). -/
  | llNoMatch
  /-- `LEN_EXTRA`: the extra bits of a length, a field of `n` bits with value `x` (R236, R91). -/
  | lenExtra (n : Nat) (x : BitVec 5)
  /-- `DIST_0`: the distance symbol 0 (R237, R100). -/
  | dist0
  /-- `DIST_1`: the distance symbol 1 (R237, R100). -/
  | dist1
  /-- `DIST_2`: the distance symbol 2 (R237, R100). -/
  | dist2
  /-- `DIST_3`: the distance symbol 3 (R237, R100). -/
  | dist3
  /-- `DIST_4`: the distance symbol 4 (R237, R100). -/
  | dist4
  /-- `DIST_5`: the distance symbol 5 (R237, R100). -/
  | dist5
  /-- `DIST_6`: the distance symbol 6 (R237, R100). -/
  | dist6
  /-- `DIST_7`: the distance symbol 7 (R237, R100). -/
  | dist7
  /-- `DIST_8`: the distance symbol 8 (R237, R100). -/
  | dist8
  /-- `DIST_9`: the distance symbol 9 (R237, R100). -/
  | dist9
  /-- `DIST_10`: the distance symbol 10 (R237, R100). -/
  | dist10
  /-- `DIST_11`: the distance symbol 11 (R237, R100). -/
  | dist11
  /-- `DIST_12`: the distance symbol 12 (R237, R100). -/
  | dist12
  /-- `DIST_13`: the distance symbol 13 (R237, R100). -/
  | dist13
  /-- `DIST_14`: the distance symbol 14 (R237, R100). -/
  | dist14
  /-- `DIST_15`: the distance symbol 15 (R237, R100). -/
  | dist15
  /-- `DIST_16`: the distance symbol 16 (R237, R100). -/
  | dist16
  /-- `DIST_17`: the distance symbol 17 (R237, R100). -/
  | dist17
  /-- `DIST_18`: the distance symbol 18 (R237, R100). -/
  | dist18
  /-- `DIST_19`: the distance symbol 19 (R237, R100). -/
  | dist19
  /-- `DIST_20`: the distance symbol 20 (R237, R100). -/
  | dist20
  /-- `DIST_21`: the distance symbol 21 (R237, R100). -/
  | dist21
  /-- `DIST_22`: the distance symbol 22 (R237, R100). -/
  | dist22
  /-- `DIST_23`: the distance symbol 23 (R237, R100). -/
  | dist23
  /-- `DIST_24`: the distance symbol 24 (R237, R100). -/
  | dist24
  /-- `DIST_25`: the distance symbol 25 (R237, R100). -/
  | dist25
  /-- `DIST_26`: the distance symbol 26 (R237, R100). -/
  | dist26
  /-- `DIST_27`: the distance symbol 27 (R237, R100). -/
  | dist27
  /-- `DIST_28`: the distance symbol 28 (R237, R100). -/
  | dist28
  /-- `DIST_29`: the distance symbol 29 (R237, R100). -/
  | dist29
  /-- `D_INVALID_30`: the distance symbol 30 (R238, R105). -/
  | dInvalid30
  /-- `D_INVALID_31`: the distance symbol 31 (R238, R105). -/
  | dInvalid31
  /-- `D_NO_MATCH`: no codeword of the distance table matches (R238(b)). -/
  | dNoMatch
  /-- `DIST_EXTRA`: the extra bits of a distance, a field of `n` bits with value `x` (R239, R91). -/
  | distExtra (n : Nat) (x : BitVec 13)
  /-- `CL_NO_MATCH`: no codeword of `TBL_CL` matches (R208). -/
  | clNoMatch
  /-- `INIT`: the host command INIT(wb) (R270). -/
  | init (wb : Nat)
  /-- `RESET`: the host command RESET(keep) (R271). -/
  | reset (keep : Bool)
  /-- `DECODE`: the host command DECODE with its cursors and regions (R272). -/
  | decode (args : DecodeArgs)
  /-- `HOSTCMD_RESERVED`: a host command with a code 3..255 (R280). -/
  | hostcmdReserved (code : Byte)
deriving DecidableEq, Repr

end Sys2Proof
end

