-- ==== Sys2Proof/WellFormed.lean ====
section
/-! DEFINITION. WellFormed: which terms of `Instr` are elements the encoding of `30_encoding.md` has. The widths of
the fields are in the types of `Instr`; what the types do not say is said here. -/

namespace Sys2Proof

/-- An instruction is well formed when its operands lie in the ranges of its row of the opcode table:
- a dynamic header stands under the row its counts select (R96, R107; where both counts are too large the
  header is the `TOO_MANY_HLIT` row, the first of the table);
- an extra-bit field of `n` bits has a value below `2^n`, with `n` at most the largest of its alphabet
  (R91: `e` from 0 to 13; R99: at most 5; R100: at most 13);
- a reserved host command has a code of 3 or more (R280).
A command INIT with any `wb` is a command the host can send: R270 refuses `wb > 15` when it runs. -/
def Instr.wf : Instr → Bool
  | .dynHeader hlit5 hdist5 _ => hlit5.toNat < 30 && hdist5.toNat < 30
  | .dynHeaderTooManyHlit hlit5 _ _ => 30 ≤ hlit5.toNat
  | .dynHeaderTooManyHdist hlit5 hdist5 _ => hlit5.toNat < 30 && 30 ≤ hdist5.toNat
  | .lenExtra n x => n ≤ 5 && x.toNat < 2 ^ n
  | .distExtra n x => n ≤ 13 && x.toNat < 2 ^ n
  | .hostcmdReserved code => 3 ≤ code.toNat
  | .blockStored _ | .blockFixed _ | .blockDynamic _ | .blockReserved _ => true
  | .storedLen _ _ | .storedData _ | .clcEntry _ => true
  | .clLen _ | .clRepeatPrev | .clRepeatZeroShort | .clRepeatZeroLong | .clNoMatch => true
  | .cl16Extra _ | .cl17Extra _ | .cl18Extra _ => true
  | .lit _ | .eob | .llInvalid286 | .llInvalid287 | .llNoMatch => true
  | .len257 | .len258 | .len259 | .len260 | .len261 | .len262 | .len263 | .len264 | .len265 | .len266 => true
  | .len267 | .len268 | .len269 | .len270 | .len271 | .len272 | .len273 | .len274 | .len275 | .len276 => true
  | .len277 | .len278 | .len279 | .len280 | .len281 | .len282 | .len283 | .len284 | .len285 => true
  | .dist0 | .dist1 | .dist2 | .dist3 | .dist4 | .dist5 | .dist6 | .dist7 | .dist8 | .dist9 => true
  | .dist10 | .dist11 | .dist12 | .dist13 | .dist14 | .dist15 | .dist16 | .dist17 | .dist18 | .dist19 => true
  | .dist20 | .dist21 | .dist22 | .dist23 | .dist24 | .dist25 | .dist26 | .dist27 | .dist28 | .dist29 => true
  | .dInvalid30 | .dInvalid31 | .dNoMatch => true
  | .init _ | .reset _ | .decode _ => true

end Sys2Proof
end

