-- ==== Sys2Proof/Decode.lean ====
section
/-! DEFINITION. Decode: from the value of an element (or a host command as sent) to an instruction, and back.
As in `spec/opcode_table.json`, a row's `match` and `mask` apply to the element's VALUE, and which format is
read next is fixed by `MODE` (`30_encoding.md`, preamble and R110). How the value is read from the stream
(LSB first for a field, R91; by codeword for a symbol, R92) is `Machine/Fetch.lean`. -/

namespace Sys2Proof

/-! ### Bit notation (R8) -/

/-- `v[hi:lo]`, the unsigned field of bits `hi` down to `lo` of `v` (R8). -/
def bitsOf (v hi lo : Nat) : Nat := v / 2 ^ lo % 2 ^ (hi - lo + 1)

/-- `rev_L(v)`: the `L`-bit value whose bit `i` is bit `L-1-i` of `v` (R8). -/
def revBits : Nat → Nat → Nat
  | 0, _ => 0
  | L + 1, v => v % 2 * 2 ^ L + revBits L (v / 2)

/-! ### Formats and words -/

/-- The element formats of `30_encoding.md` section 2, with the width of an extra-bit field where the mode's
registers fix it (R110). `STORED_DATA` is the byte of R95. -/
inductive Format where
  | hdr3 | stored32 | storedData | dynhdr14 | clc3
  | clsym | clExtra16 | clExtra17 | clExtra18
  | llsym | lenExtra (n : Nat) | dsym | distExtra (n : Nat)
deriving DecidableEq, Repr

/-- How many bits the value of a format has: the field's width (R91), or that of the largest symbol number of a
symbol format (the opcode table: 5-bit, 9-bit and 5-bit symbol values). -/
def Format.width : Format → Nat
  | .hdr3 => 3 | .stored32 => 32 | .storedData => 8 | .dynhdr14 => 14 | .clc3 => 3
  | .clsym => 5 | .clExtra16 => 2 | .clExtra17 => 3 | .clExtra18 => 7
  | .llsym => 9 | .lenExtra n => n | .dsym => 5 | .distExtra n => n

/-- A host command as it is sent: its code (R280) and its operands (R270 to R272). A command uses only the
operands its rule names. The spec gives the operands no bits, so they are kept as they are (log entry 8). -/
structure HostPacket where
  code : Byte
  wb : Nat
  keep : Bool
  args : DecodeArgs
deriving DecidableEq, Repr

/-- What the decoder is given: the value of an element of a format, the outcome INVALID of `decode_sym` in a symbol
format (R160), or a host command. -/
inductive InstrWord where
  | field (f : Format) (v : Nat)
  | noMatch (f : Format)
  | host (p : HostPacket)
deriving DecidableEq, Repr

/-- Why the decoder rejects a word. No machine that only ran steps meets one (R104, R105, R108). -/
inductive DecodeError where
  /-- The value does not fit the format's width. -/
  | valueTooWide (f : Format) (v : Nat)
  /-- The alphabet has no such symbol: `CLSYM` above 18 (R108), `LLSYM` above 287 (R99). -/
  | noSuchSymbol (f : Format) (v : Nat)
  /-- A field format has no codewords, so INVALID cannot arise (R160). -/
  | notASymbolFormat (f : Format)
deriving DecidableEq, Repr

/-! ### Decoding -/

/-- The block header `h = read(3)`: `h[0]` is `BFINAL` and `h[2:1]` is `BTYPE` (R93, R180). -/
def decodeHdr3 (h : Nat) : Instr :=
  let last := bitsOf h 0 0 == 1
  match bitsOf h 2 1 with
  | 0 => .blockStored last
  | 1 => .blockFixed last
  | 2 => .blockDynamic last
  | _ => .blockReserved last

/-- The dynamic header `v = read(14)` (R96). The row is chosen as the table says: the two `TOO_MANY` rows take
precedence, in the table's order (R107, R200). -/
def decodeDynhdr14 (v : Nat) : Instr :=
  let hlit5 := BitVec.ofNat 5 (bitsOf v 4 0)
  let hdist5 := BitVec.ofNat 5 (bitsOf v 9 5)
  let hclen4 := BitVec.ofNat 4 (bitsOf v 13 10)
  if 30 ≤ hlit5.toNat then .dynHeaderTooManyHlit hlit5 hdist5 hclen4
  else if 30 ≤ hdist5.toNat then .dynHeaderTooManyHdist hlit5 hdist5 hclen4
  else .dynHeader hlit5 hdist5 hclen4

/-- A code-length symbol (R98, R203). -/
def decodeClsym (s : Nat) : Except DecodeError Instr :=
  if s ≤ 15 then .ok (.clLen (BitVec.ofNat 4 s))
  else match s with
    | 16 => .ok .clRepeatPrev
    | 17 => .ok .clRepeatZeroShort
    | 18 => .ok .clRepeatZeroLong
    | _ => .error (.noSuchSymbol .clsym s)

/-- A literal/length symbol (R99, R230). -/
def decodeLlsym (s : Nat) : Except DecodeError Instr :=
  if s ≤ 255 then .ok (.lit (BitVec.ofNat 8 s))
  else match s with
      | 256 => .ok .eob
      | 257 => .ok .len257 | 258 => .ok .len258 | 259 => .ok .len259 | 260 => .ok .len260
      | 261 => .ok .len261 | 262 => .ok .len262 | 263 => .ok .len263 | 264 => .ok .len264
      | 265 => .ok .len265 | 266 => .ok .len266 | 267 => .ok .len267 | 268 => .ok .len268
      | 269 => .ok .len269 | 270 => .ok .len270 | 271 => .ok .len271 | 272 => .ok .len272
      | 273 => .ok .len273 | 274 => .ok .len274 | 275 => .ok .len275 | 276 => .ok .len276
      | 277 => .ok .len277 | 278 => .ok .len278 | 279 => .ok .len279 | 280 => .ok .len280
      | 281 => .ok .len281 | 282 => .ok .len282 | 283 => .ok .len283 | 284 => .ok .len284
      | 285 => .ok .len285
      | 286 => .ok .llInvalid286 | 287 => .ok .llInvalid287
      | _ => .error (.noSuchSymbol .llsym s)

/-- A distance symbol (R100, R237). -/
def decodeDsym (s : Nat) : Except DecodeError Instr :=
  match s with
    | 0 => .ok .dist0 | 1 => .ok .dist1 | 2 => .ok .dist2 | 3 => .ok .dist3 | 4 => .ok .dist4
    | 5 => .ok .dist5 | 6 => .ok .dist6 | 7 => .ok .dist7 | 8 => .ok .dist8 | 9 => .ok .dist9
    | 10 => .ok .dist10 | 11 => .ok .dist11 | 12 => .ok .dist12 | 13 => .ok .dist13 | 14 => .ok .dist14
    | 15 => .ok .dist15 | 16 => .ok .dist16 | 17 => .ok .dist17 | 18 => .ok .dist18 | 19 => .ok .dist19
    | 20 => .ok .dist20 | 21 => .ok .dist21 | 22 => .ok .dist22 | 23 => .ok .dist23 | 24 => .ok .dist24
    | 25 => .ok .dist25 | 26 => .ok .dist26 | 27 => .ok .dist27 | 28 => .ok .dist28 | 29 => .ok .dist29
    | 30 => .ok .dInvalid30 | 31 => .ok .dInvalid31
    | _ => .error (.noSuchSymbol .dsym s)

/-- The value of an element of a format. -/
def decodeField (f : Format) (v : Nat) : Except DecodeError Instr :=
  if 2 ^ f.width ≤ v then .error (.valueTooWide f v)
  else match f with
    | .hdr3 => .ok (decodeHdr3 v)
    | .stored32 => .ok (.storedLen (BitVec.ofNat 16 (bitsOf v 15 0)) (BitVec.ofNat 16 (bitsOf v 31 16)))
    | .storedData => .ok (.storedData (BitVec.ofNat 8 v))
    | .dynhdr14 => .ok (decodeDynhdr14 v)
    | .clc3 => .ok (.clcEntry (BitVec.ofNat 3 v))
    | .clsym => decodeClsym v
    | .clExtra16 => .ok (.cl16Extra (BitVec.ofNat 2 v))
    | .clExtra17 => .ok (.cl17Extra (BitVec.ofNat 3 v))
    | .clExtra18 => .ok (.cl18Extra (BitVec.ofNat 7 v))
    | .llsym => decodeLlsym v
    | .lenExtra n =>
      if n ≤ 5 then .ok (.lenExtra n (BitVec.ofNat 5 v)) else .error (.valueTooWide f v)
    | .dsym => decodeDsym v
    | .distExtra n =>
      if n ≤ 13 then .ok (.distExtra n (BitVec.ofNat 13 v)) else .error (.valueTooWide f v)

/-- `decode_sym` found no codeword (R208, R234(b), R238(b)). -/
def decodeNoMatch : Format → Except DecodeError Instr
  | .clsym => .ok .clNoMatch
  | .llsym => .ok .llNoMatch
  | .dsym => .ok .dNoMatch
  | .hdr3 => .error (.notASymbolFormat .hdr3)
  | .stored32 => .error (.notASymbolFormat .stored32)
  | .storedData => .error (.notASymbolFormat .storedData)
  | .dynhdr14 => .error (.notASymbolFormat .dynhdr14)
  | .clc3 => .error (.notASymbolFormat .clc3)
  | .clExtra16 => .error (.notASymbolFormat .clExtra16)
  | .clExtra17 => .error (.notASymbolFormat .clExtra17)
  | .clExtra18 => .error (.notASymbolFormat .clExtra18)
  | .lenExtra n => .error (.notASymbolFormat (.lenExtra n))
  | .distExtra n => .error (.notASymbolFormat (.distExtra n))

/-- A host command: codes 0, 1, 2 are INIT, RESET and DECODE, and every other code is the reserved row (R280). -/
def decodeHost (p : HostPacket) : Instr :=
  match p.code.toNat with
  | 0 => .init p.wb
  | 1 => .reset p.keep
  | 2 => .decode p.args
  | _ => .hostcmdReserved p.code

/-- The decoder. It is total and rejects by name. -/
def decode : InstrWord → Except DecodeError Instr
  | .field f v => decodeField f v
  | .noMatch f => decodeNoMatch f
  | .host p => .ok (decodeHost p)

/-! ### Encoding -/

/-- `h` of a block header (R93): `BFINAL` is bit 0 and `BTYPE` bits 2..1. -/
def encodeHdr3 (last : Bool) (btype : Nat) : Nat := last.toNat + 2 * btype

/-- `v` of a dynamic header (R96). -/
def encodeDynhdr14 (hlit5 hdist5 : BitVec 5) (hclen4 : BitVec 4) : Nat :=
  hlit5.toNat + 32 * hdist5.toNat + 1024 * hclen4.toNat

/-- The operands a command does not use, as the encoder sends them. -/
def DecodeArgs.none : DecodeArgs :=
  ⟨0, 0, 0, 0, ⟨0, []⟩, ⟨0, []⟩⟩

/-- The encoder: the word of an instruction, from the tables of `30_encoding.md` and `45_host_commands.md` R280. -/
def encode : Instr → InstrWord
  | .blockStored last => .field .hdr3 (encodeHdr3 last 0)
  | .blockFixed last => .field .hdr3 (encodeHdr3 last 1)
  | .blockDynamic last => .field .hdr3 (encodeHdr3 last 2)
  | .blockReserved last => .field .hdr3 (encodeHdr3 last 3)
  | .storedLen len nlen => .field .stored32 (len.toNat + 65536 * nlen.toNat)
  | .storedData b => .field .storedData b.toNat
  | .dynHeader a b c | .dynHeaderTooManyHlit a b c | .dynHeaderTooManyHdist a b c =>
    .field .dynhdr14 (encodeDynhdr14 a b c)
  | .clcEntry len => .field .clc3 len.toNat
  | .clLen len => .field .clsym len.toNat
  | .clRepeatPrev => .field .clsym 16
  | .clRepeatZeroShort => .field .clsym 17
  | .clRepeatZeroLong => .field .clsym 18
  | .clNoMatch => .noMatch .clsym
  | .cl16Extra x => .field .clExtra16 x.toNat
  | .cl17Extra x => .field .clExtra17 x.toNat
  | .cl18Extra x => .field .clExtra18 x.toNat
  | .lit b => .field .llsym b.toNat
  | .eob => .field .llsym 256
  | .len257 => .field .llsym 257 | .len258 => .field .llsym 258 | .len259 => .field .llsym 259
  | .len260 => .field .llsym 260 | .len261 => .field .llsym 261 | .len262 => .field .llsym 262
  | .len263 => .field .llsym 263 | .len264 => .field .llsym 264 | .len265 => .field .llsym 265
  | .len266 => .field .llsym 266 | .len267 => .field .llsym 267 | .len268 => .field .llsym 268
  | .len269 => .field .llsym 269 | .len270 => .field .llsym 270 | .len271 => .field .llsym 271
  | .len272 => .field .llsym 272 | .len273 => .field .llsym 273 | .len274 => .field .llsym 274
  | .len275 => .field .llsym 275 | .len276 => .field .llsym 276 | .len277 => .field .llsym 277
  | .len278 => .field .llsym 278 | .len279 => .field .llsym 279 | .len280 => .field .llsym 280
  | .len281 => .field .llsym 281 | .len282 => .field .llsym 282 | .len283 => .field .llsym 283
  | .len284 => .field .llsym 284 | .len285 => .field .llsym 285
  | .llInvalid286 => .field .llsym 286
  | .llInvalid287 => .field .llsym 287
  | .llNoMatch => .noMatch .llsym
  | .lenExtra n x => .field (.lenExtra n) x.toNat
  | .dist0 => .field .dsym 0 | .dist1 => .field .dsym 1 | .dist2 => .field .dsym 2
  | .dist3 => .field .dsym 3 | .dist4 => .field .dsym 4 | .dist5 => .field .dsym 5
  | .dist6 => .field .dsym 6 | .dist7 => .field .dsym 7 | .dist8 => .field .dsym 8
  | .dist9 => .field .dsym 9 | .dist10 => .field .dsym 10 | .dist11 => .field .dsym 11
  | .dist12 => .field .dsym 12 | .dist13 => .field .dsym 13 | .dist14 => .field .dsym 14
  | .dist15 => .field .dsym 15 | .dist16 => .field .dsym 16 | .dist17 => .field .dsym 17
  | .dist18 => .field .dsym 18 | .dist19 => .field .dsym 19 | .dist20 => .field .dsym 20
  | .dist21 => .field .dsym 21 | .dist22 => .field .dsym 22 | .dist23 => .field .dsym 23
  | .dist24 => .field .dsym 24 | .dist25 => .field .dsym 25 | .dist26 => .field .dsym 26
  | .dist27 => .field .dsym 27 | .dist28 => .field .dsym 28 | .dist29 => .field .dsym 29
  | .dInvalid30 => .field .dsym 30
  | .dInvalid31 => .field .dsym 31
  | .dNoMatch => .noMatch .dsym
  | .distExtra n x => .field (.distExtra n) x.toNat
  | .init wb => .host ⟨0, wb, false, DecodeArgs.none⟩
  | .reset keep => .host ⟨1, 0, keep, DecodeArgs.none⟩
  | .decode args => .host ⟨2, 0, false, args⟩
  | .hostcmdReserved code => .host ⟨code, 0, false, DecodeArgs.none⟩

/-! ### Words as the opcode table numbers them

The table's words carry no format: the same eight bits are a block header, a code-length symbol, a distance symbol
or a command code, by the mode the machine is in. A word alone is read as the row with the most fixed bits it
fits, among the rows to which the table gives that many bits, the earliest of the table first; a word that fits no
row with fixed bits is read as the row without fixed bits whose value is as wide (log entry 9). -/

/-- What a table word is a value of: an element format, or a command code. -/
inductive TableFormat where
  | element (f : Format)
  | command
deriving DecidableEq, Repr

/-- A row of the table with fixed bits: its format, how many bits it has, how many of them the mask fixes, and
its mask and match. -/
structure TableRow where
  format : TableFormat
  nbits : Nat
  nfixed : Nat
  mask : Nat
  pattern : Nat
deriving DecidableEq, Repr

/-- The rows of `spec/opcode_table.json` with fixed bits, in its order. -/
def tableRows : List TableRow :=
  [⟨.element .hdr3, 8, 2, 6, 0⟩, ⟨.element .hdr3, 8, 2, 6, 2⟩, ⟨.element .hdr3, 8, 2, 6, 4⟩,
    ⟨.element .hdr3, 8, 2, 6, 6⟩, ⟨.element .dynhdr14, 8, 4, 30, 30⟩, ⟨.element .dynhdr14, 16, 4, 960, 960⟩,
    ⟨.element .clsym, 8, 1, 16, 0⟩, ⟨.element .clsym, 8, 5, 31, 16⟩, ⟨.element .clsym, 8, 5, 31, 17⟩,
    ⟨.element .clsym, 8, 5, 31, 18⟩, ⟨.element .llsym, 16, 1, 256, 0⟩] ++
  (List.range' 256 32).map (fun s => ⟨.element .llsym, 16, 9, 511, s⟩) ++
  (List.range 18).map (fun s => ⟨.element .dsym, 8, 5, 31, s⟩) ++
  (List.range' 18 12).map (fun s => ⟨.element .dsym, 16, 5, 31, s⟩) ++
  (List.range' 30 2).map (fun s => ⟨.element .dsym, 8, 5, 31, s⟩) ++
  (List.range 3).map (fun c => ⟨.command, 8, 8, 255, c⟩)

/-- The better of two rows for a word: the one with more fixed bits, the first where they have as many. -/
def betterRow (best : Option TableRow) (r : TableRow) : Option TableRow :=
  match best with
  | none => some r
  | some b => if b.nfixed < r.nfixed then some r else some b

/-- The format a table word is read in. -/
def tableFormat (nbits w : Nat) : Option TableFormat :=
  let fits := tableRows.filter fun r => r.nbits == nbits && (w &&& r.mask) == r.pattern
  match fits.foldl betterRow none with
  | some r => some r.format
  | none =>
    match nbits with
    | 0 | 32 => some (.element .stored32)
    | 8 => some .command
    | 16 => some (.element .dynhdr14)
    | _ => none

/-- The word of the decoder that a table word stands for. Bits above the format's width belong to what follows in
the stream; the operands of a command, which the table gives no bits, are 0. -/
def tableInstrWord (nbits w : Nat) : Option InstrWord :=
  match tableFormat nbits w with
  | some (.element f) => some (.field f (w % 2 ^ f.width))
  | some .command => some (.host ⟨BitVec.ofNat 8 w, 0, false, DecodeArgs.none⟩)
  | none => none

/-- The instruction the decoder reads from a word numbered as the opcode table numbers it. -/
def decodeTableWord (nbits w : Nat) : Option Instr :=
  match tableInstrWord nbits w with
  | some word =>
    match decode word with
    | .ok i => some i
    | .error _ => none
  | none => none

end Sys2Proof
end

