-- ==== Sys2Proof/Machine/State.lean ====
section
/-! DEFINITION. State: everything `10_state.md` gives the machine, as plain data, the reasons a step can stop, and the
state at power-on. Reset values: R45, R330; what the spec gives no value for is in log entries 2 to 6. -/

namespace Sys2Proof.Machine

/-! ### Registers whose value the spec can withhold -/

/-- A register that rule R44 covers. It always holds a value; `written` says whether a rule has written it since
the INIT or RESET that last left it with 'no value' (R45). R44 and D28 make a read of an unwritten register a
fault, so `val` is only read while `written` (log entry 3). -/
structure Reg (α : Type) where
  val : α
  written : Bool
deriving DecidableEq, Repr

/-- The registers and tables of R44, by name, for the fault that names one. -/
inductive RegName where
  | LAST | TABLESEL | STORED_REMAIN | HLIT | HDIST | HCLEN | CLC_LENS | CLC_INDEX | LENS | LENS_INDEX
  | REP_SYM | LIT_VAL | SYM | LENGTH | DIST | COPY_REMAIN | TBL_CL | TBL_LL | TBL_D
deriving DecidableEq, Repr

/-! ### Modes, status codes, tables -/

/-- `MODE` (R29). The reserved value 15 is never written, so the register is typed as this enumeration (U-8). -/
inductive Mode where
  | header | storedLen | storedCopy | dynCounts | dynClc | dynLens | dynRepeat | llSym | litEmit
  | lenExtra | distSym | distExtra | copy | done | error
deriving DecidableEq, Repr

/-- The faults of the bitstream (R300, codes 2 to 12; R301). They are results of a DECODE, not stops of the model. -/
inductive StreamFault where
  | invalidBlockType | invalidStoredBlockLengths | tooManySymbols | overSubscribedLengths | incompleteLengths
  | invalidCodeLengthSymbol | invalidBitLengthRepeat | missingEob | invalidLenCode | invalidDistCode
  | invalidDistance
deriving DecidableEq, Repr

/-- `STATUS` (R27, R300). The reserved codes 13..255 are never written, so the register is typed as the 13-value
enumeration R300 allows. -/
inductive Status where
  | ok
  | endOfStream
  | fault (e : StreamFault)
deriving DecidableEq, Repr

/-- `TABLESEL` (R32): `fixed` is 0 and `dynamic` is 1. -/
inductive TableSel where
  | fixed | dynamic
deriving DecidableEq, Repr

/-- A Huffman table: its code lengths, one for each of its `T.n` symbols (R40). Codewords follow from them (R152).
The lookup structure is not architectural (R165). -/
structure Table where
  len : List (BitVec 4)
deriving DecidableEq, Repr

/-! ### Memory -/

/-- A byte space (R60): the bytes that have a value, as pairs of index and byte, indices rising. An index that is
not listed has no value, and reading it stops the machine (R44, R70, U-3; log entry 6). -/
abbrev Memory := List Host.Cell

/-- The canonical form: indices strictly rising. (No entry can equal what an unlisted index reads as, since that
is no value.) -/
abbrev Memory.wf (m : Memory) : Prop := m.Pairwise fun a b => a.1 < b.1

/-! ### The parts of the state -/

/-- The six session cursors (R22 to R26), each a number of `CURSOR_BITS` bits (R7). -/
structure Cursors where
  nextIn : Nat
  availIn : Nat
  totalIn : Nat
  nextOut : Nat
  availOut : Nat
  totalOut : Nat
deriving DecidableEq, Repr

/-- The bit accumulator (R30): `BITBUF`, a number of `ACC_BITS` bits (R7), and `BITCNT`. -/
structure Accumulator where
  buf : Nat
  cnt : BitVec 6
deriving DecidableEq, Repr

/-- The sliding window (R41) with the capacity parameter `WINDOW_BITS` (R28). R41 gives `WIN_CURSOR` and `WIN_SIZE`
value ranges and no widths, so they are naturals, kept in range by an invariant. -/
structure Window where
  windowBits : BitVec 4
  mem : Memory
  cursor : Nat
  size : Nat
deriving DecidableEq, Repr

/-- The scratch registers (R31 to R39) and the three built tables (R40). -/
structure Scratch where
  last : Reg Bool
  tableSel : Reg TableSel
  storedRemain : Reg (BitVec 16)
  hlit : Reg (BitVec 9)
  hdist : Reg (BitVec 6)
  hclen : Reg (BitVec 5)
  clcLens : Reg (Vector (BitVec 3) 19)
  clcIndex : Reg (BitVec 5)
  lens : Reg (Vector (BitVec 4) 316)
  lensIndex : Reg (BitVec 9)
  repSym : Reg (BitVec 5)
  litVal : Reg Byte
  sym : Reg (BitVec 9)
  length : Reg (BitVec 9)
  dist : Reg (BitVec 16)
  copyRemain : Reg (BitVec 9)
  tblCL : Reg Table
  tblLL : Reg Table
  tblD : Reg Table
deriving DecidableEq, Repr

/-- The machine. Of its construction (R7): the two widths that are parameters, which no step changes (log entry 1). Of
the session (R20): the cursors, `STATUS`, `MODE`, the accumulator, the scratch registers and tables, the window. Of the
host interface: whether an INIT has built the session (R330), whether a DECODE is in progress (R273), the commands the
host has sent and the hardware not taken, oldest first, and the two regions of the last DECODE (R60, R272). `freeCount`
is the model's own: how many free values have been drawn (log entry 5). -/
structure State where
  params : Config.Params
  constructed : Bool
  running : Bool
  pending : List HostPacket
  inMem : Memory
  outMem : Memory
  cur : Cursors
  status : Status
  mode : Mode
  acc : Accumulator
  scratch : Scratch
  win : Window
  freeCount : Nat
deriving DecidableEq, Repr

/-! ### Reasons to stop -/

/-- Why a step stops with a fault. The first three are checks that R44, D28, R70, U-3 and R133 ask a model to make, so
that a model bug shows; the others are the model's own (log entries 6 and 19). None is reached from a state with
`Machine.State.Inv` (`Safety.lean`). All are safe: the model stops where the hardware's rules say nothing. -/
inductive Fault where
  /-- A rule read a register of R44 that nothing has written since INIT or RESET, which a model should make a fault
  (R44, D28). Raised by `readReg` and `fetchReg`. Safe. -/
  | unwrittenRegister (r : RegName)
  /-- A back-reference read outside `1 ≤ d ≤ WIN_SIZE` (R68), or a window byte without a value (R70, U-3). Raised
  by `winBack`. Safe. -/
  | windowReadInvalid (d : Nat)
  /-- `drop(n)` with `n > BITCNT` (R133). Raised by `readBits`. Safe. -/
  | dropBeyondHeld (n : Nat)
  /-- A pull or stored copy at an index of `IN` that has no byte (R60, R272, log entry 6). Raised by `readIn`. Safe. -/
  | absentInputByte (index : Nat)
  /-- An index outside `CLC_LENS`, `CLC_ORDER` or `LENS` (R35, R36, R97, log entry 19). Raised by `execClcEntry`,
  `fillLens` and `previousLen`. Safe. -/
  | arrayIndexInvalid (r : RegName) (index : Nat)
  /-- `REP_SYM` or `SYM` holds a value outside its range (R37, R39, log entry 19). Raised by `fetch`. Safe. -/
  | registerOutOfRange (r : RegName)
deriving DecidableEq, Repr

/-- Why a step is refused. -/
inductive Refusal where
  /-- The instruction has no meaning in this model yet. No arm of `exec` answers so. Safe. -/
  | notModelled (mnemonic : String)
  /-- `RESET` or `DECODE` before the first INIT is refused (R330). Raised by `execReset`, `execDecode`. Safe. -/
  | beforeInit
  /-- `INIT(wb)` with `wb > 15` is refused (R270). Raised by `execInit`. Safe. -/
  | windowBitsTooLarge (wb : Nat)
  /-- A command code 3..255 is refused (R280). Raised by `execHostcmdReserved`. Safe. -/
  | reservedCommand (code : Byte)
  /-- A DECODE whose `IN` or `OUT` region is shorter than R272 says breaks what the host must (R283) and is refused.
  Raised by `execDecode`. Safe. -/
  | regionTooShort
  /-- A DECODE whose offered ranges overlap is refused (R334(b)). Raised by `execDecode`. Safe. -/
  | rangesOverlap
  /-- The decoder rejected the word that was fetched (R104, R105, R108: no table of a run has such a symbol).
  Raised by `step`. Safe. -/
  | undecodable (e : DecodeError)
deriving DecidableEq, Repr

/-- The outcome of a step of this machine. -/
abbrev Result := Host.Outcome State Fault Refusal

/-! ### Power-on -/

/-- A register with no value (R45), holding `v` underneath. -/
def Reg.unwritten {α : Type} (v : α) : Reg α := ⟨v, false⟩

/-- The scratch registers at power-on: none has a value (R45), and underneath each holds zero (log entry 3). -/
def Scratch.reset : Scratch where
  last := .unwritten false
  tableSel := .unwritten .fixed
  storedRemain := .unwritten 0
  hlit := .unwritten 0
  hdist := .unwritten 0
  hclen := .unwritten 0
  clcLens := .unwritten (Vector.replicate 19 0)
  clcIndex := .unwritten 0
  lens := .unwritten (Vector.replicate 316 0)
  lensIndex := .unwritten 0
  repSym := .unwritten 0
  litVal := .unwritten 0
  sym := .unwritten 0
  length := .unwritten 0
  dist := .unwritten 0
  copyRemain := .unwritten 0
  tblCL := .unwritten ⟨[]⟩
  tblLL := .unwritten ⟨[]⟩
  tblD := .unwritten ⟨[]⟩

/-- Power-on with nothing constructed (R330). The registers that R45 gives a value after INIT hold that value;
`WINDOW_BITS` is 15 (log entry 4), the host cursors 0 (log entry 2), and no command has been sent. The machine has the
reference widths (log entry 1). -/
def State.reset : State where
  params := .reference
  constructed := false
  running := false
  pending := []
  inMem := []
  outMem := []
  cur := ⟨0, 0, 0, 0, 0, 0⟩
  status := .ok
  mode := .header
  acc := ⟨0, 0⟩
  scratch := .reset
  win := ⟨15, [], 0, 0⟩
  freeCount := 0

end Sys2Proof.Machine
end

