-- ==== Sys2Proof/Machine/Ops.lean ====
section
/-! DEFINITION. Ops: the named operations over memory and registers that every meaning shares: the byte spaces
(`20_memory.md`), the bit reader (`40_bit_reader.md`), the window, and the ways a step ends (`00_scope.md` R9,
`60_exceptions.md` R303). -/

namespace Sys2Proof.Machine

/-! ### Byte spaces -/

/-- The byte at an index, if it has a value. -/
def Memory.read : Memory → Nat → Option Byte
  | [], _ => none
  | c :: m, a => if c.1 = a then some c.2 else Memory.read m a

/-- The byte space with the byte at index `a` set to `b`; the canonical form is kept. -/
def Memory.write : Memory → Nat → Byte → Memory
  | [], a, b => [(a, b)]
  | c :: m, a, b =>
    if a < c.1 then (a, b) :: c :: m
    else if a = c.1 then (a, b) :: m
    else c :: Memory.write m a b

/-- The bytes of a list, the first at index `k`. -/
def Memory.fromIndex : Nat → List Byte → Memory
  | _, [] => []
  | k, b :: bs => (k, b) :: Memory.fromIndex (k + 1) bs

/-- The byte space a region is (R60, R272): index 0 is its first byte. -/
def Memory.ofBytes (bs : List Byte) : Memory := Memory.fromIndex 0 bs

/-! ### Registers -/

/-- A register just written. -/
def Reg.put {α : Type} (v : α) : Reg α := ⟨v, true⟩

/-- A register given 'no value' (R45). What it holds underneath is never read. -/
def Reg.clear {α : Type} (r : Reg α) : Reg α := ⟨r.val, false⟩

/-- Reading a register that R44 and R45 can leave with no value: a fault where it has none (R44, D28). -/
def readReg {α : Type} (name : RegName) (r : Reg α) (k : α → Result) : Result :=
  if r.written then k r.val else .fault (.unwrittenRegister name)

/-- Every scratch register and table with no value, as INIT and RESET leave them (R45, R270, R271). -/
def Scratch.clear (r : Scratch) : Scratch where
  last := r.last.clear
  tableSel := r.tableSel.clear
  storedRemain := r.storedRemain.clear
  hlit := r.hlit.clear
  hdist := r.hdist.clear
  hclen := r.hclen.clear
  clcLens := r.clcLens.clear
  clcIndex := r.clcIndex.clear
  lens := r.lens.clear
  lensIndex := r.lensIndex.clear
  repSym := r.repSym.clear
  litVal := r.litVal.clear
  sym := r.sym.clear
  length := r.length.clear
  dist := r.dist.clear
  copyRemain := r.copyRemain.clear
  tblCL := r.tblCL.clear
  tblLL := r.tblLL.clear
  tblD := r.tblD.clear

/-! ### The codes of the enumerated registers -/

/-- The value of `MODE` (R29). -/
def Mode.code : Mode → BitVec 4
  | .header => 0 | .storedLen => 1 | .storedCopy => 2 | .dynCounts => 3 | .dynClc => 4 | .dynLens => 5
  | .dynRepeat => 6 | .llSym => 7 | .litEmit => 8 | .lenExtra => 9 | .distSym => 10 | .distExtra => 11
  | .copy => 12 | .done => 13 | .error => 14

/-- The code of a fault (R300). -/
def StreamFault.code : StreamFault → BitVec 8
  | .invalidBlockType => 2 | .invalidStoredBlockLengths => 3 | .tooManySymbols => 4
  | .overSubscribedLengths => 5 | .incompleteLengths => 6 | .invalidCodeLengthSymbol => 7
  | .invalidBitLengthRepeat => 8 | .missingEob => 9 | .invalidLenCode => 10 | .invalidDistCode => 11
  | .invalidDistance => 12

/-- The value of `STATUS` (R27, R300). -/
def Status.code : Status → BitVec 8
  | .ok => 0
  | .endOfStream => 1
  | .fault e => e.code

/-- The host-visible registers by their index (R22), each as a number; no register has an index above 7. -/
def hostRegister (s : State) : Nat → Option Nat
  | 0 => some s.cur.nextIn
  | 1 => some s.cur.availIn
  | 2 => some s.cur.totalIn
  | 3 => some s.cur.nextOut
  | 4 => some s.cur.availOut
  | 5 => some s.cur.totalOut
  | 6 => some s.status.code.toNat
  | 7 => some s.win.windowBits.toNat
  | _ => none

/-- `BITPOS = 8 × TOTAL_IN − BITCNT` modulo `2^(CURSOR_BITS+3)`: derived, not stored (R21). -/
def bitPos (s : State) : Nat :=
  let m := 2 ^ (s.params.cursorBits + 3)
  (8 * s.cur.totalIn + (m - s.acc.cnt.toNat)) % m

/-! ### Input and the bit reader -/

/-- A value below `2^n`, the low `n` bits of a number: what a register of width `n` takes of it (R8). -/
def lowBits (n v : Nat) : Nat := v % 2 ^ n

/-- A cursor `k` bytes on, modulo `2^CURSOR_BITS` (R8, R24, R26). With `k = 0` it is the cursor itself. -/
def advance (p : Config.Params) (v k : Nat) : Nat := if k = 0 then v else lowBits p.cursorBits (v + k)

/-- The cursors after one byte of `IN` is consumed (R23, R24). `AVAIL_IN` never wraps: no rule reads a byte when it is 0
(R23). -/
def Cursors.consume (p : Config.Params) (c : Cursors) : Cursors :=
  { c with nextIn := advance p c.nextIn 1, availIn := c.availIn - 1, totalIn := advance p c.totalIn 1 }

/-- `MemRead(IN, NEXT_IN, 1)`, the byte at the input cursor. -/
def readIn (s : State) : Except Fault Byte :=
  match Memory.read s.inMem s.cur.nextIn with
  | some b => .ok b
  | none => .error (.absentInputByte s.cur.nextIn)

/-- The accumulator, `ACC_BITS` wide, with one more byte above the bits it holds (R130). -/
def Accumulator.push (p : Config.Params) (a : Accumulator) (b : Byte) : Accumulator where
  buf := lowBits p.accBits (a.buf ||| (b.toNat <<< a.cnt.toNat))
  cnt := a.cnt + 8

/-- `PULL()` (R130). The callers check `AVAIL_IN > 0`. -/
def pull (s : State) : Except Fault State :=
  match readIn s with
  | .ok b => .ok { s with acc := s.acc.push s.params b, cur := s.cur.consume s.params }
  | .error f => .error f

/-- How many bytes must be pulled until `BITCNT ≥ n`: each pull adds 8. -/
def pullsNeeded (n : Nat) (s : State) : Nat := (n - s.acc.cnt.toNat + 7) / 8

/-- The loop of `ensure`: `k` more pulls, stopping with `false` where `AVAIL_IN = 0`. -/
def ensureLoop : Nat → State → Except Fault (Bool × State)
  | 0, s => .ok (true, s)
  | k + 1, s =>
    if s.cur.availIn = 0 then .ok (false, s)
    else match pull s with
      | .ok s' => ensureLoop k s'
      | .error f => .error f

/-- `ensure(n)` (R131): pull while `BITCNT < n`. `false` asks the caller to suspend; every byte pulled stays. -/
def ensure (n : Nat) (s : State) : Except Fault (Bool × State) :=
  ensureLoop (pullsNeeded n s) s

/-- `peek(n) = BITBUF[n-1:0]` (R132). -/
def peek (n : Nat) (s : State) : Nat := s.acc.buf % 2 ^ n

/-- The effect of `drop(n)` on the accumulator (R133). -/
def Accumulator.drop (a : Accumulator) (n : Nat) : Accumulator where
  buf := a.buf >>> n
  cnt := a.cnt - BitVec.ofNat 6 n

/-- `drop(n)` for an `n` that is at most `BITCNT` (R133). -/
def dropBits (n : Nat) (s : State) : State := { s with acc := s.acc.drop n }

/-- `read(n)` (R134): `peek(n)`, then `drop(n)`. Dropping more bits than are held is a model fault (R133). -/
def readBits (n : Nat) (s : State) : Except Fault (Nat × State) :=
  if n ≤ s.acc.cnt.toNat then .ok (peek n s, dropBits n s) else .error (.dropBeyondHeld n)

/-- `flush()` (R135). -/
def flush (s : State) : State := { s with acc := ⟨0, 0⟩ }

/-- `flush_byte() = drop(BITCNT mod 8)` (R136). -/
def flushByte (s : State) : State := dropBits (s.acc.cnt.toNat % 8) s

/-! ### Output and the window -/

/-- `W = 2^WINDOW_BITS` (R28, R41). -/
def Window.capacity (w : Window) : Nat := 2 ^ w.windowBits.toNat

/-- The cursors after one byte is emitted (R25, R26, R66). `AVAIL_OUT` never wraps: no rule emits when it is 0 (R25). -/
def Cursors.produce (p : Config.Params) (c : Cursors) : Cursors :=
  { c with nextOut := advance p c.nextOut 1, availOut := c.availOut - 1, totalOut := advance p c.totalOut 1 }

/-- The window after byte `b` is written at its cursor (R66, R67). -/
def Window.push (w : Window) (b : Byte) : Window :=
  { w with
    mem := Memory.write w.mem w.cursor b
    cursor := (w.cursor + 1) % w.capacity
    size := min (w.size + 1) w.capacity }

/-- `emit(b)` (R66): one byte to `OUT` and to the window. The callers check `AVAIL_OUT > 0`. -/
def emit (b : Byte) (s : State) : State :=
  { s with
    outMem := Memory.write s.outMem s.cur.nextOut b
    cur := s.cur.produce s.params
    win := s.win.push b }

/-- The index `(WIN_CURSOR − d) mod W` (R68). -/
def Window.backIndex (w : Window) (d : Nat) : Nat :=
  (w.cursor + (w.capacity - d % w.capacity)) % w.capacity

/-- `WinBack(d)` (R68), the byte `d` positions behind the write cursor. It requires `1 ≤ d ≤ WIN_SIZE`; outside
that, and where the byte has no value, the read is a model fault and never a value (R70, U-3). -/
def winBack (d : Nat) (s : State) : Except Fault Byte :=
  if 1 ≤ d ∧ d ≤ s.win.size then
    match Memory.read s.win.mem (s.win.backIndex d) with
    | some b => .ok b
    | none => .error (.windowReadInvalid d)
  else .error (.windowReadInvalid d)

/-- Clearing the window (R70): no byte has a value. -/
def Window.clear (w : Window) : Window := { w with mem := [], cursor := 0, size := 0 }

/-! ### How a step ends (R9, R10, R273) -/

/-- `goto M`: the step ends with progress. -/
def goto (m : Mode) (s : State) : Result := .next { s with mode := m }

/-- `suspend`: the DECODE returns with `STATUS = OK` (R273). -/
def suspend (s : State) : Result := .next { s with status := .ok, running := false }

/-- `raise E` (R303): taking the one kind of exception. `MODE` and `STATUS` are written, the DECODE returns, and
nothing else changes. -/
def raise (e : StreamFault) (s : State) : Result :=
  .next { s with mode := .error, status := .fault e, running := false }

/-- `finish` (R186, R273): `MODE <- DONE`, `STATUS <- END_OF_STREAM`, the DECODE returns. -/
def finish (s : State) : Result :=
  .next { s with mode := .done, status := .endOfStream, running := false }

/-- The host's way out of `ERROR` and `DONE`, shared by INIT and RESET (R270, R271, R305, R309: no fault handler
and no return instruction exist): the accumulator and the totals are cleared, the machine stands at `HEADER` with
`STATUS = OK`, and no scratch register has a value. -/
def freshStream (s : State) : State :=
  { s with
    running := false
    acc := ⟨0, 0⟩
    cur := { s.cur with totalIn := 0, totalOut := 0 }
    mode := .header
    status := .ok
    scratch := s.scratch.clear }

end Sys2Proof.Machine
end

