-- ==== Sys2Proof/Machine/Operands.lean ====
section
/-! DEFINITION. Operands: the tables of `30_encoding.md` and the operand assembly of R103. Every operand is a base
plus a field, added without sign. -/

namespace Sys2Proof.Machine

/-- `CLC_ORDER`, the transmission order of the code-length-code lengths (R97). -/
def clcOrder : List Nat := [16, 17, 18, 0, 8, 7, 9, 6, 10, 5, 11, 4, 12, 3, 13, 2, 14, 1, 15]

/-- The base lengths of symbols 257..285 (R99, `LBASE`). -/
def lbaseTable : List Nat :=
  [3, 4, 5, 6, 7, 8, 9, 10, 11, 13, 15, 17, 19, 23, 27, 31, 35, 43, 51, 59, 67, 83, 99, 115, 131, 163, 195,
    227, 258]

/-- The extra-bit counts of symbols 257..285 (R99, `LEXTRA`). -/
def lextraTable : List Nat :=
  [0, 0, 0, 0, 0, 0, 0, 0, 1, 1, 1, 1, 2, 2, 2, 2, 3, 3, 3, 3, 4, 4, 4, 4, 5, 5, 5, 5, 0]

/-- The base distances of symbols 0..29 (R100, `DBASE`). -/
def dbaseTable : List Nat :=
  [1, 2, 3, 4, 5, 7, 9, 13, 17, 25, 33, 49, 65, 97, 129, 193, 257, 385, 513, 769, 1025, 1537, 2049, 3073, 4097,
    6145, 8193, 12289, 16385, 24577]

/-- The extra-bit counts of symbols 0..29 (R100, `DEXTRA`). -/
def dextraTable : List Nat :=
  [0, 0, 0, 0, 1, 1, 2, 2, 3, 3, 4, 4, 5, 5, 6, 6, 7, 7, 8, 8, 9, 9, 10, 10, 11, 11, 12, 12, 13, 13]

/-- `LBASE(s)` for a length symbol `s` in 257..285 (R99). -/
def lbase (s : Nat) : Nat := lbaseTable.getD (s - 257) 0

/-- `LEXTRA(s)` for a length symbol `s` in 257..285 (R99). -/
def lextra (s : Nat) : Nat := lextraTable.getD (s - 257) 0

/-- `DBASE(s)` for a distance symbol `s` in 0..29 (R100). -/
def dbase (s : Nat) : Nat := dbaseTable.getD s 0

/-- `DEXTRA(s)` for a distance symbol `s` in 0..29 (R100). -/
def dextra (s : Nat) : Nat := dextraTable.getD s 0

/-- The length symbols: 257..285 (R99). -/
abbrev isLengthSymbol (s : Nat) : Prop := 257 ≤ s ∧ s ≤ 285

/-- The distance symbols that have a meaning: 0..29 (R100). -/
abbrev isDistSymbol (s : Nat) : Prop := s ≤ 29

/-- `HLIT = HLIT5 + 257` (R96, R103). -/
def hlitOf (hlit5 : BitVec 5) : BitVec 9 := hlit5.setWidth 9 + 257

/-- `HDIST = HDIST5 + 1` (R96, R103). -/
def hdistOf (hdist5 : BitVec 5) : BitVec 6 := hdist5.setWidth 6 + 1

/-- `HCLEN = HCLEN4 + 4` (R96, R103). -/
def hclenOf (hclen4 : BitVec 4) : BitVec 5 := hclen4.setWidth 5 + 4

/-- The extra-bit width of a repeat symbol: 2, 3 and 7 for 16, 17 and 18 (R98, R206). -/
def repeatExtra : Nat → Option Nat
  | 16 => some 2
  | 17 => some 3
  | 18 => some 7
  | _ => none

/-- `LENGTH = LBASE + read(LEXTRA)` (R103, R236). -/
def addLengthExtra (length : BitVec 9) (x : BitVec 5) : BitVec 9 := length + x.setWidth 9

/-- `DIST = DBASE + read(DEXTRA)` (R103, R239). -/
def addDistExtra (dist : BitVec 16) (y : BitVec 13) : BitVec 16 := dist + y.setWidth 16

end Sys2Proof.Machine
end

