-- ==== Sys2Proof/Machine/Flags.lean ====
section
/-! DEFINITION. Flags: the hardware has no condition codes (R42). `LAST` is its one flag: every block header writes
it (R180) and only the end of a block reads it (R186). -/

namespace Sys2Proof.Machine

/-- `LAST <- BFINAL`, what every block header does first (R180, R31). -/
def writeLast (last : Bool) (s : State) : State :=
  { s with scratch := { s.scratch with last := .put last } }

/-- `END_BLOCK()` (R186): the end of a block of any type, the one reader of `LAST`. -/
def endBlock (s : State) : Result :=
  readReg .LAST s.scratch.last fun last =>
    if last then finish s else goto .header s

end Sys2Proof.Machine
end

