-- ==== Sys2Proof/Machine/Huffman.lean ====
section
/-! DEFINITION. Huffman: `canonical_huffman_table_builder` and `huffman_decoder_engine` (`41_huffman_tables.md`). -/

namespace Sys2Proof.Machine

/-! ### Code lengths -/

/-- The code lengths of a table as numbers. -/
def Table.lens (T : Table) : List Nat := T.len.map BitVec.toNat

/-- `count[L]` of R150 and R152: how many symbols have code length `L`, with `count[0] = 0`. -/
def lengthCount (lens : List Nat) (L : Nat) : Nat :=
  if L = 0 then 0 else lens.countP (· == L)

/-- `T.maxlen` (R153). -/
def Table.maxlen (T : Table) : Nat := T.lens.foldl max 0

/-! ### BUILD -/

/-- The kind of a tree (R150). -/
inductive TreeKind where
  | cl | ll | d
deriving DecidableEq, Repr

/-- The `left` of R150 after `L` lengths: the code space that is still free, in codewords of length `L`. -/
def codeSpaceLeft (lens : List Nat) : Nat → Int
  | 0 => 1
  | L + 1 => 2 * codeSpaceLeft lens L - lengthCount lens (L + 1)

/-- The over-subscription test of R150, made at every length. -/
def overSubscribed (lens : List Nat) : Bool :=
  (List.range' 1 15).any fun L => codeSpaceLeft lens L < 0

/-- How many symbols have a codeword (R150, `nz`). -/
def nonzeroCount (lens : List Nat) : Nat := lens.countP (· != 0)

/-- `BUILD(kind, len, n)` (R150, R151): the table, or the fault its caller raises. -/
def build (kind : TreeKind) (len : List (BitVec 4)) : Except StreamFault Table :=
  let T : Table := ⟨len⟩
  if overSubscribed T.lens then .error .overSubscribedLengths
  else if 0 < codeSpaceLeft T.lens 15 ∧ ¬(kind = .cl ∧ nonzeroCount T.lens = 1) then .error .incompleteLengths
  else .ok T

/-! ### Canonical codewords -/

/-- The first codeword of each length from `L` on, for `k` lengths (R152): `code <- (code + count[L-1]) << 1`. -/
def firstCodesFrom (lens : List Nat) : Nat → Nat → Nat → List Nat
  | 0, _, _ => []
  | k + 1, L, code =>
    let code' := 2 * (code + lengthCount lens (L - 1))
    code' :: firstCodesFrom lens k (L + 1) code'

/-- `next[0..15]` before the symbols are numbered (R152); `next[0]` is not used. -/
def firstCodes (lens : List Nat) : List Nat := 0 :: firstCodesFrom lens 15 1 0

/-- The symbols numbered in increasing order: each with its code length and its codeword (R152). A symbol of
length 0 has no codeword and stands as `(0, 0)`. -/
def assignCodes : List Nat → List Nat → List (Nat × Nat)
  | _, [] => []
  | next, L :: lens =>
    if L = 0 then (0, 0) :: assignCodes next lens
    else (L, next.getD L 0) :: assignCodes (next.set L (next.getD L 0 + 1)) lens

/-- The length and codeword of every symbol of a table (R152). -/
def Table.codes (T : Table) : List (Nat × Nat) := assignCodes (firstCodes T.lens) T.lens

/-- The symbol whose codeword is the `L`-bit value `c`, if there is one. -/
def findCode (codes : List (Nat × Nat)) (L c : Nat) : Option Nat :=
  codes.findIdx? fun p => p.1 == L && p.2 == c

/-! ### Decoding a symbol -/

/-- The shortest length `L`, from `first` on and for `k` lengths, at which the held bits begin with a codeword; the
first stream bit is the codeword's most significant (R160, R161). The result is the symbol and `L`. -/
def matchLengths (codes : List (Nat × Nat)) (buf : Nat) : Nat → Nat → Option (Nat × Nat)
  | 0, _ => none
  | k + 1, L =>
    match findCode codes L (revBits L (buf % 2 ^ L)) with
    | some sym => some (sym, L)
    | none => matchLengths codes buf k (L + 1)

/-- The codeword the held bits begin with, if they hold a whole one (R160, the inner loop). -/
def Table.matchHeld (T : Table) (a : Accumulator) : Option (Nat × Nat) :=
  matchLengths T.codes a.buf (min a.cnt.toNat T.maxlen) 1

/-- The result of `decode_sym` (R160), with the state it leaves; `stop` is a model fault of a pull. -/
inductive SymResult where
  | symbol (sym : Nat) (s : State)
  | invalid (s : State)
  | needInput (s : State)
  | stop (f : Fault)
deriving DecidableEq, Repr

/-- The loop of `decode_sym(T)`, with `k` pulls left until `BITCNT ≥ T.maxlen`. -/
def decodeSymLoop (T : Table) : Nat → State → SymResult
  | 0, s =>
    match T.matchHeld s.acc with
    | some (sym, L) => .symbol sym (dropBits L s)
    | none => .invalid s
  | k + 1, s =>
    match T.matchHeld s.acc with
    | some (sym, L) => .symbol sym (dropBits L s)
    | none =>
      if s.cur.availIn = 0 then .needInput s
      else match pull s with
        | .ok s' => decodeSymLoop T k s'
        | .error f => .stop f

/-- `decode_sym(T)` (R160): a byte is pulled only while the held bits contain no whole codeword and are fewer than
`T.maxlen`. -/
def decodeSym (T : Table) (s : State) : SymResult := decodeSymLoop T (pullsNeeded T.maxlen s) s

/-! ### The fixed tables (R155, R156, R157) -/

/-- `FIXED_LL` (R101, R155). -/
def fixedLL : Table :=
  ⟨List.replicate 144 8 ++ List.replicate 112 9 ++ List.replicate 24 7 ++ List.replicate 8 8⟩

/-- `FIXED_D` (R102, R156). -/
def fixedD : Table := ⟨List.replicate 32 5⟩

/-! ### The arrays of code lengths (R35, R36) -/

/-- `CLC_LENS` as the code lengths of a table (R202). -/
def clcLensList (v : Vector (BitVec 3) 19) : List (BitVec 4) := v.toList.map (·.setWidth 4)

/-- `LENS[from .. from+n-1]` (R207). -/
def lensSlice (v : Vector (BitVec 4) 316) (start n : Nat) : List (BitVec 4) := (v.toList.drop start).take n

/-- `LENS[i] <- val` for `n` indices from `start` (R206); an index outside the array is a model fault. -/
def fillLens (v : Vector (BitVec 4) 316) (start n : Nat) (val : BitVec 4) :
    Except Fault (Vector (BitVec 4) 316) :=
  if start + n ≤ 316 then
    .ok (Vector.ofFn fun i => if start ≤ i.val ∧ i.val < start + n then val else v[i])
  else .error (.arrayIndexInvalid .LENS (start + n - 1))

end Sys2Proof.Machine
end

