-- ==== Sys2Proof/Machine/Header.lean ====
section
/-! DEFINITION. Header: the meanings of the block headers (`42_block_header_stored.md`, R180 to R184). The three header
bits have been consumed (`Machine/Fetch.lean`). -/

namespace Sys2Proof.Machine

/-- `BLOCK_STORED` (R181): `flush_byte(); goto STORED_LEN`. -/
def execBlockStored (last : Bool) (s : State) : Result :=
  goto .storedLen (flushByte (writeLast last s))

/-- `BLOCK_FIXED` (R182): `TABLESEL <- FIXED; goto LL_SYM`. -/
def execBlockFixed (last : Bool) (s : State) : Result :=
  let s := writeLast last s
  goto .llSym { s with scratch := { s.scratch with tableSel := .put .fixed } }

/-- `BLOCK_DYNAMIC` (R183): `goto DYN_COUNTS`. -/
def execBlockDynamic (last : Bool) (s : State) : Result :=
  goto .dynCounts (writeLast last s)

/-- `BLOCK_RESERVED` (R184): `raise INVALID_BLOCK_TYPE`, with `LAST` written. -/
def execBlockReserved (last : Bool) (s : State) : Result :=
  raise .invalidBlockType (writeLast last s)

end Sys2Proof.Machine
end

