-- ==== Sys2Proof/Machine/Stored.lean ====
section
/-! DEFINITION. Stored: the meanings of the stored block's elements (`42_block_header_stored.md`, R185 to R188). -/

namespace Sys2Proof.Machine

/-- `STORED_LEN` (R185, R188): the complement check, then the payload or the end of the block. -/
def execStoredLen (len nlen : BitVec 16) (s : State) : Result :=
  if len ≠ ~~~nlen then raise .invalidStoredBlockLengths s
  else
    let s := flush s
    let s := { s with scratch := { s.scratch with storedRemain := .put len } }
    if len = 0 then endBlock s else goto .storedCopy s

/-- `STORED_DATA` (R187): the byte just read from `IN` is emitted and counted; the last one ends the block. -/
def execStoredData (b : Byte) (s : State) : Result :=
  readReg .STORED_REMAIN s.scratch.storedRemain fun remain =>
    let s := emit b s
    let s := { s with scratch := { s.scratch with storedRemain := .put (remain - 1) } }
    if remain - 1 = 0 then endBlock s else goto .storedCopy s

end Sys2Proof.Machine
end

