-- ==== Sys2Proof/Machine/DynHeader.lean ====
section
/-! DEFINITION. DynHeader: the meanings of the dynamic header and its code-length-code lengths
(`43_dynamic_header.md`, R200 to R202). -/

namespace Sys2Proof.Machine

/-- The three counts are written before they are checked (R200). -/
def writeCounts (hlit5 hdist5 : BitVec 5) (hclen4 : BitVec 4) (s : State) : State :=
  { s with
    scratch := { s.scratch with
      hlit := .put (hlitOf hlit5)
      hdist := .put (hdistOf hdist5)
      hclen := .put (hclenOf hclen4) } }

/-- The step DYN_COUNTS after `read(14)` (R200): the counts, the check of D9, the cleared bookkeeping. -/
def dynCounts (hlit5 hdist5 : BitVec 5) (hclen4 : BitVec 4) (s : State) : Result :=
  let s := writeCounts hlit5 hdist5 hclen4 s
  if 286 < (hlitOf hlit5).toNat ∨ 30 < (hdistOf hdist5).toNat then raise .tooManySymbols s
  else goto .dynClc { s with
    scratch := { s.scratch with clcIndex := .put 0, clcLens := .put (Vector.replicate 19 0) } }

/-- `DYN_HEADER` (R200). -/
def execDynHeader (hlit5 hdist5 : BitVec 5) (hclen4 : BitVec 4) (s : State) : Result :=
  dynCounts hlit5 hdist5 hclen4 s

/-- `DYN_HEADER_TOO_MANY_HLIT` (R200, R107). -/
def execDynHeaderTooManyHlit (hlit5 hdist5 : BitVec 5) (hclen4 : BitVec 4) (s : State) : Result :=
  dynCounts hlit5 hdist5 hclen4 s

/-- `DYN_HEADER_TOO_MANY_HDIST` (R200, R107). -/
def execDynHeaderTooManyHdist (hlit5 hdist5 : BitVec 5) (hclen4 : BitVec 4) (s : State) : Result :=
  dynCounts hlit5 hdist5 hclen4 s

/-- `BUILD_CL()` (R202), on the 19 code-length-code lengths. -/
def buildCL (lens : Vector (BitVec 3) 19) (s : State) : Result :=
  match build .cl (clcLensList lens) with
  | .error e => raise e s
  | .ok T => goto .dynLens { s with
      scratch := { s.scratch with
        tblCL := .put T, lensIndex := .put 0, lens := .put (Vector.replicate 316 0) } }

/-- `CLC_ENTRY` (R201): the length goes to symbol `CLC_ORDER[CLC_INDEX]`; the last one runs `BUILD_CL`. -/
def execClcEntry (len : BitVec 3) (s : State) : Result :=
  readReg .CLC_INDEX s.scratch.clcIndex fun index =>
  readReg .CLC_LENS s.scratch.clcLens fun lens =>
  readReg .HCLEN s.scratch.hclen fun hclen =>
    match clcOrder[index.toNat]? with
    | none => .fault (.arrayIndexInvalid .CLC_LENS index.toNat)
    | some sym =>
      let lens := lens.setIfInBounds sym len
      let s := { s with scratch := { s.scratch with clcLens := .put lens, clcIndex := .put (index + 1) } }
      if index + 1 = hclen then buildCL lens s else goto .dynClc s

end Sys2Proof.Machine
end

