-- ==== Sys2Proof/Machine/CodeLength.lean ====
section
/-! DEFINITION. CodeLength: the meanings of the code-length symbols and their extra bits (`43_dynamic_header.md`,
R203 to R208). -/

namespace Sys2Proof.Machine

/-- `FINISH_LENS()` (R207): the end-of-block check, the literal/length build, the distance build, in that order; the
two tables are written only when both builds succeed. -/
def finishLens (lens : Vector (BitVec 4) 316) (hlit : BitVec 9) (hdist : BitVec 6) (s : State) : Result :=
  if lens[256] = 0 then raise .missingEob s
  else match build .ll (lensSlice lens 0 hlit.toNat) with
    | .error e => raise e s
    | .ok tblLL =>
      match build .d (lensSlice lens hlit.toNat hdist.toNat) with
      | .error e => raise e s
      | .ok tblD => goto .llSym { s with
          scratch := { s.scratch with
            tblLL := .put tblLL, tblD := .put tblD, tableSel := .put .dynamic } }

/-- What follows when `n` more code lengths of value `val` are decoded (R203, R206): they are written from
`LENS_INDEX` on, and the last length of the sequence runs `FINISH_LENS`. -/
def appendLens (n : Nat) (val : BitVec 4) (lens : Vector (BitVec 4) 316) (index : BitVec 9) (hlit : BitVec 9)
    (hdist : BitVec 6) (s : State) : Result :=
  match fillLens lens index.toNat n val with
  | .error f => .fault f
  | .ok lens' =>
    let index' := index + BitVec.ofNat 9 n
    let s := { s with scratch := { s.scratch with lens := .put lens', lensIndex := .put index' } }
    if index'.toNat = hlit.toNat + hdist.toNat then finishLens lens' hlit hdist s else goto .dynLens s

/-- `CL_LEN` (R203): one code length. -/
def execClLen (len : BitVec 4) (s : State) : Result :=
  readReg .LENS s.scratch.lens fun lens =>
  readReg .LENS_INDEX s.scratch.lensIndex fun index =>
  readReg .HLIT s.scratch.hlit fun hlit =>
  readReg .HDIST s.scratch.hdist fun hdist =>
    appendLens 1 len lens index hlit hdist s

/-- A repeat symbol waits for its extra bits (R204, R205). -/
def startRepeat (sym : BitVec 5) (s : State) : Result :=
  goto .dynRepeat { s with scratch := { s.scratch with repSym := .put sym } }

/-- `CL_REPEAT_PREV` (R204): a fault where no length precedes it. -/
def execClRepeatPrev (s : State) : Result :=
  readReg .LENS_INDEX s.scratch.lensIndex fun index =>
    if index = 0 then raise .invalidBitLengthRepeat s else startRepeat 16 s

/-- `CL_REPEAT_ZERO_SHORT` (R205). -/
def execClRepeatZeroShort (s : State) : Result := startRepeat 17 s

/-- `CL_REPEAT_ZERO_LONG` (R205). -/
def execClRepeatZeroLong (s : State) : Result := startRepeat 18 s

/-- `CL_NO_MATCH` (R208). -/
def execClNoMatch (s : State) : Result := raise .invalidCodeLengthSymbol s

/-- The step DYN_REPEAT after `read(e)` (R206): `n` copies of a value that `val` gives from `LENS` and
`LENS_INDEX`, unless they run past the last length. -/
def repeatLens (n : Nat) (val : Vector (BitVec 4) 316 → BitVec 9 → Except Fault (BitVec 4)) (s : State) : Result :=
  readReg .LENS s.scratch.lens fun lens =>
  readReg .LENS_INDEX s.scratch.lensIndex fun index =>
  readReg .HLIT s.scratch.hlit fun hlit =>
  readReg .HDIST s.scratch.hdist fun hdist =>
    match val lens index with
    | .error f => .fault f
    | .ok v =>
      if hlit.toNat + hdist.toNat < index.toNat + n then raise .invalidBitLengthRepeat s
      else appendLens n v lens index hlit hdist s

/-- `LENS[LENS_INDEX - 1]`, the previous code length (R206). -/
def previousLen (lens : Vector (BitVec 4) 316) (index : BitVec 9) : Except Fault (BitVec 4) :=
  if index = 0 then .error (.arrayIndexInvalid .LENS 0)
  else match lens[index.toNat - 1]? with
    | some v => .ok v
    | none => .error (.arrayIndexInvalid .LENS (index.toNat - 1))

/-- `CL16_EXTRA` (R206): the previous length, `3 + x` times. -/
def execCl16Extra (x : BitVec 2) (s : State) : Result := repeatLens (3 + x.toNat) previousLen s

/-- `CL17_EXTRA` (R206): length 0, `3 + x` times. -/
def execCl17Extra (x : BitVec 3) (s : State) : Result := repeatLens (3 + x.toNat) (fun _ _ => .ok 0) s

/-- `CL18_EXTRA` (R206): length 0, `11 + x` times. -/
def execCl18Extra (x : BitVec 7) (s : State) : Result := repeatLens (11 + x.toNat) (fun _ _ => .ok 0) s

end Sys2Proof.Machine
end

