-- ==== Sys2Proof/Machine/Literal.lean ====
section
/-! DEFINITION. Literal: the meanings of the literal/length symbols and the length extra bits
(`44_symbol_loop.md`, R231 to R236). -/

namespace Sys2Proof.Machine

/-- `LIT` (R231): `LIT_VAL <- s; goto LIT_EMIT`. -/
def execLit (b : Byte) (s : State) : Result :=
  goto .litEmit { s with scratch := { s.scratch with litVal := .put b } }

/-- `EOB` (R232): `END_BLOCK()`. -/
def execEob (s : State) : Result := endBlock s

/-- `LENGTH_SYMBOL(s)` (R233): the symbol and its base length; extra bits are read next where it has any. -/
def lengthSymbol (sym : Nat) (s : State) : Result :=
  goto (if 0 < lextra sym then .lenExtra else .distSym) { s with
    scratch := { s.scratch with sym := .put (BitVec.ofNat 9 sym), length := .put (BitVec.ofNat 9 (lbase sym)) } }

/-- `LEN_257` (R233). -/
def execLen257 (s : State) : Result := lengthSymbol 257 s

/-- `LEN_258` (R233). -/
def execLen258 (s : State) : Result := lengthSymbol 258 s

/-- `LEN_259` (R233). -/
def execLen259 (s : State) : Result := lengthSymbol 259 s

/-- `LEN_260` (R233). -/
def execLen260 (s : State) : Result := lengthSymbol 260 s

/-- `LEN_261` (R233). -/
def execLen261 (s : State) : Result := lengthSymbol 261 s

/-- `LEN_262` (R233). -/
def execLen262 (s : State) : Result := lengthSymbol 262 s

/-- `LEN_263` (R233). -/
def execLen263 (s : State) : Result := lengthSymbol 263 s

/-- `LEN_264` (R233). -/
def execLen264 (s : State) : Result := lengthSymbol 264 s

/-- `LEN_265` (R233). -/
def execLen265 (s : State) : Result := lengthSymbol 265 s

/-- `LEN_266` (R233). -/
def execLen266 (s : State) : Result := lengthSymbol 266 s

/-- `LEN_267` (R233). -/
def execLen267 (s : State) : Result := lengthSymbol 267 s

/-- `LEN_268` (R233). -/
def execLen268 (s : State) : Result := lengthSymbol 268 s

/-- `LEN_269` (R233). -/
def execLen269 (s : State) : Result := lengthSymbol 269 s

/-- `LEN_270` (R233). -/
def execLen270 (s : State) : Result := lengthSymbol 270 s

/-- `LEN_271` (R233). -/
def execLen271 (s : State) : Result := lengthSymbol 271 s

/-- `LEN_272` (R233). -/
def execLen272 (s : State) : Result := lengthSymbol 272 s

/-- `LEN_273` (R233). -/
def execLen273 (s : State) : Result := lengthSymbol 273 s

/-- `LEN_274` (R233). -/
def execLen274 (s : State) : Result := lengthSymbol 274 s

/-- `LEN_275` (R233). -/
def execLen275 (s : State) : Result := lengthSymbol 275 s

/-- `LEN_276` (R233). -/
def execLen276 (s : State) : Result := lengthSymbol 276 s

/-- `LEN_277` (R233). -/
def execLen277 (s : State) : Result := lengthSymbol 277 s

/-- `LEN_278` (R233). -/
def execLen278 (s : State) : Result := lengthSymbol 278 s

/-- `LEN_279` (R233). -/
def execLen279 (s : State) : Result := lengthSymbol 279 s

/-- `LEN_280` (R233). -/
def execLen280 (s : State) : Result := lengthSymbol 280 s

/-- `LEN_281` (R233). -/
def execLen281 (s : State) : Result := lengthSymbol 281 s

/-- `LEN_282` (R233). -/
def execLen282 (s : State) : Result := lengthSymbol 282 s

/-- `LEN_283` (R233). -/
def execLen283 (s : State) : Result := lengthSymbol 283 s

/-- `LEN_284` (R233). -/
def execLen284 (s : State) : Result := lengthSymbol 284 s

/-- `LEN_285` (R233). -/
def execLen285 (s : State) : Result := lengthSymbol 285 s

/-- `LL_INVALID_286` (R234(a)). -/
def execLlInvalid286 (s : State) : Result := raise .invalidLenCode s

/-- `LL_INVALID_287` (R234(a)). -/
def execLlInvalid287 (s : State) : Result := raise .invalidLenCode s

/-- `LL_NO_MATCH` (R234(b)). -/
def execLlNoMatch (s : State) : Result := raise .invalidLenCode s

/-- `LEN_EXTRA` (R236): `LENGTH <- LENGTH + x; goto DIST_SYM`. The width `_n` of the field was `LEXTRA(SYM)` when the
element was read. -/
def execLenExtra (_n : Nat) (x : BitVec 5) (s : State) : Result :=
  readReg .LENGTH s.scratch.length fun length =>
    goto .distSym { s with scratch := { s.scratch with length := .put (addLengthExtra length x) } }

/-- The step LIT_EMIT (R235): the pending literal is emitted when there is output space. It is a step of the machine
with no element of the stream. -/
def stepLitEmit (s : State) : Result :=
  if s.cur.availOut = 0 then suspend s
  else readReg .LIT_VAL s.scratch.litVal fun b => goto .llSym (emit b s)

end Sys2Proof.Machine
end

