-- ==== Sys2Proof/Machine/Distance.lean ====
section
/-! DEFINITION. Distance: the meanings of the distance symbols and their extra bits, and the copy
(`44_symbol_loop.md`, R237 to R242). -/

namespace Sys2Proof.Machine

/-- `CHECK_DIST()` (R240), with `dist` the complete distance in `DIST`. -/
def checkDist (dist : BitVec 16) (s : State) : Result :=
  if s.win.size < dist.toNat then raise .invalidDistance s
  else readReg .LENGTH s.scratch.length fun length =>
    goto .copy { s with scratch := { s.scratch with copyRemain := .put length } }

/-- A distance symbol below 30 (R237): the symbol and its base distance; extra bits are read next where it has any,
and otherwise the distance is checked. -/
def distSymbol (sym : Nat) (s : State) : Result :=
  let dist := BitVec.ofNat 16 (dbase sym)
  let s := { s with scratch := { s.scratch with sym := .put (BitVec.ofNat 9 sym), dist := .put dist } }
  if 0 < dextra sym then goto .distExtra s else checkDist dist s

/-- `DIST_0` (R237). -/
def execDist0 (s : State) : Result := distSymbol 0 s

/-- `DIST_1` (R237). -/
def execDist1 (s : State) : Result := distSymbol 1 s

/-- `DIST_2` (R237). -/
def execDist2 (s : State) : Result := distSymbol 2 s

/-- `DIST_3` (R237). -/
def execDist3 (s : State) : Result := distSymbol 3 s

/-- `DIST_4` (R237). -/
def execDist4 (s : State) : Result := distSymbol 4 s

/-- `DIST_5` (R237). -/
def execDist5 (s : State) : Result := distSymbol 5 s

/-- `DIST_6` (R237). -/
def execDist6 (s : State) : Result := distSymbol 6 s

/-- `DIST_7` (R237). -/
def execDist7 (s : State) : Result := distSymbol 7 s

/-- `DIST_8` (R237). -/
def execDist8 (s : State) : Result := distSymbol 8 s

/-- `DIST_9` (R237). -/
def execDist9 (s : State) : Result := distSymbol 9 s

/-- `DIST_10` (R237). -/
def execDist10 (s : State) : Result := distSymbol 10 s

/-- `DIST_11` (R237). -/
def execDist11 (s : State) : Result := distSymbol 11 s

/-- `DIST_12` (R237). -/
def execDist12 (s : State) : Result := distSymbol 12 s

/-- `DIST_13` (R237). -/
def execDist13 (s : State) : Result := distSymbol 13 s

/-- `DIST_14` (R237). -/
def execDist14 (s : State) : Result := distSymbol 14 s

/-- `DIST_15` (R237). -/
def execDist15 (s : State) : Result := distSymbol 15 s

/-- `DIST_16` (R237). -/
def execDist16 (s : State) : Result := distSymbol 16 s

/-- `DIST_17` (R237). -/
def execDist17 (s : State) : Result := distSymbol 17 s

/-- `DIST_18` (R237). -/
def execDist18 (s : State) : Result := distSymbol 18 s

/-- `DIST_19` (R237). -/
def execDist19 (s : State) : Result := distSymbol 19 s

/-- `DIST_20` (R237). -/
def execDist20 (s : State) : Result := distSymbol 20 s

/-- `DIST_21` (R237). -/
def execDist21 (s : State) : Result := distSymbol 21 s

/-- `DIST_22` (R237). -/
def execDist22 (s : State) : Result := distSymbol 22 s

/-- `DIST_23` (R237). -/
def execDist23 (s : State) : Result := distSymbol 23 s

/-- `DIST_24` (R237). -/
def execDist24 (s : State) : Result := distSymbol 24 s

/-- `DIST_25` (R237). -/
def execDist25 (s : State) : Result := distSymbol 25 s

/-- `DIST_26` (R237). -/
def execDist26 (s : State) : Result := distSymbol 26 s

/-- `DIST_27` (R237). -/
def execDist27 (s : State) : Result := distSymbol 27 s

/-- `DIST_28` (R237). -/
def execDist28 (s : State) : Result := distSymbol 28 s

/-- `DIST_29` (R237). -/
def execDist29 (s : State) : Result := distSymbol 29 s

/-- `D_INVALID_30` (R238(a)). -/
def execDInvalid30 (s : State) : Result := raise .invalidDistCode s

/-- `D_INVALID_31` (R238(a)). -/
def execDInvalid31 (s : State) : Result := raise .invalidDistCode s

/-- `D_NO_MATCH` (R238(b)). -/
def execDNoMatch (s : State) : Result := raise .invalidDistCode s

/-- `DIST_EXTRA` (R239): `DIST <- DIST + y`, then the check. The width `_n` of the field was `DEXTRA(SYM)` when the
element was read. -/
def execDistExtra (_n : Nat) (y : BitVec 13) (s : State) : Result :=
  readReg .DIST s.scratch.dist fun dist =>
    let dist := addDistExtra dist y
    checkDist dist { s with scratch := { s.scratch with dist := .put dist } }

/-- The step COPY (R241): one byte of a back-reference, read from the window before the write. It is a step of the
machine with no element of the stream. -/
def stepCopy (s : State) : Result :=
  if s.cur.availOut = 0 then suspend s
  else readReg .DIST s.scratch.dist fun dist =>
    readReg .COPY_REMAIN s.scratch.copyRemain fun remain =>
      match winBack dist.toNat s with
      | .error f => .fault f
      | .ok b =>
        let s := emit b s
        goto (if remain - 1 = 0 then .llSym else .copy)
          { s with scratch := { s.scratch with copyRemain := .put (remain - 1) } }

end Sys2Proof.Machine
end

