-- ==== Sys2Proof/Machine/HostCmd.lean ====
section
/-! DEFINITION. HostCmd: the meanings of the host commands (`45_host_commands.md`, R270 to R274, R280). The machine
runs one step of the DECODE loop at a time (`Machine/Step.lean`): DECODE itself starts the loop. -/

namespace Sys2Proof.Machine

/-- The cursors after INIT: the totals are 0, and the four registers the host sets at each DECODE have 'no value'
(R45), so each is a free value (log entry 5). -/
def Cursors.afterInit (p : Config.Params) (n : Nat) : Cursors where
  nextIn := lowBits p.cursorBits (Config.freeCursor n)
  availIn := lowBits p.cursorBits (Config.freeCursor (n + 1))
  totalIn := 0
  nextOut := lowBits p.cursorBits (Config.freeCursor (n + 2))
  availOut := lowBits p.cursorBits (Config.freeCursor (n + 3))
  totalOut := 0

/-- `INIT` (R270): a new session with a window of `2^wb` bytes. A `wb` above 15 is refused. -/
def execInit (wb : Nat) (s : State) : Result :=
  if 15 < wb then .refused (.windowBitsTooLarge wb)
  else
    let t := freshStream s
    .next { t with
      constructed := true
      win := { t.win.clear with windowBits := BitVec.ofNat 4 wb }
      cur := .afterInit s.params s.freeCount
      freeCount := s.freeCount + 4 }

/-- `RESET` (R271): a fresh stream in the same session, with the window kept or cleared. Before the first INIT it is
refused (R330). -/
def execReset (keep : Bool) (s : State) : Result :=
  if ¬s.constructed then .refused .beforeInit
  else
    let t := freshStream s
    .next (if keep then t else { t with win := t.win.clear })

/-- What the four RW registers hold once the host has written them: each is `CURSOR_BITS` wide (R22), so it takes the
low bits of what was sent (log entry 8). -/
def receivedArgs (p : Config.Params) (a : DecodeArgs) : DecodeArgs :=
  { a with
    nextIn := lowBits p.cursorBits a.nextIn
    availIn := lowBits p.cursorBits a.availIn
    nextOut := lowBits p.cursorBits a.nextOut
    availOut := lowBits p.cursorBits a.availOut }

/-- Both regions hold the bytes their cursors name (R272): `IN` at least `NEXT_IN + AVAIL_IN`, `OUT` at least
`NEXT_OUT + AVAIL_OUT`. DESIGN CHOICE: the sums are taken as numbers and do not wrap, also past `2^CURSOR_BITS`, where
the steps go on at index 0 (log entry 20). -/
abbrev regionsHold (a : DecodeArgs) : Prop :=
  a.nextIn + a.availIn ≤ a.inRegion.bytes.length ∧
    a.nextOut + a.availOut ≤ a.outRegion.bytes.length

/-- The offered ranges have a byte of the host's memory in common (R78, R283, R334(b)). An empty range overlaps nothing
(log entry 7). DESIGN CHOICE: a range that runs past `2^CURSOR_BITS` is compared as it stands, unwrapped (log entry
20). -/
abbrev rangesOverlap (a : DecodeArgs) : Prop :=
  a.availIn ≠ 0 ∧ a.availOut ≠ 0 ∧
    a.inRegion.base + a.nextIn < a.outRegion.base + a.nextOut + a.availOut ∧
    a.outRegion.base + a.nextOut < a.inRegion.base + a.nextIn + a.availIn

/-- What the host writes with a DECODE: the four RW registers and the two regions (R272). -/
def offer (a : DecodeArgs) (s : State) : State :=
  { s with
    cur := { s.cur with
      nextIn := a.nextIn, availIn := a.availIn, nextOut := a.nextOut, availOut := a.availOut }
    inMem := .ofBytes a.inRegion.bytes
    outMem := .ofBytes a.outRegion.bytes }

/-- What a DECODE does at entry (R273, R274): in `DONE` and `ERROR` it returns at once, and otherwise the loop of
steps begins. -/
def enterDecode (s : State) : Result :=
  match s.mode with
  | .done => .next { s with status := .endOfStream, running := false }
  | .error => .next { s with running := false }
  | .header | .storedLen | .storedCopy | .dynCounts | .dynClc | .dynLens | .dynRepeat | .llSym | .litEmit
  | .lenExtra | .distSym | .distExtra | .copy => .next { s with running := true }

/-- `DECODE` (R272, R273). Before the first INIT it is refused (R330), and so is a DECODE whose regions are too short
(R272, R283) or whose offered ranges overlap (R334(b)). -/
def execDecode (a : DecodeArgs) (s : State) : Result :=
  let a := receivedArgs s.params a
  if ¬s.constructed then .refused .beforeInit
  else if ¬regionsHold a then .refused .regionTooShort
  else if rangesOverlap a then .refused .rangesOverlap
  else enterDecode (offer a s)

/-- `HOSTCMD_RESERVED` (R280): codes 3 and up are refused. -/
def execHostcmdReserved (code : Byte) (_s : State) : Result := .refused (.reservedCommand code)

end Sys2Proof.Machine
end

