-- ==== Sys2Proof/Machine/Fetch.lean ====
section
/-! DEFINITION. Fetch: how the next element is read from the stream. `MODE` fixes its format and, with the scratch
registers, its width (R110); a field is read LSB first (R91), a symbol by codeword (R92). Also the stream bits of an
element, the other way round. -/

namespace Sys2Proof.Machine

/-- The result of fetching: a word with the state after its bits are consumed, a suspension with the bytes pulled so
far kept (R10), or a model fault. -/
inductive Fetched where
  | word (w : InstrWord) (s : State)
  | suspend (s : State)
  | stop (f : Fault)
deriving DecidableEq, Repr

/-- Reading a register that R44 and R45 can leave with no value, while fetching: a fault where it has none (R44, D28). -/
def fetchReg {α : Type} (name : RegName) (r : Reg α) (k : α → Fetched) : Fetched :=
  if r.written then k r.val else .stop (.unwrittenRegister name)

/-- A `FIELD(n)` element (R91): `ensure(n)`, then `read(n)`. -/
def fetchField (n : Nat) (f : Format) (s : State) : Fetched :=
  match ensure n s with
  | .error e => .stop e
  | .ok (false, s') => .suspend s'
  | .ok (true, s') =>
    match readBits n s' with
    | .error e => .stop e
    | .ok (v, s'') => .word (.field f v) s''

/-- A `HUFF(T)` element (R92). -/
def fetchSym (T : Table) (f : Format) (s : State) : Fetched :=
  match decodeSym T s with
  | .symbol sym s' => .word (.field f sym) s'
  | .invalid s' => .word (.noMatch f) s'
  | .needInput s' => .suspend s'
  | .stop e => .stop e

/-- A stored payload byte, read straight from `IN` where there is input and output space (R187, R95). -/
def fetchStored (s : State) : Fetched :=
  if s.cur.availIn = 0 ∨ s.cur.availOut = 0 then .suspend s
  else match readIn s with
    | .error e => .stop e
    | .ok b => .word (.field .storedData b.toNat) { s with cur := s.cur.consume s.params }

/-- The extra bits of a repeat (R206), whose width `REP_SYM` fixes. -/
def fetchRepeat (s : State) : Fetched :=
  fetchReg .REP_SYM s.scratch.repSym fun rep =>
    match rep.toNat with
    | 16 => fetchField 2 .clExtra16 s
    | 17 => fetchField 3 .clExtra17 s
    | 18 => fetchField 7 .clExtra18 s
    | _ => .stop (.registerOutOfRange .REP_SYM)

/-- The literal/length table of the symbol loop (R230). -/
def withTableLL (s : State) (k : Table → Fetched) : Fetched :=
  fetchReg .TABLESEL s.scratch.tableSel fun sel =>
    match sel with
    | .fixed => k fixedLL
    | .dynamic => fetchReg .TBL_LL s.scratch.tblLL k

/-- The distance table of the symbol loop (R237). -/
def withTableD (s : State) (k : Table → Fetched) : Fetched :=
  fetchReg .TABLESEL s.scratch.tableSel fun sel =>
    match sel with
    | .fixed => k fixedD
    | .dynamic => fetchReg .TBL_D s.scratch.tblD k

/-- The extra bits of a length (R236), whose width `LEXTRA(SYM)` is. -/
def fetchLenExtra (s : State) : Fetched :=
  fetchReg .SYM s.scratch.sym fun sym =>
    if isLengthSymbol sym.toNat then fetchField (lextra sym.toNat) (.lenExtra (lextra sym.toNat)) s
    else .stop (.registerOutOfRange .SYM)

/-- The extra bits of a distance (R239), whose width `DEXTRA(SYM)` is. -/
def fetchDistExtra (s : State) : Fetched :=
  fetchReg .SYM s.scratch.sym fun sym =>
    if isDistSymbol sym.toNat then fetchField (dextra sym.toNat) (.distExtra (dextra sym.toNat)) s
    else .stop (.registerOutOfRange .SYM)

/-- Whether a mode reads an element of the stream (R29): all but `LIT_EMIT`, `COPY` and the two terminal modes. -/
def Mode.readsElement : Mode → Bool
  | .header | .storedLen | .storedCopy | .dynCounts | .dynClc | .dynLens | .dynRepeat | .llSym | .lenExtra
  | .distSym | .distExtra => true
  | .litEmit | .copy | .done | .error => false

/-- The element that comes next (R110). The modes that read none suspend here; `step` does not ask them. -/
def fetch (s : State) : Fetched :=
  match s.mode with
  | .header => fetchField 3 .hdr3 s
  | .storedLen => fetchField 32 .stored32 s
  | .storedCopy => fetchStored s
  | .dynCounts => fetchField 14 .dynhdr14 s
  | .dynClc => fetchField 3 .clc3 s
  | .dynLens => fetchReg .TBL_CL s.scratch.tblCL fun T => fetchSym T .clsym s
  | .dynRepeat => fetchRepeat s
  | .llSym => withTableLL s fun T => fetchSym T .llsym s
  | .lenExtra => fetchLenExtra s
  | .distSym => withTableD s fun T => fetchSym T .dsym s
  | .distExtra => fetchDistExtra s
  | .litEmit | .copy | .done | .error => .suspend s

/-! ### The stream bits of an element -/

/-- The bits of a fixed-width field in stream order: least-significant first (R63(a)). -/
def fieldBits : Nat → Nat → List Bool
  | 0, _ => []
  | n + 1, v => (v % 2 == 1) :: fieldBits n (v / 2)

/-- The bits of an `L`-bit codeword in stream order: most-significant first (R63(b)). -/
def codewordBits (L c : Nat) : List Bool := (fieldBits L c).reverse

/-- The bits of a symbol in a table (R152); none where the symbol has no codeword. -/
def Table.symbolBits (T : Table) (sym : Nat) : List Bool :=
  match T.codes[sym]? with
  | some (L, c) => codewordBits L c
  | none => []

/-- The tables the symbols of a stream are written in. -/
structure Tables where
  cl : Table
  ll : Table
  d : Table
deriving DecidableEq, Repr

/-- The stream bits of the value of a format: by codeword for the three symbol formats, and LSB first for a field. -/
def valueBits (T : Tables) (f : Format) (v : Nat) : List Bool :=
  match f with
  | .clsym => T.cl.symbolBits v
  | .llsym => T.ll.symbolBits v
  | .dsym => T.d.symbolBits v
  | .hdr3 | .stored32 | .storedData | .dynhdr14 | .clc3 | .clExtra16 | .clExtra17 | .clExtra18 | .lenExtra _
  | .distExtra _ => fieldBits f.width v

/-- The value of bits in stream order, read LSB first. -/
def bitsValue : List Bool → Nat
  | [] => 0
  | b :: bs => b.toNat + 2 * bitsValue bs

/-- `k` bytes of a stream (R63: bit 0 of a byte comes first); missing bits are 0. -/
def packBytes : Nat → List Bool → List Byte
  | 0, _ => []
  | k + 1, bits => BitVec.ofNat 8 (bitsValue (bits.take 8)) :: packBytes k (bits.drop 8)

/-! ### Placing one word where the machine fetches (`State.withFetchWord`) -/

/-- A complete code over the 19 code-length symbols: 13 of length 4, then 6 of length 5 (R150: `13/16 + 6/32 = 1`). -/
def placedCL : Table := ⟨List.replicate 13 4 ++ List.replicate 6 5⟩

/-- The mode that reads a format (R29). -/
def modeOf : Format → Mode
  | .hdr3 => .header
  | .stored32 => .storedLen
  | .storedData => .storedCopy
  | .dynhdr14 => .dynCounts
  | .clc3 => .dynClc
  | .clsym => .dynLens
  | .clExtra16 | .clExtra17 | .clExtra18 => .dynRepeat
  | .llsym => .llSym
  | .lenExtra _ => .lenExtra
  | .dsym => .distSym
  | .distExtra _ => .distExtra

/-- The registers that every path into a format's mode writes (R44), at values of such a path: a non-final block, a
fixed table, the shortest match, one code length decoded of the smallest dynamic header. -/
def placedScratch (f : Format) (r : Scratch) : Scratch :=
  match f with
  | .hdr3 => r
  | .stored32 | .dynhdr14 => { r with last := .put false }
  | .storedData => { r with last := .put false, storedRemain := .put 2 }
  | .clc3 => { r with
      last := .put false, hlit := .put 257, hdist := .put 1, hclen := .put 4
      clcIndex := .put 0, clcLens := .put (Vector.replicate 19 0) }
  | .clsym | .clExtra16 | .clExtra17 | .clExtra18 => { r with
      last := .put false, hlit := .put 257, hdist := .put 1, hclen := .put 4, tblCL := .put placedCL
      lens := .put (Vector.replicate 316 0), lensIndex := .put 1
      repSym := .put (match f with | .clExtra16 => 16 | .clExtra17 => 17 | _ => 18) }
  | .llsym => { r with last := .put false, tableSel := .put .fixed }
  | .lenExtra n => { r with
      last := .put false, tableSel := .put .fixed, length := .put (BitVec.ofNat 9 (lbase (261 + 4 * n)))
      sym := .put (BitVec.ofNat 9 (261 + 4 * n)) }
  | .dsym => { r with last := .put false, tableSel := .put .fixed, length := .put 3 }
  | .distExtra n => { r with
      last := .put false, tableSel := .put .fixed, length := .put 3
      dist := .put (BitVec.ofNat 16 (dbase (2 + 2 * n))), sym := .put (BitVec.ofNat 9 (2 + 2 * n)) }

/-- The word of an element as the whole of the offered input, with the machine inside a DECODE at its mode. -/
def placeElement (f : Format) (v : Nat) (s : State) : State :=
  let bits := valueBits ⟨placedCL, fixedLL, fixedD⟩ f v
  let nbytes := (bits.length + 7) / 8
  { s with
    constructed := true
    running := true
    mode := modeOf f
    acc := ⟨0, 0⟩
    inMem := .ofBytes (packBytes nbytes bits)
    cur := { s.cur with
      nextIn := 0
      availIn := nbytes
      availOut := if f = .storedData then 1 else s.cur.availOut }
    scratch := placedScratch f s.scratch }

/-- A word placed so that the very next step fetches and runs it (log entry 9). A command becomes the oldest pending
one of an idle machine, after an INIT where the command is not INIT itself. -/
def placeWord (w : InstrWord) (s : State) : State :=
  match w with
  | .field f v => placeElement f v s
  | .noMatch f => placeElement f 0 s
  | .host p => { s with
      constructed := s.constructed || p.code != 0
      running := false
      pending := p :: s.pending }

end Sys2Proof.Machine
end

