-- ==== Sys2Proof/Machine/Dispatch.lean ====
section
/-! DEFINITION. Dispatch: one arm for each instruction of `spec/opcode_table.json`, each a direct call of its meaning. -/

namespace Sys2Proof.Machine

def exec (i : Instr) (s : State) : Host.Outcome State Fault Refusal :=
  match i with
  | .blockStored last => Sys2Proof.Machine.execBlockStored last s
  | .blockFixed last => Sys2Proof.Machine.execBlockFixed last s
  | .blockDynamic last => Sys2Proof.Machine.execBlockDynamic last s
  | .blockReserved last => Sys2Proof.Machine.execBlockReserved last s
  | .storedLen len nlen => Sys2Proof.Machine.execStoredLen len nlen s
  | .storedData b => Sys2Proof.Machine.execStoredData b s
  | .dynHeader hlit5 hdist5 hclen4 => Sys2Proof.Machine.execDynHeader hlit5 hdist5 hclen4 s
  | .dynHeaderTooManyHlit hlit5 hdist5 hclen4 => Sys2Proof.Machine.execDynHeaderTooManyHlit hlit5 hdist5 hclen4 s
  | .dynHeaderTooManyHdist hlit5 hdist5 hclen4 => Sys2Proof.Machine.execDynHeaderTooManyHdist hlit5 hdist5 hclen4 s
  | .clcEntry len => Sys2Proof.Machine.execClcEntry len s
  | .clLen len => Sys2Proof.Machine.execClLen len s
  | .clRepeatPrev => Sys2Proof.Machine.execClRepeatPrev s
  | .clRepeatZeroShort => Sys2Proof.Machine.execClRepeatZeroShort s
  | .clRepeatZeroLong => Sys2Proof.Machine.execClRepeatZeroLong s
  | .cl16Extra x => Sys2Proof.Machine.execCl16Extra x s
  | .cl17Extra x => Sys2Proof.Machine.execCl17Extra x s
  | .cl18Extra x => Sys2Proof.Machine.execCl18Extra x s
  | .lit b => Sys2Proof.Machine.execLit b s
  | .eob => Sys2Proof.Machine.execEob s
  | .len257 => Sys2Proof.Machine.execLen257 s
  | .len258 => Sys2Proof.Machine.execLen258 s
  | .len259 => Sys2Proof.Machine.execLen259 s
  | .len260 => Sys2Proof.Machine.execLen260 s
  | .len261 => Sys2Proof.Machine.execLen261 s
  | .len262 => Sys2Proof.Machine.execLen262 s
  | .len263 => Sys2Proof.Machine.execLen263 s
  | .len264 => Sys2Proof.Machine.execLen264 s
  | .len265 => Sys2Proof.Machine.execLen265 s
  | .len266 => Sys2Proof.Machine.execLen266 s
  | .len267 => Sys2Proof.Machine.execLen267 s
  | .len268 => Sys2Proof.Machine.execLen268 s
  | .len269 => Sys2Proof.Machine.execLen269 s
  | .len270 => Sys2Proof.Machine.execLen270 s
  | .len271 => Sys2Proof.Machine.execLen271 s
  | .len272 => Sys2Proof.Machine.execLen272 s
  | .len273 => Sys2Proof.Machine.execLen273 s
  | .len274 => Sys2Proof.Machine.execLen274 s
  | .len275 => Sys2Proof.Machine.execLen275 s
  | .len276 => Sys2Proof.Machine.execLen276 s
  | .len277 => Sys2Proof.Machine.execLen277 s
  | .len278 => Sys2Proof.Machine.execLen278 s
  | .len279 => Sys2Proof.Machine.execLen279 s
  | .len280 => Sys2Proof.Machine.execLen280 s
  | .len281 => Sys2Proof.Machine.execLen281 s
  | .len282 => Sys2Proof.Machine.execLen282 s
  | .len283 => Sys2Proof.Machine.execLen283 s
  | .len284 => Sys2Proof.Machine.execLen284 s
  | .len285 => Sys2Proof.Machine.execLen285 s
  | .llInvalid286 => Sys2Proof.Machine.execLlInvalid286 s
  | .llInvalid287 => Sys2Proof.Machine.execLlInvalid287 s
  | .llNoMatch => Sys2Proof.Machine.execLlNoMatch s
  | .lenExtra n x => Sys2Proof.Machine.execLenExtra n x s
  | .dist0 => Sys2Proof.Machine.execDist0 s
  | .dist1 => Sys2Proof.Machine.execDist1 s
  | .dist2 => Sys2Proof.Machine.execDist2 s
  | .dist3 => Sys2Proof.Machine.execDist3 s
  | .dist4 => Sys2Proof.Machine.execDist4 s
  | .dist5 => Sys2Proof.Machine.execDist5 s
  | .dist6 => Sys2Proof.Machine.execDist6 s
  | .dist7 => Sys2Proof.Machine.execDist7 s
  | .dist8 => Sys2Proof.Machine.execDist8 s
  | .dist9 => Sys2Proof.Machine.execDist9 s
  | .dist10 => Sys2Proof.Machine.execDist10 s
  | .dist11 => Sys2Proof.Machine.execDist11 s
  | .dist12 => Sys2Proof.Machine.execDist12 s
  | .dist13 => Sys2Proof.Machine.execDist13 s
  | .dist14 => Sys2Proof.Machine.execDist14 s
  | .dist15 => Sys2Proof.Machine.execDist15 s
  | .dist16 => Sys2Proof.Machine.execDist16 s
  | .dist17 => Sys2Proof.Machine.execDist17 s
  | .dist18 => Sys2Proof.Machine.execDist18 s
  | .dist19 => Sys2Proof.Machine.execDist19 s
  | .dist20 => Sys2Proof.Machine.execDist20 s
  | .dist21 => Sys2Proof.Machine.execDist21 s
  | .dist22 => Sys2Proof.Machine.execDist22 s
  | .dist23 => Sys2Proof.Machine.execDist23 s
  | .dist24 => Sys2Proof.Machine.execDist24 s
  | .dist25 => Sys2Proof.Machine.execDist25 s
  | .dist26 => Sys2Proof.Machine.execDist26 s
  | .dist27 => Sys2Proof.Machine.execDist27 s
  | .dist28 => Sys2Proof.Machine.execDist28 s
  | .dist29 => Sys2Proof.Machine.execDist29 s
  | .dInvalid30 => Sys2Proof.Machine.execDInvalid30 s
  | .dInvalid31 => Sys2Proof.Machine.execDInvalid31 s
  | .dNoMatch => Sys2Proof.Machine.execDNoMatch s
  | .distExtra n x => Sys2Proof.Machine.execDistExtra n x s
  | .clNoMatch => Sys2Proof.Machine.execClNoMatch s
  | .init wb => Sys2Proof.Machine.execInit wb s
  | .reset keep => Sys2Proof.Machine.execReset keep s
  | .decode args => Sys2Proof.Machine.execDecode args s
  | .hostcmdReserved code => Sys2Proof.Machine.execHostcmdReserved code s

end Sys2Proof.Machine
end

