-- ==== Sys2Proof/Machine/Run.lean ====
section
/-! DEFINITION. Run: what one step does, inside a DECODE (the step rule of the current `MODE`, R10, R29, R273) and
between commands. `Step.lean` chooses between the two. -/

namespace Sys2Proof.Machine

/-- Decode a word and run its instruction. -/
def runWord (w : InstrWord) (s : State) : Result :=
  match decode w with
  | .ok i => exec i s
  | .error e => .refused (.undecodable e)

/-- Run what was fetched: an element's instruction once its bits are consumed, or the suspension of the DECODE. -/
def runFetched : Fetched → Result
  | .word w s => runWord w s
  | .suspend s => suspend s
  | .stop f => .fault f

/-- One step inside a DECODE (R273): the step rule of `MODE` (R29). No DECODE is in progress in `DONE` or `ERROR`;
a state that says so returns at once, as R274 has it. -/
def stepRunning (s : State) : Result :=
  match s.mode with
  | .litEmit => stepLitEmit s
  | .copy => stepCopy s
  | .done | .error => enterDecode s
  | .header | .storedLen | .storedCopy | .dynCounts | .dynClc | .dynLens | .dynRepeat | .llSym | .lenExtra
  | .distSym | .distExtra => runFetched (fetch s)

/-- One step between commands: the oldest pending command is taken and run; with none the state is frozen. -/
def stepIdle (s : State) : Result :=
  match s.pending with
  | [] => .next s
  | p :: rest => runWord (.host p) { s with pending := rest }

end Sys2Proof.Machine
end

