-- ==== Sys2Proof/Machine/Step.lean ====
section
/-! DEFINITION. Step: one step of the machine. Inside a DECODE a step is one execution of the rule of the current `MODE`
(R10, R273); between commands the machine is idle, and a step takes the oldest command the host has sent. -/

namespace Sys2Proof.Machine

/-- One step of the machine. -/
def step (s : State) : Host.Outcome State Fault Refusal :=
  if s.running then stepRunning s else stepIdle s

/-- A state in which the very next step fetches and runs the instruction of a table word (log entry 9); the same state
where the word is none. -/
def State.withFetchWord (s : State) (nbits w : Nat) : State :=
  match tableInstrWord nbits w with
  | some word => placeWord word s
  | none => s

end Sys2Proof.Machine
end

