-- ==== Sys2Proof/Machine/Notation.lean ====
section
/-! DEFINITION. Notation: the elements that the stream notation of `30_encoding.md` R111 stands for: `LEN`, `DIST`, and
the pseudo-elements `MATCH` and `BYTES`. The notation names a length or a distance; its symbol and extra bits are
the ones R111 says. -/

namespace Sys2Proof.Machine

/-- The symbol of `LEN l` (R111): the unique one in 257..285 whose range contains `l`, and 285 for 258. -/
def lengthSymbolOf (l : Nat) : Option Nat :=
  (List.range' 257 29).find? fun s => lbase s ≤ l && l < lbase s + 2 ^ lextra s && (l != 258 || s == 285)

/-- The symbol of `DIST d` (R111): the unique one in 0..29 whose range contains `d`. -/
def distSymbolOf (d : Nat) : Option Nat :=
  (List.range 30).find? fun s => dbase s ≤ d && d < dbase s + 2 ^ dextra s

/-- The words of an extra-bit field: none where the field has no bits (R91). -/
def extraWords (f : Format) (x : Nat) : List InstrWord := if f.width = 0 then [] else [.field f x]

/-- `LEN l` (R111): LLSYM and LEN_EXTRA; nothing for a length outside 3..258. -/
def lenWords (l : Nat) : List InstrWord :=
  match lengthSymbolOf l with
  | some s => .field .llsym s :: extraWords (.lenExtra (lextra s)) (l - lbase s)
  | none => []

/-- `DIST d` (R111): DSYM and D_EXTRA; nothing for a distance outside 1..32768. -/
def distWords (d : Nat) : List InstrWord :=
  match distSymbolOf d with
  | some s => .field .dsym s :: extraWords (.distExtra (dextra s)) (d - dbase s)
  | none => []

/-- `MATCH len=l dist=d` (R111): `LEN l`, then `DIST d`. -/
def matchWords (l d : Nat) : List InstrWord := lenWords l ++ distWords d

/-- `BYTES "<s>"` (R111): a sequence of `LIT` elements. -/
def bytesWords (bs : List Byte) : List InstrWord := bs.map fun b => .field .llsym b.toNat

/-- The stream bits of a word, in the tables of its block; a command and an INVALID have none. -/
def wordBits (T : Tables) : InstrWord → List Bool
  | .field f v => valueBits T f v
  | .noMatch _ | .host _ => []

/-- The bytes of a sequence of words with no stored block among them, padded with zero bits (R90). -/
def streamBytes (T : Tables) (ws : List InstrWord) : List Byte :=
  let bits := ws.flatMap (wordBits T)
  packBytes ((bits.length + 7) / 8) bits

end Sys2Proof.Machine
end

