-- ==== Sys2Proof/Safety.lean ====
section
/-! DEFINITION. Safety: what the rules say of every state the machine reaches (the invariant `State.Inv`), and the
words the claims use for the stream, for what a DECODE has consumed and for how many steps it can take. -/

namespace Sys2Proof.Machine

/-! ### The invariant, part by part -/

/-- A table register that a run has written holds a table BUILD accepted (R40, R159). -/
def acceptedTable (kind : TreeKind) (T : Table) : Prop := build kind T.len = .ok T

/-- The counts of a dynamic header that passed the check of R200: 257..286 and 1..30. -/
def countsOk (r : Scratch) : Prop :=
  r.hlit.written ∧ r.hdist.written ∧ 257 ≤ r.hlit.val.toNat ∧ r.hlit.val.toNat ≤ 286 ∧
    1 ≤ r.hdist.val.toNat ∧ r.hdist.val.toNat ≤ 30

/-- What holds while code lengths are decoded (R202, R203): the tables and arrays are written, and a length is still
missing (`LENS_INDEX < HLIT + HDIST`). -/
def lensOk (r : Scratch) : Prop :=
  r.last.written ∧ countsOk r ∧
    (r.tblCL.written ∧ acceptedTable .cl r.tblCL.val ∧ r.tblCL.val.len.length = 19) ∧
    r.lens.written ∧ r.lensIndex.written ∧
    r.lensIndex.val.toNat < r.hlit.val.toNat + r.hdist.val.toNat

/-- What holds in the symbol loop (R182, R207): `LAST` and `TABLESEL` are written, and a dynamic block's two tables
are built, with at most 286 and 30 symbols. -/
def symbolsOk (r : Scratch) : Prop :=
  r.last.written ∧ r.tableSel.written ∧
    (r.tableSel.val = .dynamic →
      (r.tblLL.written ∧ acceptedTable .ll r.tblLL.val ∧ r.tblLL.val.len.length ≤ 286) ∧
        r.tblD.written ∧ acceptedTable .d r.tblD.val ∧ r.tblD.val.len.length ≤ 30)

/-- A complete match length, 3..258 (R39). -/
def lengthOk (r : Scratch) : Prop :=
  r.length.written ∧ 3 ≤ r.length.val.toNat ∧ r.length.val.toNat ≤ 258

/-- R44: each mode's rule reads only registers that every path into the mode writes; and the values they hold
(R33 to R39). -/
def State.regsOk (s : State) : Prop :=
  let r := s.scratch
  match s.mode with
  | .header | .done | .error => True
  | .storedLen | .dynCounts => r.last.written
  | .storedCopy => r.last.written ∧ r.storedRemain.written ∧ r.storedRemain.val ≠ 0
  | .dynClc => r.last.written ∧ countsOk r ∧
      (r.hclen.written ∧ 4 ≤ r.hclen.val.toNat ∧ r.hclen.val.toNat ≤ 19) ∧
      r.clcLens.written ∧ r.clcIndex.written ∧ r.clcIndex.val.toNat < r.hclen.val.toNat
  | .dynLens => lensOk r
  | .dynRepeat => lensOk r ∧ r.repSym.written ∧
      (r.repSym.val = 16 ∨ r.repSym.val = 17 ∨ r.repSym.val = 18) ∧
      (r.repSym.val = 16 → r.lensIndex.val ≠ 0)
  | .llSym => symbolsOk r
  | .litEmit => symbolsOk r ∧ r.litVal.written
  | .lenExtra => symbolsOk r ∧ r.sym.written ∧ isLengthSymbol r.sym.val.toNat ∧
      0 < lextra r.sym.val.toNat ∧ r.length.written ∧ r.length.val.toNat = lbase r.sym.val.toNat
  | .distSym => symbolsOk r ∧ lengthOk r
  | .distExtra => symbolsOk r ∧ lengthOk r ∧ r.sym.written ∧ isDistSymbol r.sym.val.toNat ∧
      0 < dextra r.sym.val.toNat ∧ r.dist.written ∧ r.dist.val.toNat = dbase r.sym.val.toNat
  | .copy => symbolsOk r ∧ r.dist.written ∧ 1 ≤ r.dist.val.toNat ∧ r.dist.val.toNat ≤ s.win.size ∧
      r.copyRemain.written ∧ 1 ≤ r.copyRemain.val.toNat ∧ r.copyRemain.val.toNat ≤ 258

/-- The table a symbol mode decodes with (R203, R230, R237). -/
def State.symbolTable (s : State) : Table :=
  match s.mode with
  | .dynLens => s.scratch.tblCL.val
  | .distSym => if s.scratch.tableSel.val = .dynamic then s.scratch.tblD.val else fixedD
  | .llSym => if s.scratch.tableSel.val = .dynamic then s.scratch.tblLL.val else fixedLL
  | .header | .storedLen | .storedCopy | .dynCounts | .dynClc | .dynRepeat | .litEmit | .lenExtra
  | .distExtra | .copy | .done | .error => fixedLL

/-- How many bits the accumulator can hold between two steps, by mode (R137): at most 7 at an element boundary, and
less than the element's width after a suspension inside one. Where a symbol is next, more than 7 bits are held only
if they do not begin with a codeword. -/
def State.heldOk (s : State) : Prop :=
  let n := s.acc.cnt.toNat
  match s.mode with
  | .header | .dynClc | .dynRepeat | .lenExtra | .litEmit | .copy | .done => n ≤ 7
  | .storedLen => n % 8 = 0 ∧ n ≤ 24
  | .storedCopy => n = 0
  | .dynCounts => n ≤ 13
  | .distExtra => n ≤ 7 ∨ n < dextra s.scratch.sym.val.toNat
  | .dynLens | .llSym | .distSym =>
    n ≤ 7 ∨ (n < s.symbolTable.maxlen ∧ s.symbolTable.matchHeld s.acc = none)
  | .error => n ≤ 32

/-- The accumulator (R30): the bits of `BITBUF` at and above `BITCNT` are zero, and `BITCNT` is in its range. -/
def State.accOk (s : State) : Prop :=
  s.acc.buf < 2 ^ s.acc.cnt.toNat ∧ s.heldOk

/-- The window (R41, R67, R69): canonical, inside its capacity, and every byte up to `WIN_SIZE` back has a value. -/
def Window.ok (w : Window) : Prop :=
  Memory.wf w.mem ∧ (∀ c ∈ w.mem, c.1 < w.capacity) ∧ w.cursor < w.capacity ∧ w.size ≤ w.capacity ∧
    ∀ d, 1 ≤ d → d ≤ w.size → (Memory.read w.mem (w.backIndex d)).isSome

/-- While a DECODE is in progress, every byte still offered is there (R61, R272). -/
def State.inputOk (s : State) : Prop :=
  s.running → ∀ k, k < s.cur.availIn →
    (Memory.read s.inMem (advance s.params s.cur.nextIn k)).isSome

/-- `STATUS` and `MODE` agree (R282, R302, R303): `END_OF_STREAM` in `DONE`, a fault code in `ERROR`, `OK` in every
other mode; and no DECODE is in progress in the two terminal modes or before the first INIT (R273, R330). -/
def State.statusOk (s : State) : Prop :=
  (s.running → s.constructed ∧ s.mode ≠ .done ∧ s.mode ≠ .error) ∧
    match s.mode with
    | .done => s.status = .endOfStream
    | .error => ∃ e, s.status = .fault e
    | .header | .storedLen | .storedCopy | .dynCounts | .dynClc | .dynLens | .dynRepeat | .llSym | .litEmit
    | .lenExtra | .distSym | .distExtra | .copy => s.status = .ok

/-- Every cursor fits its register, `CURSOR_BITS` wide (R7, R22). -/
def State.cursorsOk (s : State) : Prop :=
  s.cur.nextIn < 2 ^ s.params.cursorBits ∧ s.cur.availIn < 2 ^ s.params.cursorBits ∧
    s.cur.totalIn < 2 ^ s.params.cursorBits ∧ s.cur.nextOut < 2 ^ s.params.cursorBits ∧
    s.cur.availOut < 2 ^ s.params.cursorBits ∧ s.cur.totalOut < 2 ^ s.params.cursorBits

/-- The invariant of the machine. -/
structure State.Inv (s : State) : Prop where
  inMem : Memory.wf s.inMem
  outMem : Memory.wf s.outMem
  win : s.win.ok
  acc : s.accOk
  regs : s.regsOk
  input : s.inputOk
  status : s.statusOk
  cursors : s.cursorsOk

/-! ### Elements and commands -/

/-- Whether an instruction is an element of the stream and not a host command (R3). -/
def isElement (i : Instr) : Bool :=
  match encode i with
  | .field _ _ | .noMatch _ => true
  | .host _ => false

/-! ### The stream as the machine sees it -/

/-- The bits the accumulator holds, the next stream bit first (R30). -/
def State.heldBits (s : State) : List Bool := fieldBits s.acc.cnt.toNat s.acc.buf

/-- The bytes still offered, `IN[NEXT_IN ..]`, the next first (R23). An absent byte stands as 0; where `inputOk`
holds in a DECODE there is none. -/
def State.offeredBytes (s : State) : List Byte :=
  (List.range s.cur.availIn).map fun k =>
    (Memory.read s.inMem (advance s.params s.cur.nextIn k)).getD 0

/-- The stream bits not yet consumed: those held, then those of the offered bytes, each from its bit 0 up (R63). -/
def State.upcoming (s : State) : List Bool :=
  s.heldBits ++ s.offeredBytes.flatMap fun b => fieldBits 8 b.toNat

/-- The fixed-width field that comes next, where the mode reads one (R91, R110); its width is fixed by `MODE` and the
scratch registers. -/
def State.fieldFormat (s : State) : Option Format :=
  match s.mode with
  | .header => some .hdr3
  | .storedLen => some .stored32
  | .dynCounts => some .dynhdr14
  | .dynClc => some .clc3
  | .dynRepeat =>
    if s.scratch.repSym.val = 16 then some .clExtra16
    else if s.scratch.repSym.val = 17 then some .clExtra17 else some .clExtra18
  | .lenExtra => some (.lenExtra (lextra s.scratch.sym.val.toNat))
  | .distExtra => some (.distExtra (dextra s.scratch.sym.val.toNat))
  | .storedCopy | .dynLens | .llSym | .distSym | .litEmit | .copy | .done | .error => none

/-- The symbol alphabet whose codeword comes next, where the mode reads one (R92). -/
def State.symbolFormat (s : State) : Option Format :=
  match s.mode with
  | .dynLens => some .clsym
  | .llSym => some .llsym
  | .distSym => some .dsym
  | .header | .storedLen | .storedCopy | .dynCounts | .dynClc | .dynRepeat | .litEmit | .lenExtra | .distExtra
  | .copy | .done | .error => none

/-- `t` is `s` but for the accumulator and the three input cursors: all that pulling and reading write (R130 to
R134). -/
def State.readsTo (s t : State) : Prop :=
  t = { s with
    acc := t.acc
    cur := { s.cur with nextIn := t.cur.nextIn, availIn := t.cur.availIn, totalIn := t.cur.totalIn } }

/-- The state after `k` bytes are pulled (R130), where they are there. -/
def State.pulled : Nat → State → State
  | 0, s => s
  | k + 1, s =>
    match pull s with
    | .ok s' => State.pulled k s'
    | .error _ => s

/-- The most steps the DECODE in progress can still take before it ends (R278). -/
def State.workLeft (s : State) : Nat :=
  8 * s.cur.availIn + s.acc.cnt.toNat + s.cur.availOut

/-- Steps until the DECODE in progress has ended, at most `k` of them: the state at its return (R273). -/
def runDecode : Nat → State → Result
  | 0, s => .next s
  | k + 1, s =>
    if s.running then
      match step s with
      | .next t => runDecode k t
      | .fault f => .fault f
      | .refused r => .refused r
    else .next s

/-- No scratch register and no built table has a value (R44, R45). -/
def noScratchValue (r : Scratch) : Prop :=
  r.last.written = false ∧ r.tableSel.written = false ∧ r.storedRemain.written = false ∧
    r.hlit.written = false ∧ r.hdist.written = false ∧ r.hclen.written = false ∧
    r.clcLens.written = false ∧ r.clcIndex.written = false ∧ r.lens.written = false ∧
    r.lensIndex.written = false ∧ r.repSym.written = false ∧ r.litVal.written = false ∧
    r.sym.written = false ∧ r.length.written = false ∧ r.dist.written = false ∧
    r.copyRemain.written = false ∧ r.tblCL.written = false ∧ r.tblLL.written = false ∧
    r.tblD.written = false

/-- The state with `m` more bytes of the same input region and `p` more bytes of the same output region offered
(R279). -/
def State.offerMore (m p : Nat) (s : State) : State :=
  { s with cur := { s.cur with availIn := s.cur.availIn + m, availOut := s.cur.availOut + p } }

/-- A suspended DECODE taken up again (R189, R243): the next DECODE resumes where the last one stopped. -/
def State.resume (s : State) : State := { s with running := true }

end Sys2Proof.Machine
end

