-- ==== Sys2Proof/Certificates/Slice0/Obligations.lean ====
section
/-! DEFINITION. Obligations: the statements for the provers. Each formalises the rule of spec/ that its docstring names.
A statement of an instruction's result is an equation for the whole next state, so it also says what the instruction
leaves unchanged. -/

section

open Sys2Proof Sys2Proof.Machine

/-! ### Encoding -/

/-- A word of every format, written out from the encodings of `30_encoding.md`, decodes to the instruction it stands
for (R93, R94, R96, R97, R98, R99, R100, R280). -/
def Obligations.WordsDecode : Prop :=
  decode (.field .hdr3 0b001) = .ok (.blockStored true) ∧
  decode (.field .hdr3 0b010) = .ok (.blockFixed false) ∧
  decode (.field .hdr3 0b101) = .ok (.blockDynamic true) ∧
  decode (.field .hdr3 0b111) = .ok (.blockReserved true) ∧
  decode (.field .stored32 0xFFFA0005) = .ok (.storedLen 0x0005 0xFFFA) ∧
  decode (.field .storedData 0x68) = .ok (.storedData 0x68) ∧
  decode (.field .dynhdr14 0x3860) = .ok (.dynHeader 0 3 14) ∧
  decode (.field .dynhdr14 0b00000000011110) = .ok (.dynHeaderTooManyHlit 30 0 0) ∧
  decode (.field .dynhdr14 0b00001111100000) = .ok (.dynHeaderTooManyHdist 0 31 0) ∧
  decode (.field .clc3 0b101) = .ok (.clcEntry 5) ∧
  decode (.field .clsym 15) = .ok (.clLen 15) ∧
  decode (.field .clsym 16) = .ok .clRepeatPrev ∧
  decode (.field .clExtra16 0b11) = .ok (.cl16Extra 3) ∧
  decode (.field .clExtra17 0b111) = .ok (.cl17Extra 7) ∧
  decode (.field .clExtra18 0b1111111) = .ok (.cl18Extra 127) ∧
  decode (.field .llsym 255) = .ok (.lit 0xFF) ∧
  decode (.field .llsym 256) = .ok .eob ∧
  decode (.field .llsym 285) = .ok .len285 ∧
  decode (.field .llsym 287) = .ok .llInvalid287 ∧
  decode (.field (.lenExtra 5) 0b11111) = .ok (.lenExtra 5 31) ∧
  decode (.field .dsym 29) = .ok .dist29 ∧
  decode (.field .dsym 30) = .ok .dInvalid30 ∧
  decode (.field (.distExtra 13) 8191) = .ok (.distExtra 13 8191) ∧
  decode (.noMatch .clsym) = .ok .clNoMatch ∧
  decode (.host ⟨0, 15, false, DecodeArgs.none⟩) = .ok (.init 15) ∧
  decode (.host ⟨3, 0, false, DecodeArgs.none⟩) = .ok (.hostcmdReserved 3)

/-- The decoder takes the encoding of every well-formed instruction, of every family and with every operand, back to
that instruction (R93 to R100, R107, R280). -/
def Obligations.DecodeEncode : Prop :=
  ∀ i : Instr, i.wf = true → decode (encode i) = .ok i

/-- A word of the stream has one meaning: an element that the decoder reads from a word is well formed, and the word
is its encoding, so no bit of the word is dropped (R93 to R100, R109). -/
def Obligations.EncodeDecode : Prop :=
  ∀ (w : InstrWord) (i : Instr), decode w = .ok i →
    i.wf = true ∧ (isElement i = true → encode i = w) ∧ (isElement i = false → ∃ p, w = .host p)

/-- Exactly the values that `30_encoding.md` gives a meaning are decoded: a value that fits its format and, in a symbol
format, is a symbol of the alphabet (R98, R99, R100, R108), and no extra-bit field wider than its alphabet's widest. -/
def Obligations.DecodableWords : Prop :=
  ∀ (f : Format) (v : Nat), (∃ i, decode (.field f v) = .ok i) ↔ v < 2 ^ f.width ∧
    (f = .clsym → v ≤ 18) ∧ (f = .llsym → v ≤ 287) ∧
    (∀ n, f = .lenExtra n → n ≤ 5) ∧ (∀ n, f = .distExtra n → n ≤ 13)

/-- The tables of `30_encoding.md`: `CLC_ORDER` (R97), the base lengths and extra-bit counts (R99), the base distances
and extra-bit counts (R100). In each alphabet the ranges of consecutive symbols follow each other without a gap, except
that the range of 284 also holds 258 (R112), and they end at 258 and at 32768. -/
def Obligations.OperandTables : Prop :=
  clcOrder = [16, 17, 18, 0, 8, 7, 9, 6, 10, 5, 11, 4, 12, 3, 13, 2, 14, 1, 15] ∧
  (lbase 257 = 3 ∧ lextra 257 = 0) ∧
  (∀ s, 257 ≤ s → s < 284 → lbase (s + 1) = lbase s + 2 ^ lextra s) ∧
  (∀ s, 257 ≤ s → s ≤ 285 → lextra s = if s = 285 ∨ s < 261 then 0 else (s - 261) / 4) ∧
  lbase 284 + 2 ^ lextra 284 - 1 = 258 ∧ lbase 285 = 258 ∧
  (dbase 0 = 1 ∧ dextra 0 = 0) ∧
  (∀ s, s < 29 → dbase (s + 1) = dbase s + 2 ^ dextra s) ∧
  (∀ s, s ≤ 29 → dextra s = s / 2 - 1) ∧
  dbase 29 + 2 ^ dextra 29 - 1 = 32768

/-- The fixed tables have the codewords of R101 and R102, symbol by symbol. -/
def Obligations.FixedCodes : Prop :=
  (∀ s, s < 288 → fixedLL.codes[s]? = some (
    if s < 144 then (8, 0x30 + s)
    else if s < 256 then (9, 0x190 + (s - 144))
    else if s < 280 then (7, s - 256)
    else (8, 0xC0 + (s - 280)))) ∧
  fixedLL.codes.length = 288 ∧
  (∀ s, s < 32 → fixedD.codes[s]? = some (5, s)) ∧ fixedD.codes.length = 32 ∧
  build .ll fixedLL.len = .ok fixedLL ∧ build .d fixedD.len = .ok fixedD

/-! ### Host commands -/

/-- Power-on (R330): nothing is constructed and no DECODE is in progress. The registers that R45 gives a value after INIT
hold that value. The rest is the model's choice: the widths are the reference values of R7 (log entry 1), the four cursors
of the host are 0 (log entry 2), `WINDOW_BITS` is 15 (log entry 4), and no scratch register has a value (log entry 3), no
byte of the window and none of the regions. The invariant that every step keeps (`StepKeepsInvariant`) holds. -/
def Obligations.PowerOn : Prop :=
  State.reset.constructed = false ∧ State.reset.running = false ∧ State.reset.pending = [] ∧
  State.reset.mode = .header ∧ State.reset.status.code = 0 ∧ State.reset.acc = ⟨0, 0⟩ ∧
  State.reset.cur = ⟨0, 0, 0, 0, 0, 0⟩ ∧ noScratchValue State.reset.scratch ∧
  State.reset.win.windowBits = 15 ∧ State.reset.win.capacity = 32768 ∧
  State.reset.win.mem = [] ∧ State.reset.win.size = 0 ∧ State.reset.win.cursor = 0 ∧
  State.reset.inMem = [] ∧ State.reset.outMem = [] ∧
  State.reset.params.cursorBits = 64 ∧ State.reset.params.accBits = 32 ∧ State.reset.Inv

/-- INIT (R270): a `wb` of 0..15 builds a session with a cleared window of `2^wb` bytes, at `HEADER` with `STATUS = OK`,
an empty accumulator, zero totals and no scratch register with a value, whatever the state before, `ERROR` included. A
`wb` above 15 is refused. -/
def Obligations.InitBuildsSession : Prop :=
  (∀ (wb : Nat) (s : State), wb ≤ 15 → ∃ t, exec (.init wb) s = .next t ∧
    t.constructed = true ∧ t.running = false ∧
    t.win.windowBits.toNat = wb ∧ t.win.capacity = 2 ^ wb ∧ t.win.mem = [] ∧ t.win.size = 0 ∧ t.win.cursor = 0 ∧
    t.acc = ⟨0, 0⟩ ∧ t.cur.totalIn = 0 ∧ t.cur.totalOut = 0 ∧ t.mode = .header ∧ t.status = .ok ∧
    noScratchValue t.scratch ∧ t.pending = s.pending ∧ t.inMem = s.inMem ∧ t.outMem = s.outMem ∧
    t.params = s.params) ∧
  ∀ (wb : Nat) (s : State), 15 < wb → exec (.init wb) s = .refused (.windowBitsTooLarge wb)

/-- RESET (R271): a fresh stream in the same session. The accumulator and the totals are cleared, the machine stands at
`HEADER` with `STATUS = OK` and no scratch register has a value; the window is kept or cleared as `keep` says, and
`WINDOW_BITS` and the four cursors of the host are unchanged. -/
def Obligations.ResetStartsFreshStream : Prop :=
  ∀ (keep : Bool) (s : State), s.constructed = true → ∃ r, noScratchValue r ∧
    exec (.reset keep) s = .next { s with
      running := false
      acc := ⟨0, 0⟩
      cur := { s.cur with totalIn := 0, totalOut := 0 }
      mode := .header
      status := .ok
      scratch := r
      win := if keep then s.win else { s.win with mem := [], size := 0, cursor := 0 } }

/-- The three host commands are numbered 0, 1 and 2, and a command with any other code is refused (R280). -/
def Obligations.CommandCodes : Prop :=
  ∀ (p : HostPacket) (s : State),
    (p.code = 0 → decode (.host p) = .ok (.init p.wb)) ∧
    (p.code = 1 → decode (.host p) = .ok (.reset p.keep)) ∧
    (p.code = 2 → decode (.host p) = .ok (.decode p.args)) ∧
    (3 ≤ p.code.toNat → decode (.host p) = .ok (.hostcmdReserved p.code) ∧
      exec (.hostcmdReserved p.code) s = .refused (.reservedCommand p.code))

/-- DECODE (R272, R273): with regions that hold the offered bytes and offered ranges with no byte in common, in a mode
that is not terminal, the host's cursors and regions are taken and the loop of steps begins, with nothing else changed.
The model's own part: that the loop is one step of the model at a time (log entry 10), that a register takes the low
`CURSOR_BITS` bits of what the host sends (log entry 8), how a common byte is told (log entry 7), and that the ranges of
the two premises are not wrapped at `2^CURSOR_BITS` (log entry 20). -/
def Obligations.DecodeStartsLoop : Prop :=
  ∀ (a : DecodeArgs) (s : State), s.constructed = true →
    let b := receivedArgs s.params a
    regionsHold b →
    (¬ ∃ i j : Nat, i < b.availIn ∧ j < b.availOut ∧
      b.inRegion.base + b.nextIn + i = b.outRegion.base + b.nextOut + j) →
    s.mode ≠ .done → s.mode ≠ .error →
    exec (.decode a) s = .next { s with
      running := true
      cur := { s.cur with
        nextIn := a.nextIn % 2 ^ s.params.cursorBits
        availIn := a.availIn % 2 ^ s.params.cursorBits
        nextOut := a.nextOut % 2 ^ s.params.cursorBits
        availOut := a.availOut % 2 ^ s.params.cursorBits }
      inMem := Memory.ofBytes a.inRegion.bytes
      outMem := Memory.ofBytes a.outRegion.bytes }

/-- A DECODE in a terminal mode changes nothing but `STATUS` (R274), once the host has written its cursors and regions
(`offer`): in `DONE` it sets `END_OF_STREAM` and returns, in `ERROR` it returns with the fault code still there. The
model's own part: the registers take the low `CURSOR_BITS` bits of what the host sends (log entry 8), and the two premises
on the regions and ranges, which the model checks in `DONE` and `ERROR` as well (log entry 12), with a common byte told by
the regions' addresses (log entry 7) and no range wrapped at `2^CURSOR_BITS` (log entry 20). -/
def Obligations.DecodeInTerminalModes : Prop :=
  ∀ (a : DecodeArgs) (s : State), s.constructed = true →
    let b := receivedArgs s.params a
    regionsHold b →
    (¬ ∃ i j : Nat, i < b.availIn ∧ j < b.availOut ∧
      b.inRegion.base + b.nextIn + i = b.outRegion.base + b.nextOut + j) →
    (s.mode = .done → exec (.decode a) s = .next { offer b s with
      running := false
      status := .endOfStream }) ∧
    (s.mode = .error → exec (.decode a) s = .next { offer b s with running := false })

/-- Which RESET and DECODE commands are refused: either before the first INIT (R330); and a DECODE with offered ranges that
have a byte of the host's memory in common (R334(b)). The model's own part: that a DECODE with a region shorter than its
cursors say, which the host must not send (R272, R283), is refused too, the order of the checks, and that they are made in
`DONE` and `ERROR` as well (log entry 12); which bytes two ranges have in common is told by the regions' addresses (log
entry 7); the registers take the low `CURSOR_BITS` bits of what is sent (log entry 8); and a region is measured, and two
ranges are compared, without a wrap at `2^CURSOR_BITS` (log entry 20). -/
def Obligations.CommandRefusals : Prop :=
  (∀ s : State, s.constructed = false →
    (∀ keep, exec (.reset keep) s = .refused .beforeInit) ∧ ∀ a, exec (.decode a) s = .refused .beforeInit) ∧
  ∀ (a : DecodeArgs) (s : State), s.constructed = true →
    let b := receivedArgs s.params a
    (b.inRegion.bytes.length < b.nextIn + b.availIn ∨
      b.outRegion.bytes.length < b.nextOut + b.availOut →
        exec (.decode a) s = .refused .regionTooShort) ∧
    (regionsHold b → (∃ i j : Nat, i < b.availIn ∧ j < b.availOut ∧
      b.inRegion.base + b.nextIn + i = b.outRegion.base + b.nextOut + j) →
        exec (.decode a) s = .refused .rangesOverlap)

/-- After a DECODE has started, with an offered range whose indices `CURSOR_BITS` bits can hold, the stream to come is what
the accumulator holds, then the bits of the bytes `IN[NEXT_IN]` to `IN[NEXT_IN + AVAIL_IN − 1]`, each from its bit 0 up
(R23, R63). (What a range past that is, the spec leaves open: log entry 20.) -/
def Obligations.OfferedStream : Prop :=
  ∀ (a : DecodeArgs) (s t : State), t.cur.nextIn + t.cur.availIn ≤ 2 ^ t.params.cursorBits →
    exec (.decode a) s = .next t →
    t.upcoming = s.heldBits ++
      ((a.inRegion.bytes.drop t.cur.nextIn).take t.cur.availIn).flatMap fun b => fieldBits 8 b.toNat

/-- The host-visible registers and the codes of `STATUS` (R22, R300), and `BITPOS` (R21): the number modulo
`2^(CURSOR_BITS+3)` that is `8 × TOTAL_IN` less `BITCNT`. -/
def Obligations.HostRegisters : Prop :=
  (∀ s : State, hostRegister s 0 = some s.cur.nextIn ∧ hostRegister s 1 = some s.cur.availIn ∧
    hostRegister s 2 = some s.cur.totalIn ∧ hostRegister s 3 = some s.cur.nextOut ∧
    hostRegister s 4 = some s.cur.availOut ∧ hostRegister s 5 = some s.cur.totalOut ∧
    hostRegister s 6 = some s.status.code.toNat ∧ hostRegister s 7 = some s.win.windowBits.toNat ∧
    ∀ i, 8 ≤ i → hostRegister s i = none) ∧
  Status.ok.code = 0 ∧ Status.endOfStream.code = 1 ∧
  StreamFault.invalidBlockType.code = 2 ∧ StreamFault.invalidStoredBlockLengths.code = 3 ∧
  StreamFault.tooManySymbols.code = 4 ∧ StreamFault.overSubscribedLengths.code = 5 ∧
  StreamFault.incompleteLengths.code = 6 ∧ StreamFault.invalidCodeLengthSymbol.code = 7 ∧
  StreamFault.invalidBitLengthRepeat.code = 8 ∧ StreamFault.missingEob.code = 9 ∧
  StreamFault.invalidLenCode.code = 10 ∧ StreamFault.invalidDistCode.code = 11 ∧
  StreamFault.invalidDistance.code = 12 ∧
  ∀ s : State, bitPos s < 2 ^ (s.params.cursorBits + 3) ∧
    (bitPos s + s.acc.cnt.toNat) % 2 ^ (s.params.cursorBits + 3) =
      8 * s.cur.totalIn % 2 ^ (s.params.cursorBits + 3)

/-! ### The step -/

/-- A step runs the decoded instruction. Inside a DECODE, in a mode that reads an element, the element is fetched; if its
bits are there and decode to `i`, the step is `exec i` once they are consumed, and if they are not the DECODE returns with
`STATUS = OK` (R10, R273). Two things in it are the model's choice: that one step of the model is one execution of the rule
of `MODE` (log entry 10), and the queue of commands (log entry 11): between commands the step takes the oldest command the
host has sent and runs it; with none the machine is idle and its state is frozen. -/
def Obligations.StepRunsDecodedInstruction : Prop :=
  (∀ (s t : State) (w : InstrWord) (i : Instr), s.running = true → s.mode.readsElement = true →
    fetch s = .word w t → decode w = .ok i → step s = exec i t) ∧
  (∀ s t : State, s.running = true → s.mode.readsElement = true → fetch s = .suspend t →
    step s = .next { t with status := .ok, running := false }) ∧
  (∀ (s : State) (p : HostPacket) (rest : List HostPacket) (i : Instr), s.running = false →
    s.pending = p :: rest → decode (.host p) = .ok i → step s = exec i { s with pending := rest }) ∧
  ∀ s : State, s.running = false → s.pending = [] → step s = .next s

/-- A field comes from the stream least-significant bit first (R63(a), R91, R131, R134): where the mode reads a field of
`n` bits and the stream has `n` more, the element is the value of those bits, they are consumed, and at most 7 bits stay
held (R137); with fewer, every offered byte is pulled, nothing is consumed, and the DECODE suspends. -/
def Obligations.FieldElements : Prop :=
  ∀ (s : State) (f : Format), s.Inv → s.running = true → s.fieldFormat = some f →
    (f.width ≤ s.upcoming.length → ∃ t, fetch s = .word (.field f (bitsValue (s.upcoming.take f.width))) t ∧
      s.readsTo t ∧ t.upcoming = s.upcoming.drop f.width ∧ t.acc.cnt.toNat ≤ 7) ∧
    (s.upcoming.length < f.width → ∃ t, fetch s = .suspend t ∧
      s.readsTo t ∧ t.upcoming = s.upcoming ∧ t.cur.availIn = 0)

/-- A symbol comes from the stream by its codeword, most-significant bit first (R63(b), R92, R110, R160 to R163): if the
stream goes on with the codeword of a symbol of the mode's table, that symbol is the element, exactly its bits are
consumed, and at most 7 bits stay held. If it goes on with no codeword, nothing is consumed: with at least `T.maxlen` bits
to come the element is INVALID, and with fewer every offered byte is pulled and the DECODE suspends. -/
def Obligations.SymbolElements : Prop :=
  ∀ (s : State) (f : Format), s.Inv → s.running = true → s.symbolFormat = some f →
    (∀ sym, s.symbolTable.symbolBits sym ≠ [] → s.symbolTable.symbolBits sym <+: s.upcoming →
      ∃ t, fetch s = .word (.field f sym) t ∧ s.readsTo t ∧
        t.upcoming = s.upcoming.drop (s.symbolTable.symbolBits sym).length ∧ t.acc.cnt.toNat ≤ 7) ∧
    ((∀ sym, s.symbolTable.symbolBits sym ≠ [] → ¬ s.symbolTable.symbolBits sym <+: s.upcoming) →
      (s.symbolTable.maxlen ≤ s.upcoming.length → ∃ t, fetch s = .word (.noMatch f) t ∧
        s.readsTo t ∧ t.upcoming = s.upcoming) ∧
      (s.upcoming.length < s.symbolTable.maxlen → ∃ t, fetch s = .suspend t ∧
        s.readsTo t ∧ t.upcoming = s.upcoming ∧ t.cur.availIn = 0))

/-- A step that suspends leaves every bit of state unchanged except the bytes it pulled into the accumulator, and those
stay pulled: the stream to come is the same (R10). -/
def Obligations.SuspensionKeepsState : Prop :=
  ∀ s t : State, s.Inv → fetch s = .suspend t → s.readsTo t ∧ t.upcoming = s.upcoming ∧
    ∃ k : Nat, s.cur.availIn = t.cur.availIn + k ∧ t.acc.cnt.toNat = s.acc.cnt.toNat + 8 * k ∧
      t.cur.nextIn = (s.cur.nextIn + k) % 2 ^ s.params.cursorBits ∧
      t.cur.totalIn = (s.cur.totalIn + k) % 2 ^ s.params.cursorBits

/-! ### Huffman tables -/

/-- BUILD (R150, R151): with `K` the code space that the code lengths take up, in units of `2^-15`, a set that takes more
than the whole fails with `OVER_SUBSCRIBED_LENGTHS`; one that takes all of it is accepted; and one that takes less fails
with `INCOMPLETE_LENGTHS`, unless it is a code-length code with exactly one nonzero length. -/
def Obligations.BuildPolicy : Prop :=
  ∀ (kind : TreeKind) (len : List (BitVec 4)),
    let K := (len.map fun L => if L = 0 then 0 else 2 ^ (15 - L.toNat)).sum
    let nz := (len.filter fun L => L ≠ 0).length
    (2 ^ 15 < K → build kind len = .error .overSubscribedLengths) ∧
    (K = 2 ^ 15 → build kind len = .ok ⟨len⟩) ∧
    (K < 2 ^ 15 → kind = .cl → nz = 1 → build kind len = .ok ⟨len⟩) ∧
    (K < 2 ^ 15 → kind ≠ .cl ∨ nz ≠ 1 → build kind len = .error .incompleteLengths)

/-- In an accepted table the codewords are prefix-free: no symbol's codeword is the beginning of another's (R110,
R152). -/
def Obligations.AcceptedCodesPrefixFree : Prop :=
  ∀ (kind : TreeKind) (T : Table) (s t : Nat), build kind T.len = .ok T →
    T.symbolBits s ≠ [] → T.symbolBits t ≠ [] → T.symbolBits s <+: T.symbolBits t → s = t

/-- Codewords are handed out in increasing order of (length, symbol), and the codes of one length are consecutive (R152):
with `next[L]` the first code of length `L`, a symbol's codeword is `next` of its length plus the number of smaller symbols
of that length; the codeword has that length and fits it. -/
def Obligations.CanonicalCodewords : Prop :=
  ∀ (kind : TreeKind) (T : Table), build kind T.len = .ok T → ∃ next : Nat → Nat, next 0 = 0 ∧
    (∀ L, next (L + 1) = 2 * (next L + (T.len.filter fun x => L ≠ 0 ∧ x.toNat = L).length)) ∧
    ∀ (s : Nat) (x : BitVec 4), T.len[s]? = some x → x ≠ 0 →
      T.codes[s]? = some (x.toNat, next x.toNat + ((T.len.take s).filter fun y => y = x).length) ∧
      next x.toNat + ((T.len.take s).filter fun y => y = x).length < 2 ^ x.toNat

/-- In an accepted literal/length or distance table every pattern of `T.maxlen` bits begins with a codeword, so INVALID
cannot arise from it (R162). -/
def Obligations.CompleteTablesAlwaysMatch : Prop :=
  ∀ (kind : TreeKind) (T : Table) (bits : List Bool), kind ≠ .cl → build kind T.len = .ok T →
    bits.length = T.maxlen → ∃ sym, T.symbolBits sym ≠ [] ∧ T.symbolBits sym <+: bits

/-! ### Block headers and stored blocks -/

/-- The four block headers (R181 to R184). Each writes `LAST`; a stored block's discards the rest of the byte, whatever
its bits, and goes to `STORED_LEN`; a fixed one selects the fixed tables; a dynamic one goes to its counts; the reserved
one raises `INVALID_BLOCK_TYPE`. -/
def Obligations.BlockHeaders : Prop :=
  ∀ (last : Bool) (s : State),
    exec (.blockStored last) s = .next { s with
      acc := ⟨s.acc.buf >>> (s.acc.cnt.toNat % 8), s.acc.cnt - BitVec.ofNat 6 (s.acc.cnt.toNat % 8)⟩
      scratch := { s.scratch with last := .put last }
      mode := .storedLen } ∧
    exec (.blockFixed last) s = .next { s with
      scratch := { s.scratch with last := .put last, tableSel := .put .fixed }
      mode := .llSym } ∧
    exec (.blockDynamic last) s = .next { s with
      scratch := { s.scratch with last := .put last }
      mode := .dynCounts } ∧
    exec (.blockReserved last) s = .next { s with
      scratch := { s.scratch with last := .put last }
      mode := .error
      status := .fault .invalidBlockType
      running := false }

/-- The stored length header, once its 32 bits are read (R185, R188): a length that is not the complement of `NLEN`
raises `INVALID_STORED_BLOCK_LENGTHS`; a length of 0 ends the block at once, by `LAST`; any other begins the copy. -/
def Obligations.StoredLength : Prop :=
  ∀ (len nlen : BitVec 16) (s : State),
    (len ≠ ~~~nlen → exec (.storedLen len nlen) s = .next { s with
      mode := .error
      status := .fault .invalidStoredBlockLengths
      running := false }) ∧
    (len = ~~~nlen → len ≠ 0 → exec (.storedLen len nlen) s = .next { s with
      acc := ⟨0, 0⟩
      scratch := { s.scratch with storedRemain := .put len }
      mode := .storedCopy }) ∧
    (len = ~~~nlen → len = 0 → s.scratch.last = .put false → exec (.storedLen len nlen) s = .next { s with
      acc := ⟨0, 0⟩
      scratch := { s.scratch with storedRemain := .put 0 }
      mode := .header }) ∧
    (len = ~~~nlen → len = 0 → s.scratch.last = .put true → exec (.storedLen len nlen) s = .next { s with
      acc := ⟨0, 0⟩
      scratch := { s.scratch with storedRemain := .put 0 }
      mode := .done
      status := .endOfStream
      running := false })

/-- One payload byte of a stored block (R187, R66): it is emitted and counted, and the last one ends the block, by `LAST`.
Of memory, only `OUT[NEXT_OUT]` and the window byte at the cursor can change. -/
def Obligations.StoredByte : Prop :=
  ∀ (b : Byte) (s : State) (n : BitVec 16), s.scratch.storedRemain = .put n →
    (n ≠ 1 → exec (.storedData b) s = .next { emit b s with
      scratch := { s.scratch with storedRemain := .put (n - 1) }
      mode := .storedCopy }) ∧
    (n = 1 → s.scratch.last = .put false → exec (.storedData b) s = .next { emit b s with
      scratch := { s.scratch with storedRemain := .put 0 }
      mode := .header }) ∧
    (n = 1 → s.scratch.last = .put true → exec (.storedData b) s = .next { emit b s with
      scratch := { s.scratch with storedRemain := .put 0 }
      mode := .done
      status := .endOfStream
      running := false }) ∧
    ∀ t, exec (.storedData b) s = .next t →
      Memory.read t.outMem s.cur.nextOut = some b ∧
      (∀ a, a ≠ s.cur.nextOut → Memory.read t.outMem a = Memory.read s.outMem a) ∧
      Memory.read t.win.mem s.win.cursor = some b ∧
      (∀ a, a ≠ s.win.cursor → Memory.read t.win.mem a = Memory.read s.win.mem a) ∧ t.inMem = s.inMem

/-- The step `STORED_COPY` (R187): it suspends where there is no input or no output space, and otherwise takes the byte at
the input cursor, emits it and counts it down; the last one ends the block, by `LAST`. -/
def Obligations.StoredCopyStep : Prop :=
  ∀ s : State, s.running = true → s.mode = .storedCopy →
    (s.cur.availIn = 0 ∨ s.cur.availOut = 0 → step s = .next { s with status := .ok, running := false }) ∧
    ∀ (b : Byte) (n : BitVec 16), s.cur.availIn ≠ 0 → s.cur.availOut ≠ 0 →
      Memory.read s.inMem s.cur.nextIn = some b → s.scratch.storedRemain = .put n →
      let u := emit b { s with cur := { s.cur with
        nextIn := (s.cur.nextIn + 1) % 2 ^ s.params.cursorBits
        availIn := s.cur.availIn - 1
        totalIn := (s.cur.totalIn + 1) % 2 ^ s.params.cursorBits } }
      (n ≠ 1 → step s = .next { u with
        scratch := { s.scratch with storedRemain := .put (n - 1) } }) ∧
      (n = 1 → s.scratch.last = .put false → step s = .next { u with
        scratch := { s.scratch with storedRemain := .put 0 }
        mode := .header }) ∧
      (n = 1 → s.scratch.last = .put true → step s = .next { u with
        scratch := { s.scratch with storedRemain := .put 0 }
        mode := .done
        status := .endOfStream
        running := false })

/-- `emit(b)` (R66): the byte goes to `OUT[NEXT_OUT]` and to the window at its cursor, the output cursors advance by one,
each modulo `2^CURSOR_BITS`, the window's cursor moves on modulo `W`, and its size grows to at most `W`. No other byte and
no other register changes. -/
def Obligations.EmitWrites : Prop :=
  ∀ (b : Byte) (s : State),
    (∀ a, Memory.read (emit b s).outMem a = if a = s.cur.nextOut then some b else Memory.read s.outMem a) ∧
    (∀ a, Memory.read (emit b s).win.mem a = if a = s.win.cursor then some b else Memory.read s.win.mem a) ∧
    (emit b s).cur = { s.cur with
      nextOut := (s.cur.nextOut + 1) % 2 ^ s.params.cursorBits
      availOut := s.cur.availOut - 1
      totalOut := (s.cur.totalOut + 1) % 2 ^ s.params.cursorBits } ∧
    (emit b s).win.cursor = (s.win.cursor + 1) % 2 ^ s.win.windowBits.toNat ∧
    (emit b s).win.size = min (s.win.size + 1) (2 ^ s.win.windowBits.toNat) ∧
    (emit b s).win.windowBits = s.win.windowBits ∧
    emit b s = { s with outMem := (emit b s).outMem, cur := (emit b s).cur, win := (emit b s).win }

/-! ### Dynamic header -/

/-- The dynamic header, once its 14 bits are read (R200, R107): the three counts are written; a literal/length count above
286 or a distance count above 30 raises `TOO_MANY_SYMBOLS`, and otherwise the bookkeeping of the code-length-code lengths
is cleared and they are read next. It is so in each of the three rows a header can stand under. -/
def Obligations.DynHeaderCounts : Prop :=
  ∀ (hlit5 hdist5 : BitVec 5) (hclen4 : BitVec 4) (i : Instr) (s : State),
    i = .dynHeader hlit5 hdist5 hclen4 ∨ i = .dynHeaderTooManyHlit hlit5 hdist5 hclen4 ∨
      i = .dynHeaderTooManyHdist hlit5 hdist5 hclen4 →
    (hlit5.toNat + 257 ≤ 286 → hdist5.toNat + 1 ≤ 30 → exec i s = .next { s with
      scratch := { s.scratch with
        hlit := .put (BitVec.ofNat 9 (hlit5.toNat + 257))
        hdist := .put (BitVec.ofNat 6 (hdist5.toNat + 1))
        hclen := .put (BitVec.ofNat 5 (hclen4.toNat + 4))
        clcIndex := .put 0
        clcLens := .put (Vector.replicate 19 0) }
      mode := .dynClc }) ∧
    (286 < hlit5.toNat + 257 ∨ 30 < hdist5.toNat + 1 → exec i s = .next { s with
      scratch := { s.scratch with
        hlit := .put (BitVec.ofNat 9 (hlit5.toNat + 257))
        hdist := .put (BitVec.ofNat 6 (hdist5.toNat + 1))
        hclen := .put (BitVec.ofNat 5 (hclen4.toNat + 4)) }
      mode := .error
      status := .fault .tooManySymbols
      running := false })

/-- One code-length-code length, once its 3 bits are read (R201, R202): it becomes the length of symbol
`CLC_ORDER[CLC_INDEX]`, and the index goes up. Before the last one that is all; the last one builds the code-length table,
raising the build's fault, or clears the code lengths and goes to `DYN_LENS`. -/
def Obligations.CodeLengthCodeEntry : Prop :=
  ∀ (len : BitVec 3) (s : State) (lens : Vector (BitVec 3) 19) (index hclen : BitVec 5) (sym : Nat),
    s.scratch.clcLens = .put lens → s.scratch.clcIndex = .put index → s.scratch.hclen = .put hclen →
    clcOrder[index.toNat]? = some sym →
    let lens' := lens.setIfInBounds sym len
    (index + 1 ≠ hclen → exec (.clcEntry len) s = .next { s with
      scratch := { s.scratch with clcLens := .put lens', clcIndex := .put (index + 1) }
      mode := .dynClc }) ∧
    (index + 1 = hclen → ∀ e, build .cl (lens'.toList.map (·.setWidth 4)) = .error e →
      exec (.clcEntry len) s = .next { s with
        scratch := { s.scratch with clcLens := .put lens', clcIndex := .put (index + 1) }
        mode := .error
        status := .fault e
        running := false }) ∧
    (index + 1 = hclen → ∀ T, build .cl (lens'.toList.map (·.setWidth 4)) = .ok T →
      exec (.clcEntry len) s = .next { s with
        scratch := { s.scratch with
          clcLens := .put lens', clcIndex := .put (index + 1)
          tblCL := .put T, lensIndex := .put 0, lens := .put (Vector.replicate 316 0) }
        mode := .dynLens })

/-- A code-length symbol 0..15 (R203): it is written at `LENS_INDEX`, which goes up by one; before the last length of the
sequence that is all, and the last one runs `FINISH_LENS` on the lengths with the new one among them. -/
def Obligations.CodeLengthAppended : Prop :=
  ∀ (len : BitVec 4) (s : State) (lens : Vector (BitVec 4) 316) (index hlit : BitVec 9) (hdist : BitVec 6),
    s.scratch.lens = .put lens → s.scratch.lensIndex = .put index → s.scratch.hlit = .put hlit →
    s.scratch.hdist = .put hdist → index.toNat < 316 →
    let lens' := lens.setIfInBounds index.toNat len
    (index.toNat + 1 ≠ hlit.toNat + hdist.toNat → exec (.clLen len) s = .next { s with
      scratch := { s.scratch with lens := .put lens', lensIndex := .put (index + 1) }
      mode := .dynLens }) ∧
    (index.toNat + 1 = hlit.toNat + hdist.toNat → exec (.clLen len) s = finishLens lens' hlit hdist { s with
      scratch := { s.scratch with lens := .put lens', lensIndex := .put (index + 1) } })

/-- The code-length symbols 16, 17 and 18 (R204, R205): each is kept in `REP_SYM` until its extra bits are read, but a 16
that no length precedes raises `INVALID_BIT_LENGTH_REPEAT` at once. -/
def Obligations.RepeatSymbols : Prop :=
  ∀ s : State,
    (∀ index, s.scratch.lensIndex = .put index →
      (index = 0 → exec .clRepeatPrev s = .next { s with
        mode := .error
        status := .fault .invalidBitLengthRepeat
        running := false }) ∧
      (index ≠ 0 → exec .clRepeatPrev s = .next { s with
        scratch := { s.scratch with repSym := .put 16 }
        mode := .dynRepeat })) ∧
    exec .clRepeatZeroShort s = .next { s with
      scratch := { s.scratch with repSym := .put 17 }
      mode := .dynRepeat } ∧
    exec .clRepeatZeroLong s = .next { s with
      scratch := { s.scratch with repSym := .put 18 }
      mode := .dynRepeat }

/-- The extra bits of a repeat, once they are read (R206): `n` copies of the previous length (16: `n = 3 + x`) or of 0 (17:
`n = 3 + x`; 18: `n = 11 + x`). A repeat past the last length raises `INVALID_BIT_LENGTH_REPEAT` and writes nothing; one
that ends before it leaves the machine at `DYN_LENS`; one that ends at it runs `FINISH_LENS`. -/
def Obligations.RepeatExtras : Prop :=
  ∀ (i : Instr) (n : Nat) (val : BitVec 4) (s : State) (lens : Vector (BitVec 4) 316) (index hlit : BitVec 9)
    (hdist : BitVec 6),
    s.scratch.lens = .put lens → s.scratch.lensIndex = .put index → s.scratch.hlit = .put hlit →
    s.scratch.hdist = .put hdist → hlit.toNat + hdist.toNat ≤ 316 →
    ((∃ x : BitVec 2, i = .cl16Extra x ∧ n = 3 + x.toNat ∧ 1 ≤ index.toNat ∧ lens[index.toNat - 1]? = some val) ∨
      (∃ x : BitVec 3, i = .cl17Extra x ∧ n = 3 + x.toNat ∧ val = 0) ∨
      (∃ x : BitVec 7, i = .cl18Extra x ∧ n = 11 + x.toNat ∧ val = 0)) →
    (hlit.toNat + hdist.toNat < index.toNat + n → exec i s = .next { s with
      mode := .error
      status := .fault .invalidBitLengthRepeat
      running := false }) ∧
    (index.toNat + n ≤ hlit.toNat + hdist.toNat → ∃ lens' : Vector (BitVec 4) 316,
      (∀ (j : Nat) (h : j < 316), lens'[j] = if index.toNat ≤ j ∧ j < index.toNat + n then val else lens[j]) ∧
      (index.toNat + n ≠ hlit.toNat + hdist.toNat → exec i s = .next { s with
        scratch := { s.scratch with
          lens := .put lens', lensIndex := .put (BitVec.ofNat 9 (index.toNat + n)) }
        mode := .dynLens }) ∧
      (index.toNat + n = hlit.toNat + hdist.toNat → exec i s = finishLens lens' hlit hdist { s with
        scratch := { s.scratch with
          lens := .put lens', lensIndex := .put (BitVec.ofNat 9 (index.toNat + n)) } }))

/-- `FINISH_LENS` (R207): the end-of-block check comes first, then the literal/length build, then the distance build; the
first to fail raises its fault and writes nothing more, and when none fails the two tables are written, `TABLESEL` is
`DYNAMIC` and the symbol loop begins. -/
def Obligations.FinishLensOutcomes : Prop :=
  ∀ (lens : Vector (BitVec 4) 316) (hlit : BitVec 9) (hdist : BitVec 6) (s : State),
    let ll := lens.toList.take hlit.toNat
    let d := (lens.toList.drop hlit.toNat).take hdist.toNat
    (lens[256] = 0 → finishLens lens hlit hdist s = .next { s with
      mode := .error
      status := .fault .missingEob
      running := false }) ∧
    (lens[256] ≠ 0 → ∀ e, build .ll ll = .error e → finishLens lens hlit hdist s = .next { s with
      mode := .error
      status := .fault e
      running := false }) ∧
    (lens[256] ≠ 0 → ∀ T e, build .ll ll = .ok T → build .d d = .error e →
      finishLens lens hlit hdist s = .next { s with
        mode := .error
        status := .fault e
        running := false }) ∧
    (lens[256] ≠ 0 → ∀ T U, build .ll ll = .ok T → build .d d = .ok U →
      finishLens lens hlit hdist s = .next { s with
        scratch := { s.scratch with tblLL := .put T, tblD := .put U, tableSel := .put .dynamic }
        mode := .llSym })

/-! ### Symbol loop -/

/-- The symbols without a meaning and the outcomes INVALID (R208, R234, R238): each raises its one fault, and nothing else
changes. -/
def Obligations.InvalidSymbols : Prop :=
  ∀ (i : Instr) (e : StreamFault) (s : State),
    (i, e) ∈ [(.clNoMatch, .invalidCodeLengthSymbol), (.llInvalid286, .invalidLenCode),
      (.llInvalid287, .invalidLenCode), (.llNoMatch, .invalidLenCode), (.dInvalid30, .invalidDistCode),
      (.dInvalid31, .invalidDistCode), (.dNoMatch, .invalidDistCode)] →
    exec i s = .next { s with mode := .error, status := .fault e, running := false }

/-- A literal waits in `LIT_VAL` for output space (R231). The end-of-block symbol closes the block (R232, R186): by `LAST`,
the stream ends or the next header is read; it needs no output space. -/
def Obligations.LiteralAndEndOfBlock : Prop :=
  ∀ s : State,
    (∀ b : Byte, exec (.lit b) s = .next { s with
      scratch := { s.scratch with litVal := .put b }
      mode := .litEmit }) ∧
    (s.scratch.last = .put true → exec .eob s = .next { s with
      mode := .done
      status := .endOfStream
      running := false }) ∧
    (s.scratch.last = .put false → exec .eob s = .next { s with mode := .header })

/-- The length symbols 257..285 with the base lengths and extra-bit counts of R99 (R233): `SYM` and `LENGTH` are written,
and the length's extra bits are read next where it has any, else the distance symbol. -/
def Obligations.LengthSymbols : Prop :=
  ∀ (i : Instr) (sym base extra : Nat) (s : State),
    (i, sym, base, extra) ∈
      [(.len257, 257, 3, 0), (.len258, 258, 4, 0), (.len259, 259, 5, 0), (.len260, 260, 6, 0),
        (.len261, 261, 7, 0), (.len262, 262, 8, 0), (.len263, 263, 9, 0), (.len264, 264, 10, 0)] ++
      [(.len265, 265, 11, 1), (.len266, 266, 13, 1), (.len267, 267, 15, 1), (.len268, 268, 17, 1),
        (.len269, 269, 19, 2), (.len270, 270, 23, 2), (.len271, 271, 27, 2), (.len272, 272, 31, 2)] ++
      [(.len273, 273, 35, 3), (.len274, 274, 43, 3), (.len275, 275, 51, 3), (.len276, 276, 59, 3),
        (.len277, 277, 67, 4), (.len278, 278, 83, 4), (.len279, 279, 99, 4), (.len280, 280, 115, 4)] ++
      [(.len281, 281, 131, 5), (.len282, 282, 163, 5), (.len283, 283, 195, 5), (.len284, 284, 227, 5),
        (.len285, 285, 258, 0)] →
    exec i s = .next { s with
      scratch := { s.scratch with sym := .put (BitVec.ofNat 9 sym), length := .put (BitVec.ofNat 9 base) }
      mode := if 0 < extra then .lenExtra else .distSym }

/-- The extra bits of a length are added to `LENGTH`, and the distance symbol is read next (R236). -/
def Obligations.LengthExtra : Prop :=
  ∀ (n : Nat) (x : BitVec 5) (s : State) (l : BitVec 9), s.scratch.length = .put l →
    exec (.lenExtra n x) s = .next { s with
      scratch := { s.scratch with length := .put (l + x.setWidth 9) }
      mode := .distSym }

/-- The distance symbols 0..3, which have no extra bits (R237, R240): `SYM` and `DIST` are written, a distance that
reaches back past the oldest byte of the window raises `INVALID_DISTANCE`, and any other begins the copy of `LENGTH`
bytes. -/
def Obligations.DistSymbolsWithoutExtra : Prop :=
  ∀ (i : Instr) (sym base : Nat) (s : State),
    (i, sym, base) ∈ [(.dist0, 0, 1), (.dist1, 1, 2), (.dist2, 2, 3), (.dist3, 3, 4)] →
    (s.win.size < base → exec i s = .next { s with
      scratch := { s.scratch with sym := .put (BitVec.ofNat 9 sym), dist := .put (BitVec.ofNat 16 base) }
      mode := .error
      status := .fault .invalidDistance
      running := false }) ∧
    ∀ l, base ≤ s.win.size → s.scratch.length = .put l → exec i s = .next { s with
      scratch := { s.scratch with
        sym := .put (BitVec.ofNat 9 sym), dist := .put (BitVec.ofNat 16 base), copyRemain := .put l }
      mode := .copy }

/-- The distance symbols 4..29, with the base distances of R100 (R237): `SYM` and `DIST` are written and the distance's
extra bits are read next. -/
def Obligations.DistSymbolsWithExtra : Prop :=
  ∀ (i : Instr) (sym base : Nat) (s : State),
    (i, sym, base) ∈
      [(.dist4, 4, 5), (.dist5, 5, 7), (.dist6, 6, 9), (.dist7, 7, 13), (.dist8, 8, 17), (.dist9, 9, 25),
        (.dist10, 10, 33), (.dist11, 11, 49), (.dist12, 12, 65), (.dist13, 13, 97)] ++
      [(.dist14, 14, 129), (.dist15, 15, 193), (.dist16, 16, 257), (.dist17, 17, 385), (.dist18, 18, 513),
        (.dist19, 19, 769), (.dist20, 20, 1025), (.dist21, 21, 1537), (.dist22, 22, 2049)] ++
      [(.dist23, 23, 3073), (.dist24, 24, 4097), (.dist25, 25, 6145), (.dist26, 26, 8193),
        (.dist27, 27, 12289), (.dist28, 28, 16385), (.dist29, 29, 24577)] →
    exec i s = .next { s with
      scratch := { s.scratch with sym := .put (BitVec.ofNat 9 sym), dist := .put (BitVec.ofNat 16 base) }
      mode := .distExtra }

/-- The extra bits of a distance are added to `DIST`, and the distance is checked (R239, R240). -/
def Obligations.DistExtra : Prop :=
  ∀ (n : Nat) (y : BitVec 13) (s : State) (d : BitVec 16), s.scratch.dist = .put d →
    (s.win.size < (d + y.setWidth 16).toNat → exec (.distExtra n y) s = .next { s with
      scratch := { s.scratch with dist := .put (d + y.setWidth 16) }
      mode := .error
      status := .fault .invalidDistance
      running := false }) ∧
    ∀ l, (d + y.setWidth 16).toNat ≤ s.win.size → s.scratch.length = .put l →
      exec (.distExtra n y) s = .next { s with
        scratch := { s.scratch with dist := .put (d + y.setWidth 16), copyRemain := .put l }
        mode := .copy }

/-- The step `LIT_EMIT` (R235): it suspends without output space, and otherwise emits `LIT_VAL` and goes back to
`LL_SYM`. -/
def Obligations.LitEmitStep : Prop :=
  ∀ s : State, s.running = true → s.mode = .litEmit →
    (s.cur.availOut = 0 → step s = .next { s with status := .ok, running := false }) ∧
    ∀ b, s.cur.availOut ≠ 0 → s.scratch.litVal = .put b → step s = .next { emit b s with mode := .llSym }

/-- The step `COPY` (R241, R68): it suspends without output space, and otherwise emits the window byte `DIST` positions
behind the cursor, read before the write, and counts it; the last one goes back to `LL_SYM`. -/
def Obligations.CopyStep : Prop :=
  ∀ s : State, s.running = true → s.mode = .copy →
    (s.cur.availOut = 0 → step s = .next { s with status := .ok, running := false }) ∧
    ∀ (d : BitVec 16) (n : BitVec 9) (a : Nat) (b : Byte), s.cur.availOut ≠ 0 → s.scratch.dist = .put d →
      s.scratch.copyRemain = .put n → 1 ≤ d.toNat → d.toNat ≤ s.win.size →
      s.win.cursor < s.win.capacity → a < s.win.capacity → (a + d.toNat) % s.win.capacity = s.win.cursor →
      Memory.read s.win.mem a = some b →
      step s = .next { emit b s with
        scratch := { s.scratch with copyRemain := .put (n - 1) }
        mode := if n = 1 then .llSym else .copy }

/-- The window is the history of the output (R67, R69): after the bytes `bs` have been emitted into a cleared window of
`W` bytes, its size is the number of them, at most `W`, and for every `d` from 1 to its size the byte at distance `d` is
the `d`-th most recent. -/
def Obligations.BackReference : Prop :=
  ∀ (wb : BitVec 4) (bs : List Byte),
    let w := bs.foldl Window.push ⟨wb, [], 0, 0⟩
    w.size = min bs.length (2 ^ wb.toNat) ∧
    ∀ d, 1 ≤ d → d ≤ w.size → Memory.read w.mem (w.backIndex d) = bs[bs.length - d]?

/-! ### Rules of the whole machine -/

/-- The checks of the model, by which a state that breaks the invariant stops and no value is picked. Reading a register of
R44 that no rule has written is a fault that names it, for each of them (R44); so is a back-reference outside the window
(R68, R70), and dropping more bits than are held (R133). That an index outside `CLC_LENS` or `LENS`, a `REP_SYM` or `SYM`
out of its range and an absent byte of `IN` are faults too is the model's choice (log entries 19 and 6). -/
def Obligations.ModelFaults : Prop :=
  ∀ s : State,
    let r := s.scratch
    (r.last.written = false → exec .eob s = .fault (.unwrittenRegister .LAST)) ∧
    (∀ b, r.storedRemain.written = false → exec (.storedData b) s = .fault (.unwrittenRegister .STORED_REMAIN)) ∧
    (∀ x,
      (r.clcIndex.written = false → exec (.clcEntry x) s = .fault (.unwrittenRegister .CLC_INDEX)) ∧
      (r.clcIndex.written = true → r.clcLens.written = false →
        exec (.clcEntry x) s = .fault (.unwrittenRegister .CLC_LENS)) ∧
      (r.clcIndex.written = true → r.clcLens.written = true → r.hclen.written = false →
        exec (.clcEntry x) s = .fault (.unwrittenRegister .HCLEN)) ∧
      (r.clcIndex.written = true → r.clcLens.written = true → r.hclen.written = true →
        19 ≤ r.clcIndex.val.toNat →
        exec (.clcEntry x) s = .fault (.arrayIndexInvalid .CLC_LENS r.clcIndex.val.toNat))) ∧
    (∀ i, (∃ x, i = .clLen x) ∨ (∃ x, i = .cl16Extra x) ∨ (∃ x, i = .cl17Extra x) ∨ (∃ x, i = .cl18Extra x) →
      (r.lens.written = false → exec i s = .fault (.unwrittenRegister .LENS)) ∧
      (r.lens.written = true → r.lensIndex.written = false → exec i s = .fault (.unwrittenRegister .LENS_INDEX)) ∧
      (r.lens.written = true → r.lensIndex.written = true → r.hlit.written = false →
        exec i s = .fault (.unwrittenRegister .HLIT)) ∧
      (r.lens.written = true → r.lensIndex.written = true → r.hlit.written = true → r.hdist.written = false →
        exec i s = .fault (.unwrittenRegister .HDIST))) ∧
    (r.lensIndex.written = false → exec .clRepeatPrev s = .fault (.unwrittenRegister .LENS_INDEX)) ∧
    (r.lens.written = true → r.lensIndex.written = true → r.hlit.written = true → r.hdist.written = true →
      (∀ x, 316 ≤ r.lensIndex.val.toNat →
        exec (.clLen x) s = .fault (.arrayIndexInvalid .LENS r.lensIndex.val.toNat)) ∧
      ∀ x, r.lensIndex.val = 0 → exec (.cl16Extra x) s = .fault (.arrayIndexInvalid .LENS 0)) ∧
    (∀ n x, r.length.written = false → exec (.lenExtra n x) s = .fault (.unwrittenRegister .LENGTH)) ∧
    (∀ n x, r.dist.written = false → exec (.distExtra n x) s = .fault (.unwrittenRegister .DIST)) ∧
    (1 ≤ s.win.size → r.length.written = false → exec .dist0 s = .fault (.unwrittenRegister .LENGTH)) ∧
    (∀ n, s.acc.cnt.toNat < n → readBits n s = .error (.dropBeyondHeld n)) ∧
    (s.running = true →
      (s.mode = .storedCopy → s.cur.availIn ≠ 0 → s.cur.availOut ≠ 0 → Memory.read s.inMem s.cur.nextIn = none →
        step s = .fault (.absentInputByte s.cur.nextIn)) ∧
      (s.mode = .dynLens → r.tblCL.written = false → step s = .fault (.unwrittenRegister .TBL_CL)) ∧
      (s.mode = .dynRepeat →
        (r.repSym.written = false → step s = .fault (.unwrittenRegister .REP_SYM)) ∧
        (r.repSym.written = true → r.repSym.val ≠ 16 → r.repSym.val ≠ 17 → r.repSym.val ≠ 18 →
          step s = .fault (.registerOutOfRange .REP_SYM))) ∧
      (s.mode = .llSym ∨ s.mode = .distSym → r.tableSel.written = false →
        step s = .fault (.unwrittenRegister .TABLESEL)) ∧
      (s.mode = .llSym → r.tableSel = .put .dynamic → r.tblLL.written = false →
        step s = .fault (.unwrittenRegister .TBL_LL)) ∧
      (s.mode = .distSym → r.tableSel = .put .dynamic → r.tblD.written = false →
        step s = .fault (.unwrittenRegister .TBL_D)) ∧
      (s.mode = .lenExtra ∨ s.mode = .distExtra → r.sym.written = false →
        step s = .fault (.unwrittenRegister .SYM)) ∧
      (s.mode = .lenExtra → r.sym.written = true → r.sym.val.toNat < 257 ∨ 285 < r.sym.val.toNat →
        step s = .fault (.registerOutOfRange .SYM)) ∧
      (s.mode = .distExtra → r.sym.written = true → 29 < r.sym.val.toNat →
        step s = .fault (.registerOutOfRange .SYM)) ∧
      (s.mode = .litEmit → s.cur.availOut ≠ 0 → r.litVal.written = false →
        step s = .fault (.unwrittenRegister .LIT_VAL)) ∧
      (s.mode = .copy → s.cur.availOut ≠ 0 →
        (r.dist.written = false → step s = .fault (.unwrittenRegister .DIST)) ∧
        (r.dist.written = true → r.copyRemain.written = false →
          step s = .fault (.unwrittenRegister .COPY_REMAIN)) ∧
        (r.dist.written = true → r.copyRemain.written = true → r.dist.val = 0 ∨ s.win.size < r.dist.val.toNat →
          step s = .fault (.windowReadInvalid r.dist.val.toNat))))

/-- INIT writes `WINDOW_BITS`, and nothing else changes it (R28): a step that changes it runs a pending INIT. -/
def Obligations.OnlyInitChangesWindowBits : Prop :=
  ∀ s t : State, step s = .next t → t.win.windowBits ≠ s.win.windowBits →
    s.running = false ∧ ∃ p rest, s.pending = p :: rest ∧ p.code = 0

/-- `LAST` is written by the block headers, and no other element writes it as a side effect (R42): a step that changes it
runs a header, or an INIT or RESET, which leave it with no value. -/
def Obligations.OnlyHeadersWriteLast : Prop :=
  ∀ s t : State, step s = .next t → t.scratch.last ≠ s.scratch.last →
    (s.running = true ∧ s.mode = .header) ∨
      (s.running = false ∧ ∃ p rest, s.pending = p :: rest ∧ (p.code = 0 ∨ p.code = 1) ∧
        t.scratch.last.written = false)

/-- A fault is sticky (R305): from `ERROR`, whatever the step, no DECODE is in progress after it and the mode and the
status stay, with no byte consumed or produced, unless the step runs a pending INIT or RESET, which leaves `ERROR`. -/
def Obligations.ErrorIsSticky : Prop :=
  ∀ s t : State, s.mode = .error → step s = .next t →
    (t.running = false ∧ t.mode = .error ∧ t.status = s.status ∧ t.acc = s.acc ∧ t.scratch = s.scratch ∧
      t.win = s.win ∧ t.cur.totalIn = s.cur.totalIn ∧ t.cur.totalOut = s.cur.totalOut) ∨
    (s.running = false ∧ ∃ p rest, s.pending = p :: rest ∧ (p.code = 0 ∨ p.code = 1) ∧ t.mode = .header)

/-- Raising a fault (R303): when an element's instruction ends in `ERROR`, the DECODE returns with the fault's code in
`STATUS`, and the rest of the state, the cursors, `IN`, `OUT`, the window, the accumulator and the scratch registers and
tables, is as the element found it, but for the registers that its own rule writes before it raises: `LAST` (R184), the
three counts (R200), the code-length code lengths and their index (R201), the code lengths and their index (R203, R206),
and `SYM` and `DIST` (R237, R239). -/
def Obligations.FaultChangesNothingElse : Prop :=
  ∀ (i : Instr) (s t : State), isElement i = true → exec i s = .next t → t.mode = .error →
    (∃ e, t = { s with mode := .error, status := .fault e, running := false, scratch := t.scratch }) ∧
    (t.scratch = s.scratch ∨
      (∃ last, i = .blockReserved last ∧ t.scratch = { s.scratch with last := .put last }) ∨
      (∃ a b c, (i = .dynHeader a b c ∨ i = .dynHeaderTooManyHlit a b c ∨ i = .dynHeaderTooManyHdist a b c) ∧
        t.scratch = { s.scratch with
          hlit := t.scratch.hlit, hdist := t.scratch.hdist, hclen := t.scratch.hclen }) ∨
      (∃ x, i = .clcEntry x ∧
        t.scratch = { s.scratch with clcLens := t.scratch.clcLens, clcIndex := t.scratch.clcIndex }) ∨
      (((∃ x, i = .clLen x) ∨ (∃ x, i = .cl16Extra x) ∨ (∃ x, i = .cl17Extra x) ∨ (∃ x, i = .cl18Extra x)) ∧
        t.scratch = { s.scratch with lens := t.scratch.lens, lensIndex := t.scratch.lensIndex }) ∨
      ((i = .dist0 ∨ i = .dist1 ∨ i = .dist2 ∨ i = .dist3) ∧
        t.scratch = { s.scratch with sym := t.scratch.sym, dist := t.scratch.dist }) ∨
      (∃ n y, i = .distExtra n y ∧ t.scratch = { s.scratch with dist := t.scratch.dist }))

/-- Inside a DECODE a step never writes `IN`, and of `OUT` it writes only the byte at `NEXT_OUT`, and only where there is
output space; a step that writes no byte leaves the window as it is (R60, R62, R244, R277). -/
def Obligations.StepOutputFrame : Prop :=
  ∀ s t : State, s.running = true → step s = .next t →
    t.inMem = s.inMem ∧
    (∀ a, a ≠ s.cur.nextOut → Memory.read t.outMem a = Memory.read s.outMem a) ∧
    (s.cur.availOut = 0 → t.outMem = s.outMem) ∧
    (t.cur.totalOut = s.cur.totalOut → t.outMem = s.outMem ∧ t.win = s.win) ∧
    (t.cur.totalOut = s.cur.totalOut ∨ t.cur.totalOut = (s.cur.totalOut + 1) % 2 ^ s.params.cursorBits)

/-- A DECODE writes only `OUT[NEXT_OUT]` to `OUT[NEXT_OUT + AVAIL_OUT − 1]`, with the values at entry (R62, R277). An index
past `2^CURSOR_BITS` is the wrapped one, as the cursor wraps (R8; log entry 20). -/
def Obligations.DecodeWritesOnlyOffered : Prop :=
  ∀ (k : Nat) (s t : State), s.cursorsOk → s.running = true → runDecode k s = .next t →
    t.inMem = s.inMem ∧
    ∀ a, (∀ j, j < s.cur.availOut → a ≠ (s.cur.nextOut + j) % 2 ^ s.params.cursorBits) →
      Memory.read t.outMem a = Memory.read s.outMem a

/-- The output region is never read (R62, R77): inside a DECODE, two machines that differ only in what `OUT` holds take
the same step, and at every index of `OUT` either both keep what they held or both hold the same. -/
def Obligations.OutputNeverRead : Prop :=
  ∀ (s t : State) (m : Memory), s.running = true → step s = .next t →
    ∃ m', step { s with outMem := m } = .next { t with outMem := m' } ∧
      ∀ a, (Memory.read m' a = Memory.read m a ∧ Memory.read t.outMem a = Memory.read s.outMem a) ∨
        Memory.read m' a = Memory.read t.outMem a

/-- The accounting of a DECODE (R276): after any number of its steps, `NEXT_IN` and `TOTAL_IN` have risen and `AVAIL_IN`
has fallen by the number of bytes consumed, and the three output cursors likewise by the number of bytes produced, with
no more consumed or produced than was offered. The cursors that rise count modulo `2^CURSOR_BITS`. -/
def Obligations.DecodeAccounting : Prop :=
  ∀ (k : Nat) (s t : State), s.cursorsOk → s.running = true → runDecode k s = .next t →
    let w := 2 ^ s.params.cursorBits
    ∃ m n : Nat, m ≤ s.cur.availIn ∧ n ≤ s.cur.availOut ∧
      t.cur = ⟨(s.cur.nextIn + m) % w, s.cur.availIn - m, (s.cur.totalIn + m) % w,
        (s.cur.nextOut + n) % w, s.cur.availOut - n, (s.cur.totalOut + n) % w⟩

/-- Every step keeps the invariant: canonical memories, a window whose bytes up to `WIN_SIZE` back have values, an
accumulator within its bounds, cursors that fit `CURSOR_BITS`, `STATUS` and `MODE` in agreement, and in each mode the
registers that its rule reads written and in range (R7, R22, R30, R33 to R41, R44, R69, R137, R158, R282). -/
def Obligations.StepKeepsInvariant : Prop :=
  ∀ s t : State, s.Inv → step s = .next t → t.Inv

/-- No rule reads an unwritten register, an absent byte or an index out of range (R44, R61, R68): from every state with the
invariant a step inside a DECODE answers a next state, and no step ends in a fault of the model. -/
def Obligations.RunningNeverStops : Prop :=
  ∀ s : State, s.Inv → (s.running = true → ∃ t, step s = .next t) ∧ ∀ f, step s ≠ .fault f

/-- Every step that does not end the DECODE consumes at least one stream bit or emits one byte (R278). -/
def Obligations.ProgressConsumes : Prop :=
  ∀ s t : State, s.Inv → s.running = true → step s = .next t → t.running = true →
    t.upcoming.length + t.cur.availOut < s.upcoming.length + s.cur.availOut ∧
    t.upcoming.length ≤ s.upcoming.length ∧ t.cur.availOut ≤ s.cur.availOut

/-- Every DECODE terminates (R278): from every state with the invariant in which one is in progress, it returns after at
most `8 × AVAIL_IN + BITCNT + AVAIL_OUT + 1` steps. -/
def Obligations.DecodeTerminates : Prop :=
  ∀ s : State, s.Inv → s.running = true →
    ∃ t, runDecode (8 * s.cur.availIn + s.acc.cnt.toNat + s.cur.availOut + 1) s = .next t ∧
      t.running = false

/-- How a DECODE returns (R273, R282): in `DONE` with `END_OF_STREAM`, in `ERROR` with a fault, or suspended with
`STATUS = OK` and either no input or no output space left. -/
def Obligations.DecodeReturns : Prop :=
  ∀ (k : Nat) (s t : State), s.Inv → s.running = true → runDecode k s = .next t → t.running = false →
    (t.mode = .done ∧ t.status = .endOfStream) ∨ (t.mode = .error ∧ ∃ e, t.status = .fault e) ∨
      (t.mode ≠ .done ∧ t.mode ≠ .error ∧ t.status = .ok ∧ (t.cur.availIn = 0 ∨ t.cur.availOut = 0))

/-- Decoding is independent of how the stream is split (R279): let a DECODE return as `t`, and let a DECODE of the same
state that was offered `m` more input bytes and `p` more bytes of output space return as `u`. Then, if the first one only
suspended, taking it up again with those `m` and `p` more returns as `u`: the same output, the same mode, status, totals,
window and pulled bytes. -/
def Obligations.SplitIndependence : Prop :=
  ∀ (j k : Nat) (m p : Nat) (s t u : State), s.Inv → s.running = true →
    runDecode j s = .next t → t.running = false → t.mode ≠ .done → t.mode ≠ .error →
    runDecode k (s.offerMore m p) = .next u → u.running = false →
    ∃ n, runDecode n (t.offerMore m p).resume = .next u

/-- The widths that the machine is built with (R7) never change: no step writes `CURSOR_BITS` or `ACC_BITS`. The other
statements hold for every legal choice of the two. (That they stand in the state is the model's choice, log entry 1.) -/
def Obligations.ParametersFixed : Prop :=
  (∀ s t : State, step s = .next t → t.params = s.params) ∧
  (∀ p : Config.Params, 16 ≤ p.cursorBits ∧ 32 ≤ p.accBits) ∧
  ∀ c a : Nat, 16 ≤ c → 32 ≤ a → ∃ p : Config.Params, p.cursorBits = c ∧ p.accBits = a

end
end

