-- ==== Sys2Proof/Laws/State.lean ====
section
/-! SUPPORT. Laws of State: what each named update does to each field of the state, so that no later proof unfolds an
update. -/

namespace Sys2Proof.Machine

/-! ### Registers -/

@[simp] theorem Reg.put_val {α : Type} (v : α) : (Reg.put v).val = v := rfl
@[simp] theorem Reg.put_written {α : Type} (v : α) : (Reg.put v).written = true := rfl
@[simp] theorem Reg.clear_val {α : Type} (r : Reg α) : r.clear.val = r.val := rfl
@[simp] theorem Reg.clear_written {α : Type} (r : Reg α) : r.clear.written = false := rfl
@[simp] theorem Reg.unwritten_val {α : Type} (v : α) : (Reg.unwritten v).val = v := rfl
@[simp] theorem Reg.unwritten_written {α : Type} (v : α) : (Reg.unwritten v).written = false := rfl

/-- A cleared scratch has no register with a value (R270, R271). -/
theorem noScratchValue_clear (r : Scratch) : noScratchValue r.clear := by simp [noScratchValue, Scratch.clear]

/-- Reading a written register runs what follows with its value. -/
@[simp] theorem readReg_written {α : Type} (name : RegName) (r : Reg α) (k : α → Result) (h : r.written = true) :
    readReg name r k = k r.val := by simp [readReg, h]

/-- Reading an unwritten register is the fault that names it (R44). -/
@[simp] theorem readReg_unwritten {α : Type} (name : RegName) (r : Reg α) (k : α → Result)
    (h : r.written = false) : readReg name r k = .fault (.unwrittenRegister name) := by simp [readReg, h]

/-- A read that is followed by a next state read a written register. -/
theorem readReg_eq_next {α : Type} {name : RegName} {r : Reg α} {k : α → Result} {t : State} :
    readReg name r k = .next t ↔ r.written = true ∧ k r.val = .next t := by
  unfold readReg; split <;> simp_all

/-- Fetching with a written register. -/
@[simp] theorem fetchReg_written {α : Type} (name : RegName) (r : Reg α) (k : α → Fetched)
    (h : r.written = true) : fetchReg name r k = k r.val := by simp [fetchReg, h]

/-! ### Nat arithmetic (R8) -/

theorem lowBits_lt (n v : Nat) : lowBits n v < 2 ^ n := Nat.mod_lt _ (Nat.two_pow_pos n)

theorem lowBits_of_lt {n v : Nat} (h : v < 2 ^ n) : lowBits n v = v := Nat.mod_eq_of_lt h

@[simp] theorem lowBits_lowBits (n v : Nat) : lowBits n (lowBits n v) = lowBits n v := Nat.mod_mod v (2 ^ n)

@[simp] theorem advance_zero (p : Config.Params) (v : Nat) : advance p v 0 = v := rfl

/-- Of a cursor that fits its register, `k` bytes on is `v + k` modulo `2^CURSOR_BITS`. -/
theorem advance_eq_mod {p : Config.Params} {v : Nat} (h : v < 2 ^ p.cursorBits) (k : Nat) :
    advance p v k = (v + k) % 2 ^ p.cursorBits := by
  unfold advance lowBits
  split
  · next h0 => subst h0; exact (Nat.mod_eq_of_lt h).symm
  · rfl

/-- Two moves of a cursor are one. -/
@[simp] theorem advance_advance (p : Config.Params) (v : Nat) (j k : Nat) :
    advance p (advance p v j) k = advance p v (j + k) := by
  rcases Nat.eq_zero_or_pos j with rfl | hj
  · simp
  rcases Nat.eq_zero_or_pos k with rfl | hk
  · simp
  · rw [advance, if_neg (by omega), advance, if_neg (by omega), advance, if_neg (by omega)]
    simp only [lowBits]
    rw [Nat.mod_add_mod, Nat.add_assoc]

theorem advance_lt {p : Config.Params} {v : Nat} (h : v < 2 ^ p.cursorBits) (k : Nat) :
    advance p v k < 2 ^ p.cursorBits := by
  rw [advance_eq_mod h]; exact Nat.mod_lt _ (Nat.two_pow_pos _)

/-- A cursor that moves one byte on changes: its register is at least 16 bits wide (R7). -/
theorem advance_one_ne (p : Config.Params) (v : Nat) : advance p v 1 ≠ v := by
  intro h
  have hlt : v < 2 ^ p.cursorBits := by rw [← h]; exact lowBits_lt _ _
  have h1 : 1 < 2 ^ p.cursorBits := Nat.one_lt_two_pow (by unfold Config.Params.cursorBits; omega)
  rw [advance_eq_mod hlt] at h
  rcases Nat.lt_or_ge (v + 1) (2 ^ p.cursorBits) with h2 | h2
  · rw [Nat.mod_eq_of_lt h2] at h; omega
  · rw [show v + 1 = 2 ^ p.cursorBits by omega, Nat.mod_self] at h; omega

/-- The accumulator is at least 32 bits wide (R7). -/
theorem le_accBits {p : Config.Params} {n : Nat} (h : n ≤ 32) : n ≤ p.accBits := by
  unfold Config.Params.accBits; omega

/-! ### Cursors, accumulator and window -/

@[simp] theorem Cursors.consume_nextIn (p : Config.Params) (c : Cursors) :
    (c.consume p).nextIn = advance p c.nextIn 1 := rfl
@[simp] theorem Cursors.consume_availIn (p : Config.Params) (c : Cursors) :
    (c.consume p).availIn = c.availIn - 1 := rfl
@[simp] theorem Cursors.consume_totalIn (p : Config.Params) (c : Cursors) :
    (c.consume p).totalIn = advance p c.totalIn 1 := rfl
@[simp] theorem Cursors.consume_nextOut (p : Config.Params) (c : Cursors) :
    (c.consume p).nextOut = c.nextOut := rfl
@[simp] theorem Cursors.consume_availOut (p : Config.Params) (c : Cursors) :
    (c.consume p).availOut = c.availOut := rfl
@[simp] theorem Cursors.consume_totalOut (p : Config.Params) (c : Cursors) :
    (c.consume p).totalOut = c.totalOut := rfl

@[simp] theorem Cursors.produce_nextIn (p : Config.Params) (c : Cursors) :
    (c.produce p).nextIn = c.nextIn := rfl
@[simp] theorem Cursors.produce_availIn (p : Config.Params) (c : Cursors) :
    (c.produce p).availIn = c.availIn := rfl
@[simp] theorem Cursors.produce_totalIn (p : Config.Params) (c : Cursors) :
    (c.produce p).totalIn = c.totalIn := rfl
@[simp] theorem Cursors.produce_nextOut (p : Config.Params) (c : Cursors) :
    (c.produce p).nextOut = advance p c.nextOut 1 := rfl
@[simp] theorem Cursors.produce_availOut (p : Config.Params) (c : Cursors) :
    (c.produce p).availOut = c.availOut - 1 := rfl
@[simp] theorem Cursors.produce_totalOut (p : Config.Params) (c : Cursors) :
    (c.produce p).totalOut = advance p c.totalOut 1 := rfl

@[simp] theorem Accumulator.drop_buf (a : Accumulator) (n : Nat) :
    (a.drop n).buf = a.buf >>> n := rfl
@[simp] theorem Accumulator.drop_cnt (a : Accumulator) (n : Nat) :
    (a.drop n).cnt = a.cnt - BitVec.ofNat 6 n := rfl

@[simp] theorem Accumulator.push_buf (p : Config.Params) (a : Accumulator) (b : Byte) :
    (a.push p b).buf = lowBits p.accBits (a.buf ||| (b.toNat <<< a.cnt.toNat)) := rfl
@[simp] theorem Accumulator.push_cnt (p : Config.Params) (a : Accumulator) (b : Byte) :
    (a.push p b).cnt = a.cnt + 8 := rfl

@[simp] theorem Window.push_windowBits (w : Window) (b : Byte) :
    (w.push b).windowBits = w.windowBits := rfl
@[simp] theorem Window.push_mem (w : Window) (b : Byte) :
    (w.push b).mem = Memory.write w.mem w.cursor b := rfl
@[simp] theorem Window.push_cursor (w : Window) (b : Byte) :
    (w.push b).cursor = (w.cursor + 1) % w.capacity := rfl
@[simp] theorem Window.push_size (w : Window) (b : Byte) :
    (w.push b).size = min (w.size + 1) w.capacity := rfl
@[simp] theorem Window.push_capacity (w : Window) (b : Byte) :
    (w.push b).capacity = w.capacity := rfl

@[simp] theorem Window.clear_windowBits (w : Window) :
    (w.clear).windowBits = w.windowBits := rfl
@[simp] theorem Window.clear_mem (w : Window) :
    (w.clear).mem = [] := rfl
@[simp] theorem Window.clear_cursor (w : Window) :
    (w.clear).cursor = 0 := rfl
@[simp] theorem Window.clear_size (w : Window) :
    (w.clear).size = 0 := rfl
@[simp] theorem Window.clear_capacity (w : Window) :
    (w.clear).capacity = w.capacity := rfl

/-! ### `writeLast` -/

@[simp] theorem writeLast_params (last : Bool) (s : State) :
    (writeLast last s).params = s.params := rfl
@[simp] theorem writeLast_constructed (last : Bool) (s : State) :
    (writeLast last s).constructed = s.constructed := rfl
@[simp] theorem writeLast_running (last : Bool) (s : State) :
    (writeLast last s).running = s.running := rfl
@[simp] theorem writeLast_pending (last : Bool) (s : State) :
    (writeLast last s).pending = s.pending := rfl
@[simp] theorem writeLast_inMem (last : Bool) (s : State) :
    (writeLast last s).inMem = s.inMem := rfl
@[simp] theorem writeLast_outMem (last : Bool) (s : State) :
    (writeLast last s).outMem = s.outMem := rfl
@[simp] theorem writeLast_cur (last : Bool) (s : State) :
    (writeLast last s).cur = s.cur := rfl
@[simp] theorem writeLast_status (last : Bool) (s : State) :
    (writeLast last s).status = s.status := rfl
@[simp] theorem writeLast_mode (last : Bool) (s : State) :
    (writeLast last s).mode = s.mode := rfl
@[simp] theorem writeLast_acc (last : Bool) (s : State) :
    (writeLast last s).acc = s.acc := rfl
@[simp] theorem writeLast_scratch (last : Bool) (s : State) :
    (writeLast last s).scratch = { s.scratch with last := .put last } := rfl
@[simp] theorem writeLast_win (last : Bool) (s : State) :
    (writeLast last s).win = s.win := rfl
@[simp] theorem writeLast_freeCount (last : Bool) (s : State) :
    (writeLast last s).freeCount = s.freeCount := rfl

/-! ### `writeCounts` -/

@[simp] theorem writeCounts_params (a b : BitVec 5) (c : BitVec 4) (s : State) :
    (writeCounts a b c s).params = s.params := rfl
@[simp] theorem writeCounts_constructed (a b : BitVec 5) (c : BitVec 4) (s : State) :
    (writeCounts a b c s).constructed = s.constructed := rfl
@[simp] theorem writeCounts_running (a b : BitVec 5) (c : BitVec 4) (s : State) :
    (writeCounts a b c s).running = s.running := rfl
@[simp] theorem writeCounts_pending (a b : BitVec 5) (c : BitVec 4) (s : State) :
    (writeCounts a b c s).pending = s.pending := rfl
@[simp] theorem writeCounts_inMem (a b : BitVec 5) (c : BitVec 4) (s : State) :
    (writeCounts a b c s).inMem = s.inMem := rfl
@[simp] theorem writeCounts_outMem (a b : BitVec 5) (c : BitVec 4) (s : State) :
    (writeCounts a b c s).outMem = s.outMem := rfl
@[simp] theorem writeCounts_cur (a b : BitVec 5) (c : BitVec 4) (s : State) :
    (writeCounts a b c s).cur = s.cur := rfl
@[simp] theorem writeCounts_status (a b : BitVec 5) (c : BitVec 4) (s : State) :
    (writeCounts a b c s).status = s.status := rfl
@[simp] theorem writeCounts_mode (a b : BitVec 5) (c : BitVec 4) (s : State) :
    (writeCounts a b c s).mode = s.mode := rfl
@[simp] theorem writeCounts_acc (a b : BitVec 5) (c : BitVec 4) (s : State) :
    (writeCounts a b c s).acc = s.acc := rfl
@[simp] theorem writeCounts_scratch (a b : BitVec 5) (c : BitVec 4) (s : State) :
    (writeCounts a b c s).scratch = { s.scratch with hlit := .put (hlitOf a), hdist := .put (hdistOf b), hclen := .put (hclenOf c) } := rfl
@[simp] theorem writeCounts_win (a b : BitVec 5) (c : BitVec 4) (s : State) :
    (writeCounts a b c s).win = s.win := rfl
@[simp] theorem writeCounts_freeCount (a b : BitVec 5) (c : BitVec 4) (s : State) :
    (writeCounts a b c s).freeCount = s.freeCount := rfl

/-! ### `dropBits` -/

@[simp] theorem dropBits_params (n : Nat) (s : State) :
    (dropBits n s).params = s.params := rfl
@[simp] theorem dropBits_constructed (n : Nat) (s : State) :
    (dropBits n s).constructed = s.constructed := rfl
@[simp] theorem dropBits_running (n : Nat) (s : State) :
    (dropBits n s).running = s.running := rfl
@[simp] theorem dropBits_pending (n : Nat) (s : State) :
    (dropBits n s).pending = s.pending := rfl
@[simp] theorem dropBits_inMem (n : Nat) (s : State) :
    (dropBits n s).inMem = s.inMem := rfl
@[simp] theorem dropBits_outMem (n : Nat) (s : State) :
    (dropBits n s).outMem = s.outMem := rfl
@[simp] theorem dropBits_cur (n : Nat) (s : State) :
    (dropBits n s).cur = s.cur := rfl
@[simp] theorem dropBits_status (n : Nat) (s : State) :
    (dropBits n s).status = s.status := rfl
@[simp] theorem dropBits_mode (n : Nat) (s : State) :
    (dropBits n s).mode = s.mode := rfl
@[simp] theorem dropBits_acc (n : Nat) (s : State) :
    (dropBits n s).acc = s.acc.drop n := rfl
@[simp] theorem dropBits_scratch (n : Nat) (s : State) :
    (dropBits n s).scratch = s.scratch := rfl
@[simp] theorem dropBits_win (n : Nat) (s : State) :
    (dropBits n s).win = s.win := rfl
@[simp] theorem dropBits_freeCount (n : Nat) (s : State) :
    (dropBits n s).freeCount = s.freeCount := rfl

/-! ### `flush` -/

@[simp] theorem flush_params (s : State) :
    (flush s).params = s.params := rfl
@[simp] theorem flush_constructed (s : State) :
    (flush s).constructed = s.constructed := rfl
@[simp] theorem flush_running (s : State) :
    (flush s).running = s.running := rfl
@[simp] theorem flush_pending (s : State) :
    (flush s).pending = s.pending := rfl
@[simp] theorem flush_inMem (s : State) :
    (flush s).inMem = s.inMem := rfl
@[simp] theorem flush_outMem (s : State) :
    (flush s).outMem = s.outMem := rfl
@[simp] theorem flush_cur (s : State) :
    (flush s).cur = s.cur := rfl
@[simp] theorem flush_status (s : State) :
    (flush s).status = s.status := rfl
@[simp] theorem flush_mode (s : State) :
    (flush s).mode = s.mode := rfl
@[simp] theorem flush_acc (s : State) :
    (flush s).acc = ⟨0, 0⟩ := rfl
@[simp] theorem flush_scratch (s : State) :
    (flush s).scratch = s.scratch := rfl
@[simp] theorem flush_win (s : State) :
    (flush s).win = s.win := rfl
@[simp] theorem flush_freeCount (s : State) :
    (flush s).freeCount = s.freeCount := rfl

/-! ### `flushByte` -/

@[simp] theorem flushByte_params (s : State) :
    (flushByte s).params = s.params := rfl
@[simp] theorem flushByte_constructed (s : State) :
    (flushByte s).constructed = s.constructed := rfl
@[simp] theorem flushByte_running (s : State) :
    (flushByte s).running = s.running := rfl
@[simp] theorem flushByte_pending (s : State) :
    (flushByte s).pending = s.pending := rfl
@[simp] theorem flushByte_inMem (s : State) :
    (flushByte s).inMem = s.inMem := rfl
@[simp] theorem flushByte_outMem (s : State) :
    (flushByte s).outMem = s.outMem := rfl
@[simp] theorem flushByte_cur (s : State) :
    (flushByte s).cur = s.cur := rfl
@[simp] theorem flushByte_status (s : State) :
    (flushByte s).status = s.status := rfl
@[simp] theorem flushByte_mode (s : State) :
    (flushByte s).mode = s.mode := rfl
@[simp] theorem flushByte_acc (s : State) :
    (flushByte s).acc = s.acc.drop (s.acc.cnt.toNat % 8) := rfl
@[simp] theorem flushByte_scratch (s : State) :
    (flushByte s).scratch = s.scratch := rfl
@[simp] theorem flushByte_win (s : State) :
    (flushByte s).win = s.win := rfl
@[simp] theorem flushByte_freeCount (s : State) :
    (flushByte s).freeCount = s.freeCount := rfl

/-! ### `emit` -/

@[simp] theorem emit_params (b : Byte) (s : State) :
    (emit b s).params = s.params := rfl
@[simp] theorem emit_constructed (b : Byte) (s : State) :
    (emit b s).constructed = s.constructed := rfl
@[simp] theorem emit_running (b : Byte) (s : State) :
    (emit b s).running = s.running := rfl
@[simp] theorem emit_pending (b : Byte) (s : State) :
    (emit b s).pending = s.pending := rfl
@[simp] theorem emit_inMem (b : Byte) (s : State) :
    (emit b s).inMem = s.inMem := rfl
@[simp] theorem emit_outMem (b : Byte) (s : State) :
    (emit b s).outMem = Memory.write s.outMem s.cur.nextOut b := rfl
@[simp] theorem emit_cur (b : Byte) (s : State) :
    (emit b s).cur = s.cur.produce s.params := rfl
@[simp] theorem emit_status (b : Byte) (s : State) :
    (emit b s).status = s.status := rfl
@[simp] theorem emit_mode (b : Byte) (s : State) :
    (emit b s).mode = s.mode := rfl
@[simp] theorem emit_acc (b : Byte) (s : State) :
    (emit b s).acc = s.acc := rfl
@[simp] theorem emit_scratch (b : Byte) (s : State) :
    (emit b s).scratch = s.scratch := rfl
@[simp] theorem emit_win (b : Byte) (s : State) :
    (emit b s).win = s.win.push b := rfl
@[simp] theorem emit_freeCount (b : Byte) (s : State) :
    (emit b s).freeCount = s.freeCount := rfl

/-! ### `freshStream` -/

@[simp] theorem freshStream_params (s : State) :
    (freshStream s).params = s.params := rfl
@[simp] theorem freshStream_constructed (s : State) :
    (freshStream s).constructed = s.constructed := rfl
@[simp] theorem freshStream_running (s : State) :
    (freshStream s).running = false := rfl
@[simp] theorem freshStream_pending (s : State) :
    (freshStream s).pending = s.pending := rfl
@[simp] theorem freshStream_inMem (s : State) :
    (freshStream s).inMem = s.inMem := rfl
@[simp] theorem freshStream_outMem (s : State) :
    (freshStream s).outMem = s.outMem := rfl
@[simp] theorem freshStream_cur (s : State) :
    (freshStream s).cur = { s.cur with totalIn := 0, totalOut := 0 } := rfl
@[simp] theorem freshStream_status (s : State) :
    (freshStream s).status = .ok := rfl
@[simp] theorem freshStream_mode (s : State) :
    (freshStream s).mode = .header := rfl
@[simp] theorem freshStream_acc (s : State) :
    (freshStream s).acc = ⟨0, 0⟩ := rfl
@[simp] theorem freshStream_scratch (s : State) :
    (freshStream s).scratch = s.scratch.clear := rfl
@[simp] theorem freshStream_win (s : State) :
    (freshStream s).win = s.win := rfl
@[simp] theorem freshStream_freeCount (s : State) :
    (freshStream s).freeCount = s.freeCount := rfl

/-! ### `offer` -/

@[simp] theorem offer_params (a : DecodeArgs) (s : State) :
    (offer a s).params = s.params := rfl
@[simp] theorem offer_constructed (a : DecodeArgs) (s : State) :
    (offer a s).constructed = s.constructed := rfl
@[simp] theorem offer_running (a : DecodeArgs) (s : State) :
    (offer a s).running = s.running := rfl
@[simp] theorem offer_pending (a : DecodeArgs) (s : State) :
    (offer a s).pending = s.pending := rfl
@[simp] theorem offer_inMem (a : DecodeArgs) (s : State) :
    (offer a s).inMem = .ofBytes a.inRegion.bytes := rfl
@[simp] theorem offer_outMem (a : DecodeArgs) (s : State) :
    (offer a s).outMem = .ofBytes a.outRegion.bytes := rfl
@[simp] theorem offer_cur (a : DecodeArgs) (s : State) :
    (offer a s).cur = { s.cur with nextIn := a.nextIn, availIn := a.availIn, nextOut := a.nextOut, availOut := a.availOut } := rfl
@[simp] theorem offer_status (a : DecodeArgs) (s : State) :
    (offer a s).status = s.status := rfl
@[simp] theorem offer_mode (a : DecodeArgs) (s : State) :
    (offer a s).mode = s.mode := rfl
@[simp] theorem offer_acc (a : DecodeArgs) (s : State) :
    (offer a s).acc = s.acc := rfl
@[simp] theorem offer_scratch (a : DecodeArgs) (s : State) :
    (offer a s).scratch = s.scratch := rfl
@[simp] theorem offer_win (a : DecodeArgs) (s : State) :
    (offer a s).win = s.win := rfl
@[simp] theorem offer_freeCount (a : DecodeArgs) (s : State) :
    (offer a s).freeCount = s.freeCount := rfl

/-! ### `State.offerMore` -/

@[simp] theorem State.offerMore_params (m p : Nat) (s : State) :
    (s.offerMore m p).params = s.params := rfl
@[simp] theorem State.offerMore_constructed (m p : Nat) (s : State) :
    (s.offerMore m p).constructed = s.constructed := rfl
@[simp] theorem State.offerMore_running (m p : Nat) (s : State) :
    (s.offerMore m p).running = s.running := rfl
@[simp] theorem State.offerMore_pending (m p : Nat) (s : State) :
    (s.offerMore m p).pending = s.pending := rfl
@[simp] theorem State.offerMore_inMem (m p : Nat) (s : State) :
    (s.offerMore m p).inMem = s.inMem := rfl
@[simp] theorem State.offerMore_outMem (m p : Nat) (s : State) :
    (s.offerMore m p).outMem = s.outMem := rfl
@[simp] theorem State.offerMore_cur (m p : Nat) (s : State) :
    (s.offerMore m p).cur = { s.cur with availIn := s.cur.availIn + m, availOut := s.cur.availOut + p } := rfl
@[simp] theorem State.offerMore_status (m p : Nat) (s : State) :
    (s.offerMore m p).status = s.status := rfl
@[simp] theorem State.offerMore_mode (m p : Nat) (s : State) :
    (s.offerMore m p).mode = s.mode := rfl
@[simp] theorem State.offerMore_acc (m p : Nat) (s : State) :
    (s.offerMore m p).acc = s.acc := rfl
@[simp] theorem State.offerMore_scratch (m p : Nat) (s : State) :
    (s.offerMore m p).scratch = s.scratch := rfl
@[simp] theorem State.offerMore_win (m p : Nat) (s : State) :
    (s.offerMore m p).win = s.win := rfl
@[simp] theorem State.offerMore_freeCount (m p : Nat) (s : State) :
    (s.offerMore m p).freeCount = s.freeCount := rfl

/-! ### `State.resume` -/

@[simp] theorem State.resume_params (s : State) :
    (s.resume).params = s.params := rfl
@[simp] theorem State.resume_constructed (s : State) :
    (s.resume).constructed = s.constructed := rfl
@[simp] theorem State.resume_running (s : State) :
    (s.resume).running = true := rfl
@[simp] theorem State.resume_pending (s : State) :
    (s.resume).pending = s.pending := rfl
@[simp] theorem State.resume_inMem (s : State) :
    (s.resume).inMem = s.inMem := rfl
@[simp] theorem State.resume_outMem (s : State) :
    (s.resume).outMem = s.outMem := rfl
@[simp] theorem State.resume_cur (s : State) :
    (s.resume).cur = s.cur := rfl
@[simp] theorem State.resume_status (s : State) :
    (s.resume).status = s.status := rfl
@[simp] theorem State.resume_mode (s : State) :
    (s.resume).mode = s.mode := rfl
@[simp] theorem State.resume_acc (s : State) :
    (s.resume).acc = s.acc := rfl
@[simp] theorem State.resume_scratch (s : State) :
    (s.resume).scratch = s.scratch := rfl
@[simp] theorem State.resume_win (s : State) :
    (s.resume).win = s.win := rfl
@[simp] theorem State.resume_freeCount (s : State) :
    (s.resume).freeCount = s.freeCount := rfl

/-! ### The ways a step ends -/

@[simp] theorem goto_eq_next {m : Mode} {s t : State} : goto m s = .next t ↔ t = { s with mode := m } := by
  simp [goto, eq_comm]

@[simp] theorem suspend_eq_next {s t : State} :
    suspend s = .next t ↔ t = { s with status := .ok, running := false } := by simp [suspend, eq_comm]

@[simp] theorem raise_eq_next {e : StreamFault} {s t : State} :
    raise e s = .next t ↔ t = { s with mode := .error, status := .fault e, running := false } := by
  simp [raise, eq_comm]

@[simp] theorem finish_eq_next {s t : State} :
    finish s = .next t ↔ t = { s with mode := .done, status := .endOfStream, running := false } := by
  simp [finish, eq_comm]

/-- What the end of a block can do (R186). -/
theorem endBlock_eq_next {s t : State} : endBlock s = .next t ↔ s.scratch.last.written = true ∧
    (s.scratch.last.val = true ∧ t = { s with mode := .done, status := .endOfStream, running := false } ∨
      s.scratch.last.val = false ∧ t = { s with mode := .header }) := by
  rw [endBlock, readReg_eq_next]
  cases s.scratch.last.val <;> simp

end Sys2Proof.Machine
end

