-- ==== Sys2Proof/Laws/Memory.lean ====
section
/-! SUPPORT. Laws of the byte spaces: read after write, and that every operation keeps the canonical form. -/

namespace Sys2Proof.Machine

/-- Reading after a write: the byte written at its index, and every other index as before. -/
theorem Memory.read_write (m : Memory) (a : Nat) (b : Byte) (x : Nat) :
    Memory.read (Memory.write m a b) x = if x = a then some b else Memory.read m x := by
  induction m with
  | nil => simp [Memory.write, Memory.read, eq_comm]
  | cons c m ih =>
    unfold Memory.write
    split
    · simp [Memory.read, eq_comm]
    · split
      · next h => subst h; simp only [Memory.read]; split <;> simp_all [eq_comm]
      · simp only [Memory.read, ih]
        split <;> split <;> simp_all

@[simp] theorem Memory.read_write_self (m : Memory) (a : Nat) (b : Byte) :
    Memory.read (Memory.write m a b) a = some b := by simp [Memory.read_write]

theorem Memory.read_write_of_ne (m : Memory) {a x : Nat} (b : Byte) (h : x ≠ a) :
    Memory.read (Memory.write m a b) x = Memory.read m x := by simp [Memory.read_write, h]

/-- The cells after a write are the written one and old ones. -/
theorem Memory.mem_write {m : Memory} {a : Nat} {b : Byte} {c : Host.Cell} (h : c ∈ Memory.write m a b) :
    c = (a, b) ∨ c ∈ m := by
  induction m with
  | nil => simpa [Memory.write] using h
  | cons d m ih =>
    unfold Memory.write at h
    split at h
    · simpa using h
    · split at h
      · simp only [List.mem_cons] at h ⊢; tauto
      · simp only [List.mem_cons] at h ⊢
        rcases h with h | h
        · exact .inr (.inl h)
        · rcases ih h with h | h <;> tauto

/-- A write keeps the canonical form. -/
theorem Memory.wf_write {m : Memory} (h : Memory.wf m) (a : Nat) (b : Byte) : Memory.wf (Memory.write m a b) := by
  induction m with
  | nil => simp [Memory.write, Memory.wf]
  | cons c m ih =>
    have hc := List.pairwise_cons.1 h
    unfold Memory.write
    split
    · next hlt =>
      refine List.pairwise_cons.2 ⟨fun d hd => ?_, h⟩
      rcases List.mem_cons.1 hd with rfl | hd
      · exact hlt
      · exact hlt.trans (hc.1 d hd)
    · split
      · next heq => exact List.pairwise_cons.2 ⟨fun d hd => heq ▸ hc.1 d hd, hc.2⟩
      · refine List.pairwise_cons.2 ⟨fun d hd => ?_, ih hc.2⟩
        rcases Memory.mem_write hd with rfl | hd
        · dsimp only; omega
        · exact hc.1 d hd

theorem Memory.le_of_mem_fromIndex {k : Nat} {bs : List Byte} {c : Host.Cell} (h : c ∈ Memory.fromIndex k bs) :
    k ≤ c.1 := by
  induction bs generalizing k with
  | nil => simp [Memory.fromIndex] at h
  | cons b bs ih =>
    simp only [Memory.fromIndex, List.mem_cons] at h
    rcases h with rfl | h
    · exact Nat.le_refl k
    · exact Nat.le_of_succ_le (ih h)

/-- A region's byte space is canonical. -/
theorem Memory.wf_fromIndex (k : Nat) (bs : List Byte) : Memory.wf (Memory.fromIndex k bs) := by
  induction bs generalizing k with
  | nil => simp [Memory.fromIndex, Memory.wf]
  | cons b bs ih =>
    exact List.pairwise_cons.2 ⟨fun c hc => Memory.le_of_mem_fromIndex hc, ih (k + 1)⟩

theorem Memory.wf_ofBytes (bs : List Byte) : Memory.wf (Memory.ofBytes bs) := Memory.wf_fromIndex 0 bs

theorem Memory.read_fromIndex (k : Nat) (bs : List Byte) (i : Nat) :
    Memory.read (Memory.fromIndex k bs) (k + i) = bs[i]? := by
  induction bs generalizing k i with
  | nil => simp [Memory.fromIndex, Memory.read]
  | cons b bs ih =>
    cases i with
    | zero => simp [Memory.fromIndex, Memory.read]
    | succ i =>
      have := ih (k + 1) i
      simp only [Memory.fromIndex, Memory.read, List.getElem?_cons_succ]
      rw [if_neg (by omega), ← this]; congr 1; omega

/-- A region's byte space reads as the region's bytes (R60, R272). -/
@[simp] theorem Memory.read_ofBytes (bs : List Byte) (i : Nat) : Memory.read (Memory.ofBytes bs) i = bs[i]? := by
  have := Memory.read_fromIndex 0 bs i
  simpa [Memory.ofBytes] using this

end Sys2Proof.Machine
end

