-- ==== Sys2Proof/Laws/Window.lean ====
section
/-! SUPPORT. Laws of the sliding window: what a push does to the bytes behind the cursor (R66 to R69), and that it
keeps the window in order. -/

namespace Sys2Proof.Machine

theorem Window.capacity_pos (w : Window) : 0 < w.capacity := Nat.two_pow_pos _

theorem Window.backIndex_lt (w : Window) (d : Nat) : w.backIndex d < w.capacity :=
  Nat.mod_lt _ w.capacity_pos

/-- The index behind the new cursor is the index behind the old one at one less (R66, R68). -/
theorem Window.backIndex_push (w : Window) (b : Byte) (d : Nat) (hd : 1 ≤ d) (hW : d ≤ w.capacity)
    (hc : w.cursor < w.capacity) : (w.push b).backIndex d = if d = 1 then w.cursor else w.backIndex (d - 1) := by
  have hpos := w.capacity_pos
  simp only [Window.backIndex, Window.push_capacity, Window.push_cursor]
  generalize w.capacity = W at *
  generalize w.cursor = c at *
  have h1 : ((c + 1) % W + (W - d % W)) % W = (c + 1 + (W - d % W)) % W := by
    rw [Nat.add_mod, Nat.mod_mod, ← Nat.add_mod]
  rw [h1]
  split
  · next h =>
    subst h
    rcases Nat.lt_or_ge 1 W with hW1 | hW1
    · rw [Nat.mod_eq_of_lt hW1, show c + 1 + (W - 1) = c + W by omega, Nat.add_mod_right, Nat.mod_eq_of_lt hc]
    · have : W = 1 := by omega
      subst this; omega
  · next h =>
    have hd1 : (d - 1) % W = d - 1 := Nat.mod_eq_of_lt (by omega)
    rw [hd1]
    rcases Nat.lt_or_ge d W with hdW | hdW
    · rw [Nat.mod_eq_of_lt hdW]; congr 1; omega
    · have : d = W := by omega
      subst this
      rw [Nat.mod_self, show c + 1 + (d - 0) = c + (d - (d - 1)) + d by omega, Nat.add_mod_right]

/-- Within the capacity, two distances are the same index only if they are equal. -/
theorem Window.backIndex_ne_cursor (w : Window) (d : Nat) (hd : 1 ≤ d) (hW : d < w.capacity)
    (hc : w.cursor < w.capacity) : w.backIndex d ≠ w.cursor := by
  simp only [Window.backIndex]
  generalize w.capacity = W at *
  rw [Nat.mod_eq_of_lt hW]
  rcases Nat.lt_or_ge (w.cursor + (W - d)) W with h | h
  · rw [Nat.mod_eq_of_lt h]; omega
  · rw [Nat.mod_eq_sub_mod h, Nat.mod_eq_of_lt (by omega)]; omega

/-- The byte just emitted is the one at distance 1 (R69). -/
theorem Window.read_push_one (w : Window) (b : Byte) (hc : w.cursor < w.capacity) :
    Memory.read (w.push b).mem ((w.push b).backIndex 1) = some b := by
  rw [Window.backIndex_push w b 1 (Nat.le_refl 1) w.capacity_pos hc]; simp

/-- Every older byte is one position further back, as long as it is not overwritten (R67, R69). -/
theorem Window.read_push_succ (w : Window) (b : Byte) (d : Nat) (hd : 1 ≤ d) (hW : d < w.capacity)
    (hc : w.cursor < w.capacity) :
    Memory.read (w.push b).mem ((w.push b).backIndex (d + 1)) = Memory.read w.mem (w.backIndex d) := by
  rw [Window.backIndex_push w b (d + 1) (by omega) (by omega) hc, if_neg (by omega), Nat.add_sub_cancel,
    Window.push_mem, Memory.read_write_of_ne _ _ (Window.backIndex_ne_cursor w d hd hW hc)]

/-- Emitting a byte keeps the window in order (R41, R66, R67). -/
theorem Window.ok_push {w : Window} (h : w.ok) (b : Byte) : (w.push b).ok := by
  obtain ⟨hwf, hlt, hc, hs, hr⟩ := h
  refine ⟨Memory.wf_write hwf _ _, fun c hm => ?_, Nat.mod_lt _ w.capacity_pos, Nat.min_le_right _ _,
    fun d hd hds => ?_⟩
  · rcases Memory.mem_write hm with rfl | hm
    · exact hc
    · exact hlt c hm
  · rw [Window.push_size] at hds
    have hdW : d ≤ w.capacity := hds.trans (Nat.min_le_right _ _)
    rcases Nat.eq_or_lt_of_le hd with rfl | hd1
    · rw [Window.read_push_one w b hc]; rfl
    · obtain ⟨e, rfl⟩ : ∃ e, d = e + 1 := ⟨d - 1, by omega⟩
      rw [Window.read_push_succ w b e (by omega) (by omega) hc]
      exact hr e (by omega) (by omega)

/-- A cleared window is in order (R70). -/
theorem Window.ok_clear (w : Window) : w.clear.ok := by
  refine ⟨by simp [Memory.wf], by simp, w.capacity_pos, Nat.zero_le _, fun d hd hds => ?_⟩
  simp at hds; omega

/-- A valid back-reference reads the byte that is there (R68). -/
theorem winBack_eq_ok {d : Nat} {s : State} {b : Byte} :
    winBack d s = .ok b ↔ 1 ≤ d ∧ d ≤ s.win.size ∧ Memory.read s.win.mem (s.win.backIndex d) = some b := by
  unfold winBack
  split
  · next h => cases hr : Memory.read s.win.mem (s.win.backIndex d) <;> simp [h]
  · next h => simp; intro h1 h2; exact absurd ⟨h1, h2⟩ h

/-- In an orderly window every distance up to `WIN_SIZE` can be read (R69). -/
theorem winBack_isOk {d : Nat} {s : State} (h : s.win.ok) (h1 : 1 ≤ d) (h2 : d ≤ s.win.size) :
    ∃ b, winBack d s = .ok b := by
  obtain ⟨b, hb⟩ := Option.isSome_iff_exists.1 (h.2.2.2.2 d h1 h2)
  exact ⟨b, winBack_eq_ok.2 ⟨h1, h2, hb⟩⟩

end Sys2Proof.Machine
end

