-- ==== Sys2Proof/Laws/Reader.lean ====
section
/-! SUPPORT. Laws of the bit reader: what pulling, `ensure`, `read` and `drop` do to the state and to the bits of the
stream (`40_bit_reader.md`). -/

namespace Sys2Proof.Machine

/-! ### Bits of a number in stream order -/

@[simp] theorem fieldBits_length (n v : Nat) : (fieldBits n v).length = n := by
  induction n generalizing v with
  | zero => rfl
  | succ n ih => simp [fieldBits, ih]

theorem fieldBits_add (m n v : Nat) : fieldBits (m + n) v = fieldBits m v ++ fieldBits n (v / 2 ^ m) := by
  induction m generalizing v with
  | zero => simp [fieldBits]
  | succ m ih =>
    rw [Nat.add_right_comm, fieldBits, fieldBits, ih, Nat.div_div_eq_div_mul, List.cons_append, ← Nat.pow_succ']

theorem fieldBits_mod (n v k : Nat) (h : n ≤ k) : fieldBits n (v % 2 ^ k) = fieldBits n v := by
  induction n generalizing v k with
  | zero => rfl
  | succ n ih =>
    obtain ⟨k, rfl⟩ : ∃ j, k = j + 1 := ⟨k - 1, by omega⟩
    have h1 : v % 2 ^ (k + 1) % 2 = v % 2 := by
      rw [Nat.pow_succ', Nat.mod_mul_right_mod]
    have h2 : v % 2 ^ (k + 1) / 2 = v / 2 % 2 ^ k := by
      rw [Nat.pow_succ', Nat.mod_mul_right_div_self]
    rw [fieldBits, fieldBits, h1, h2, ih _ _ (by omega)]

@[simp] theorem bitsValue_fieldBits (n v : Nat) : bitsValue (fieldBits n v) = v % 2 ^ n := by
  induction n generalizing v with
  | zero => simp [fieldBits, bitsValue, Nat.mod_one]
  | succ n ih =>
    rw [fieldBits, bitsValue, ih, Nat.pow_succ', Nat.mod_mul]
    rcases Nat.mod_two_eq_zero_or_one v with h | h <;> simp [h]

theorem fieldBits_take (m n v : Nat) (h : m ≤ n) : (fieldBits n v).take m = fieldBits m v := by
  obtain ⟨k, rfl⟩ := Nat.exists_eq_add_of_le h
  rw [fieldBits_add, List.take_left' (fieldBits_length _ _)]

theorem fieldBits_drop (m n v : Nat) (h : m ≤ n) : (fieldBits n v).drop m = fieldBits (n - m) (v / 2 ^ m) := by
  obtain ⟨k, rfl⟩ := Nat.exists_eq_add_of_le h
  rw [fieldBits_add, List.drop_left' (fieldBits_length _ _), Nat.add_sub_cancel_left]

theorem bitsValue_lt (l : List Bool) : bitsValue l < 2 ^ l.length := by
  induction l with
  | nil => simp [bitsValue]
  | cons b l ih =>
    rw [bitsValue, List.length_cons, Nat.pow_succ']
    cases b <;> simp <;> omega

/-! ### Pulling -/

/-- `t` is `s` after `k` pulls, each made while input was offered. -/
inductive Pulled : State → Nat → State → Prop where
  | refl (s : State) : Pulled s 0 s
  | step {s t : State} {k : Nat} {b : Byte} (hin : s.cur.availIn ≠ 0)
      (hb : Memory.read s.inMem s.cur.nextIn = some b)
      (ht : Pulled { s with acc := s.acc.push s.params b, cur := s.cur.consume s.params } k t) : Pulled s (k + 1) t

theorem pull_eq_ok {s t : State} : pull s = .ok t ↔ ∃ b, Memory.read s.inMem s.cur.nextIn = some b ∧
    t = { s with acc := s.acc.push s.params b, cur := s.cur.consume s.params } := by
  unfold pull readIn
  cases Memory.read s.inMem s.cur.nextIn <;> simp [eq_comm]

theorem pull_eq_error {s : State} {f : Fault} : pull s = .error f ↔
    Memory.read s.inMem s.cur.nextIn = none ∧ f = .absentInputByte s.cur.nextIn := by
  unfold pull readIn
  cases Memory.read s.inMem s.cur.nextIn <;> simp [eq_comm]

/-- Pulling changes the accumulator and the input cursors, and nothing else (R130). -/
theorem Pulled.frame {s t : State} {k : Nat} (h : Pulled s k t) :
    t = { s with acc := t.acc, cur := { t.cur with
      nextOut := s.cur.nextOut, availOut := s.cur.availOut, totalOut := s.cur.totalOut } } := by
  induction h with
  | refl => rfl
  | step _ _ _ ih => rw [ih]; rfl

theorem Pulled.availIn {s t : State} {k : Nat} (h : Pulled s k t) :
    t.cur.availIn + k = s.cur.availIn := by
  induction h with
  | refl => rfl
  | step hin _ _ ih =>
    simp only [Cursors.consume_availIn] at ih
    omega

theorem Pulled.nextIn {s t : State} {k : Nat} (h : Pulled s k t) :
    t.cur.nextIn = advance s.params s.cur.nextIn k := by
  induction h with
  | refl => rfl
  | @step _ _ k _ _ _ _ ih => rw [ih]; simp [Nat.add_comm k]

theorem Pulled.totalIn {s t : State} {k : Nat} (h : Pulled s k t) :
    t.cur.totalIn = advance s.params s.cur.totalIn k := by
  induction h with
  | refl => rfl
  | @step _ _ k _ _ _ _ ih => rw [ih]; simp [Nat.add_comm k]

theorem Pulled.cnt {s t : State} {k : Nat} (h : Pulled s k t) :
    t.acc.cnt = s.acc.cnt + BitVec.ofNat 6 (8 * k) := by
  induction h with
  | refl => simp
  | step _ _ _ ih => rw [ih]; simp only [Accumulator.push_cnt]; bv_omega

theorem Pulled.cnt_toNat {s t : State} {k : Nat} (h : Pulled s k t) (hk : s.acc.cnt.toNat + 8 * k < 64) :
    t.acc.cnt.toNat = s.acc.cnt.toNat + 8 * k := by
  rw [h.cnt, BitVec.toNat_add, BitVec.toNat_ofNat]; omega

theorem Pulled.trans {s t u : State} {j k : Nat} (h1 : Pulled s j t) (h2 : Pulled t k u) : Pulled s (j + k) u := by
  induction h1 with
  | refl => simpa using h2
  | step hin hb _ ih => rw [Nat.add_right_comm]; exact .step hin hb (ih h2)

theorem Pulled.unique {s t u : State} {k : Nat} (h1 : Pulled s k t) (h2 : Pulled s k u) : t = u := by
  induction h1 with
  | refl => cases h2; rfl
  | step _ hb _ ih =>
    cases h2 with
    | step _ hb' h2 => rw [hb] at hb'; cases hb'; exact ih h2

/-- The state `k` pulls on, as `State.pulled` computes it. -/
theorem Pulled.eq_pulled {s t : State} {k : Nat} (h : Pulled s k t) : t = State.pulled k s := by
  induction h with
  | refl => rfl
  | step _ hb _ ih =>
    rw [State.pulled, pull_eq_ok.2 ⟨_, hb, rfl⟩]; exact ih

/-- Every byte offered is there (R272). -/
def State.offersAll (s : State) : Prop := ∀ k, k < s.cur.availIn →
  (Memory.read s.inMem (advance s.params s.cur.nextIn k)).isSome

theorem State.offersAll.consume {s : State} (h : s.offersAll) (a : Accumulator) :
    ({ s with acc := a, cur := s.cur.consume s.params } : State).offersAll := by
  intro k hk
  simp only [Cursors.consume_availIn, Cursors.consume_nextIn] at hk ⊢
  have := h (k + 1) (by omega)
  rwa [advance_advance, Nat.add_comm 1 k]

/-- As many bytes can be pulled as are offered. -/
theorem exists_pulled {s : State} (h : s.offersAll) {k : Nat} (hk : k ≤ s.cur.availIn) :
    ∃ t, Pulled s k t := by
  induction k generalizing s with
  | zero => exact ⟨s, .refl s⟩
  | succ k ih =>
    have hin : s.cur.availIn ≠ 0 := by intro h0; rw [h0] at hk; simp at hk
    obtain ⟨b, hb⟩ := Option.isSome_iff_exists.1 (h 0 (by omega))
    rw [advance_zero] at hb
    obtain ⟨t, ht⟩ := ih (h.consume (s.acc.push s.params b)) (by
      simp only [Cursors.consume_availIn]; omega)
    exact ⟨t, .step hin hb ht⟩

theorem Pulled.offersAll {s t : State} {k : Nat} (h : Pulled s k t) (hs : s.offersAll) : t.offersAll := by
  induction h with
  | refl => exact hs
  | step _ _ _ ih => exact ih (hs.consume _)

/-! ### `ensure` -/

/-- What the pulling loop can answer. -/
theorem ensureLoop_inv {k : Nat} {s t : State} {r : Bool} (h : ensureLoop k s = .ok (r, t)) :
    (r = true ∧ Pulled s k t) ∨ (r = false ∧ t.cur.availIn = 0 ∧ ∃ j, j < k ∧ Pulled s j t) := by
  induction k generalizing s with
  | zero => simp only [ensureLoop, Except.ok.injEq, Prod.mk.injEq] at h; obtain ⟨rfl, rfl⟩ := h; exact .inl ⟨rfl, .refl s⟩
  | succ k ih =>
    rw [ensureLoop] at h
    split at h
    · next h0 =>
      simp only [Except.ok.injEq, Prod.mk.injEq] at h; obtain ⟨rfl, rfl⟩ := h
      exact .inr ⟨rfl, h0, 0, Nat.succ_pos k, .refl s⟩
    · next hin =>
      split at h
      · next s' hp =>
        obtain ⟨b, hb, rfl⟩ := pull_eq_ok.1 hp
        rcases ih h with ⟨hr, ht⟩ | ⟨hr, h0, j, hj, ht⟩
        · exact .inl ⟨hr, .step hin hb ht⟩
        · exact .inr ⟨hr, h0, j + 1, by omega, .step hin hb ht⟩
      · simp at h

theorem ensureLoop_true {k : Nat} {s t : State} (h : Pulled s k t) : ensureLoop k s = .ok (true, t) := by
  induction h with
  | refl => rfl
  | step hin hb _ ih => rw [ensureLoop, if_neg hin, pull_eq_ok.2 ⟨_, hb, rfl⟩]; exact ih

theorem ensureLoop_false {j k : Nat} {s t : State} (h : Pulled s j t) (h0 : t.cur.availIn = 0) (hjk : j < k) :
    ensureLoop k s = .ok (false, t) := by
  induction h generalizing k with
  | refl =>
    obtain ⟨k, rfl⟩ : ∃ i, k = i + 1 := ⟨k - 1, by omega⟩
    rw [ensureLoop, if_pos h0]
  | step hin hb _ ih =>
    obtain ⟨k, rfl⟩ : ∃ i, k = i + 1 := ⟨k - 1, by omega⟩
    rw [ensureLoop, if_neg hin, pull_eq_ok.2 ⟨_, hb, rfl⟩]; exact ih h0 (by omega)

/-- `ensure(n)` answers `true` after the pulls that `n` bits need (R131). -/
theorem ensure_true {n : Nat} {s t : State} (h : Pulled s (pullsNeeded n s) t) : ensure n s = .ok (true, t) :=
  ensureLoop_true h

/-- `ensure(n)` answers `false` with every offered byte pulled, where they are too few (R131). -/
theorem ensure_false {n j : Nat} {s t : State} (h : Pulled s j t) (h0 : t.cur.availIn = 0)
    (hj : j < pullsNeeded n s) : ensure n s = .ok (false, t) := ensureLoop_false h h0 hj

theorem ensure_inv {n : Nat} {s t : State} {r : Bool} (h : ensure n s = .ok (r, t)) :
    (r = true ∧ Pulled s (pullsNeeded n s) t) ∨
      (r = false ∧ t.cur.availIn = 0 ∧ ∃ j, j < pullsNeeded n s ∧ Pulled s j t) := ensureLoop_inv h

/-- With every offered byte there, `ensure` answers (R131: the bit reader never faults). -/
theorem ensure_total {n : Nat} {s : State} (h : s.offersAll) : ∃ r t, ensure n s = .ok (r, t) := by
  rcases Nat.lt_or_ge s.cur.availIn (pullsNeeded n s) with hlt | hge
  · obtain ⟨t, ht⟩ := exists_pulled h (Nat.le_refl _)
    have := ht.availIn
    exact ⟨false, t, ensure_false ht (by bv_omega) hlt⟩
  · obtain ⟨t, ht⟩ := exists_pulled h hge
    exact ⟨true, t, ensure_true ht⟩

theorem pullsNeeded_spec (n : Nat) (s : State) :
    n ≤ s.acc.cnt.toNat + 8 * pullsNeeded n s ∧
      (0 < pullsNeeded n s → s.acc.cnt.toNat + 8 * pullsNeeded n s < n + 8) := by
  unfold pullsNeeded; omega

/-- After a successful `ensure(n)` the accumulator holds at least `n` bits, and less than 8 more than it needs
unless it held them before (R137). -/
theorem ensure_cnt {n : Nat} {s t : State} (hn : n ≤ 32) (h : Pulled s (pullsNeeded n s) t) :
    n ≤ t.acc.cnt.toNat ∧ t.acc.cnt.toNat = s.acc.cnt.toNat + 8 * pullsNeeded n s ∧
      (t.acc.cnt.toNat < n + 8 ∨ t.acc.cnt = s.acc.cnt) := by
  have hs := pullsNeeded_spec n s
  have hb := s.acc.cnt.isLt
  rcases Nat.eq_zero_or_pos (pullsNeeded n s) with h0 | hpos
  · rw [h0] at h hs; cases h; simp [h0] at hs ⊢; exact hs
  · have := h.cnt_toNat (by have := hs.2 hpos; omega)
    have := hs.2 hpos
    omega

/-! ### The held bits -/

/-- Pushing a byte: its bits join above those held, in order bit 0 to bit 7 (R130). -/
theorem Accumulator.push_value (p : Config.Params) (a : Accumulator) (b : Byte) (hb : a.buf < 2 ^ a.cnt.toNat)
    (hc : a.cnt.toNat + 8 ≤ 32) : (a.push p b).buf = a.buf + 2 ^ a.cnt.toNat * b.toNat := by
  have hor : a.buf ||| (b.toNat <<< a.cnt.toNat) = a.buf + 2 ^ a.cnt.toNat * b.toNat := by
    rw [Nat.shiftLeft_eq, Nat.or_comm, Nat.mul_comm b.toNat, ← Nat.two_pow_add_eq_or_of_lt hb, Nat.add_comm]
  rw [Accumulator.push_buf, hor, lowBits_of_lt]
  calc a.buf + 2 ^ a.cnt.toNat * b.toNat < 2 ^ a.cnt.toNat + 2 ^ a.cnt.toNat * b.toNat := by omega
    _ = 2 ^ a.cnt.toNat * (b.toNat + 1) := by ring
    _ ≤ 2 ^ a.cnt.toNat * 2 ^ 8 := Nat.mul_le_mul_left _ (by have := b.isLt; omega)
    _ = 2 ^ (a.cnt.toNat + 8) := (Nat.pow_add ..).symm
    _ ≤ 2 ^ p.accBits := Nat.pow_le_pow_right (by decide) (le_accBits hc)

theorem Accumulator.push_lt (p : Config.Params) (a : Accumulator) (b : Byte) (hb : a.buf < 2 ^ a.cnt.toNat)
    (hc : a.cnt.toNat + 8 ≤ 32) : (a.push p b).buf < 2 ^ (a.push p b).cnt.toNat := by
  have hcnt : (a.push p b).cnt.toNat = a.cnt.toNat + 8 := by
    rw [Accumulator.push_cnt, BitVec.toNat_add]; simp; omega
  rw [Accumulator.push_value p a b hb hc, hcnt, Nat.pow_add]
  have := b.isLt
  calc a.buf + 2 ^ a.cnt.toNat * b.toNat < 2 ^ a.cnt.toNat + 2 ^ a.cnt.toNat * b.toNat := by omega
    _ = 2 ^ a.cnt.toNat * (b.toNat + 1) := by ring
    _ ≤ 2 ^ a.cnt.toNat * 2 ^ 8 := Nat.mul_le_mul_left _ (by omega)

theorem Accumulator.drop_lt (a : Accumulator) (n : Nat) (hb : a.buf < 2 ^ a.cnt.toNat)
    (hn : n ≤ a.cnt.toNat) : (a.drop n).buf < 2 ^ (a.drop n).cnt.toNat := by
  have hlt := a.cnt.isLt
  have hcnt : (a.drop n).cnt.toNat = a.cnt.toNat - n := by
    rw [Accumulator.drop_cnt]; bv_omega
  rw [hcnt, Accumulator.drop_buf, Nat.shiftRight_eq_div_pow]
  refine Nat.div_lt_of_lt_mul ?_
  rw [← Nat.pow_add]
  rwa [show n + (a.cnt.toNat - n) = a.cnt.toNat by omega]

theorem Accumulator.drop_cnt_toNat (a : Accumulator) (n : Nat) (hn : n ≤ a.cnt.toNat) :
    (a.drop n).cnt.toNat = a.cnt.toNat - n := by
  have hlt := a.cnt.isLt
  rw [Accumulator.drop_cnt]; bv_omega

theorem Accumulator.push_cnt_toNat (p : Config.Params) (a : Accumulator) (b : Byte) (hc : a.cnt.toNat + 8 < 64) :
    (a.push p b).cnt.toNat = a.cnt.toNat + 8 := by
  rw [Accumulator.push_cnt, BitVec.toNat_add]; simp; omega

/-- The bits a pulled byte adds. -/
theorem heldBits_push (s : State) (b : Byte) (c : Cursors) (hb : s.acc.buf < 2 ^ s.acc.cnt.toNat)
    (hc : s.acc.cnt.toNat + 8 ≤ 32) :
    ({ s with acc := s.acc.push s.params b, cur := c } : State).heldBits = s.heldBits ++ fieldBits 8 b.toNat := by
  have h1 : (s.acc.buf + 2 ^ s.acc.cnt.toNat * b.toNat) / 2 ^ s.acc.cnt.toNat = b.toNat := by
    rw [Nat.add_mul_div_left _ _ (Nat.two_pow_pos _), Nat.div_eq_of_lt hb, Nat.zero_add]
  have h2 : fieldBits s.acc.cnt.toNat (s.acc.buf + 2 ^ s.acc.cnt.toNat * b.toNat)
      = fieldBits s.acc.cnt.toNat s.acc.buf := by
    rw [← fieldBits_mod _ (s.acc.buf + _) _ (Nat.le_refl _), Nat.add_mul_mod_self_left,
      fieldBits_mod _ _ _ (Nat.le_refl _)]
  simp only [State.heldBits]
  rw [Accumulator.push_cnt_toNat _ _ _ (by omega), Accumulator.push_value _ _ _ hb hc, fieldBits_add, h1, h2]

/-- Dropping `n` bits drops the first `n` of the stream (R133). -/
theorem heldBits_dropBits (s : State) (n : Nat) (hn : n ≤ s.acc.cnt.toNat) :
    (dropBits n s).heldBits = s.heldBits.drop n := by
  simp only [State.heldBits, dropBits_acc]
  rw [Accumulator.drop_cnt_toNat _ _ hn, fieldBits_drop _ _ _ hn, Accumulator.drop_buf,
    Nat.shiftRight_eq_div_pow]

/-- `peek(n)` is the value of the first `n` stream bits, the first of them bit 0 (R132). -/
theorem peek_eq_bitsValue (s : State) (n : Nat) (hn : n ≤ s.acc.cnt.toNat) :
    peek n s = bitsValue (s.heldBits.take n) := by
  rw [State.heldBits, fieldBits_take _ _ _ hn, bitsValue_fieldBits, peek]

/-- `read(n)` where `n` bits are held (R134). -/
theorem readBits_eq_ok {n : Nat} {s : State} (hn : n ≤ s.acc.cnt.toNat) :
    readBits n s = .ok (peek n s, dropBits n s) := if_pos hn

theorem peek_lt (n : Nat) (s : State) : peek n s < 2 ^ n := Nat.mod_lt _ (Nat.two_pow_pos n)

/-- The offered bytes, one at a time. -/
theorem offeredBytes_cons {s : State} {b : Byte} (hin : s.cur.availIn ≠ 0)
    (hb : Memory.read s.inMem s.cur.nextIn = some b) (a : Accumulator) :
    s.offeredBytes = b :: ({ s with acc := a, cur := s.cur.consume s.params } : State).offeredBytes := by
  obtain ⟨n, hn⟩ : ∃ n, s.cur.availIn = n + 1 := ⟨s.cur.availIn - 1, by omega⟩
  simp only [State.offeredBytes, Cursors.consume_availIn, Cursors.consume_nextIn, hn, List.range_succ_eq_map,
    List.map_cons, List.map_map]
  congr 1
  · simp [hb]
  · refine List.map_congr_left fun k _ => ?_
    simp [Function.comp, Nat.add_comm 1 k]

/-- Pulling moves bytes from the offered ones to the held ones and leaves the stream as it is (R130). -/
theorem Pulled.upcoming {s t : State} {k : Nat} (h : Pulled s k t) (hb : s.acc.buf < 2 ^ s.acc.cnt.toNat)
    (hk : s.acc.cnt.toNat + 8 * k ≤ 32) :
    t.acc.buf < 2 ^ t.acc.cnt.toNat ∧ t.upcoming = s.upcoming := by
  induction h with
  | refl => exact ⟨hb, rfl⟩
  | @step s t k b hin hr _ ih =>
    have hc : (s.acc.push s.params b).cnt.toNat = s.acc.cnt.toNat + 8 := Accumulator.push_cnt_toNat _ _ _ (by omega)
    obtain ⟨h1, h2⟩ := ih (Accumulator.push_lt _ _ _ hb (by omega)) (by simp only [hc]; omega)
    refine ⟨h1, h2.trans ?_⟩
    simp only [State.upcoming]
    rw [heldBits_push s b _ hb (by omega), offeredBytes_cons hin hr (s.acc.push s.params b)]
    simp

/-- Dropping held bits drops them from the stream (R133). -/
theorem upcoming_dropBits (s : State) (n : Nat) (hn : n ≤ s.acc.cnt.toNat) :
    (dropBits n s).upcoming = s.upcoming.drop n := by
  have hlen : s.heldBits.length = s.acc.cnt.toNat := fieldBits_length _ _
  simp only [State.upcoming, heldBits_dropBits s n hn, State.offeredBytes, dropBits_cur, dropBits_inMem,
    dropBits_params]
  rw [List.drop_append_of_le_length (by omega)]

end Sys2Proof.Machine
end

