-- ==== Sys2Proof/Laws/Huffman.lean ====
section
/-! SUPPORT. Laws of canonical codes (`41_huffman_tables.md`): which codeword a symbol has, that the codewords of an
accepted table are prefix-free, and what `decode_sym` finds in the held bits. -/

namespace Sys2Proof.Machine

/-! ### Code lengths -/

theorem Table.lens_length (T : Table) : T.lens.length = T.len.length := List.length_map ..

theorem Table.lens_lt {T : Table} {L : Nat} (h : L ∈ T.lens) : L < 16 := by
  obtain ⟨x, _, rfl⟩ := List.mem_map.1 h; exact x.isLt

theorem foldl_max_spec (l : List Nat) (a : Nat) :
    a ≤ l.foldl max a ∧ (∀ x ∈ l, x ≤ l.foldl max a) ∧ (l.foldl max a = a ∨ l.foldl max a ∈ l) := by
  induction l generalizing a with
  | nil => simp
  | cons b l ih =>
    obtain ⟨h1, h2, h3⟩ := ih (max a b)
    refine ⟨(Nat.le_max_left a b).trans h1, fun x hx => ?_, ?_⟩
    · rcases List.mem_cons.1 hx with rfl | hx
      · exact (Nat.le_max_right a x).trans h1
      · exact h2 x hx
    · rcases h3 with h3 | h3
      · rcases Nat.le_total a b with hab | hab
        · rw [Nat.max_eq_right hab] at h3; exact .inr (by rw [List.foldl_cons, Nat.max_eq_right hab, h3]; simp)
        · rw [Nat.max_eq_left hab] at h3; exact .inl (by rw [List.foldl_cons, Nat.max_eq_left hab, h3])
      · exact .inr (List.mem_cons_of_mem _ h3)

theorem Table.le_maxlen {T : Table} {L : Nat} (h : L ∈ T.lens) : L ≤ T.maxlen := (foldl_max_spec T.lens 0).2.1 L h

theorem Table.maxlen_le (T : Table) : T.maxlen ≤ 15 := by
  rcases (foldl_max_spec T.lens 0).2.2 with h | h
  · rw [Table.maxlen, h]; omega
  · exact Nat.lt_succ_iff.1 (Table.lens_lt h)

/-! ### The codeword of a symbol -/

/-- `next[L]` of R152 before the symbols are numbered, as a recurrence on `L`. -/
def firstCode (lens : List Nat) : Nat → Nat
  | 0 => 0
  | L + 1 => 2 * (firstCode lens L + lengthCount lens L)

theorem firstCodesFrom_getD (lens : List Nat) (k L i : Nat) (hi : i < k) :
    (firstCodesFrom lens k (L + 1) (firstCode lens L)).getD i 0 = firstCode lens (L + 1 + i) := by
  induction k generalizing L i with
  | zero => omega
  | succ k ih =>
    rw [firstCodesFrom, Nat.add_sub_cancel]
    cases i with
    | zero => rfl
    | succ i =>
      have := ih (L + 1) i (by omega)
      rw [firstCode] at this
      rw [List.getD_cons_succ, this]; congr 1; omega

theorem firstCodesFrom_length (lens : List Nat) (k L c : Nat) : (firstCodesFrom lens k L c).length = k := by
  induction k generalizing L c with
  | zero => rfl
  | succ k ih => simp [firstCodesFrom, ih]

@[simp] theorem firstCodes_length (lens : List Nat) : (firstCodes lens).length = 16 := by
  simp [firstCodes, firstCodesFrom_length]

theorem firstCodes_getD (lens : List Nat) {L : Nat} (hL : L < 16) :
    (firstCodes lens).getD L 0 = firstCode lens L := by
  cases L with
  | zero => rfl
  | succ L =>
    have := firstCodesFrom_getD lens 15 0 L (by omega)
    rw [firstCode] at this
    rw [firstCodes, List.getD_cons_succ]
    simpa [Nat.add_comm] using this

/-- How many symbols before `s` have its code length. -/
def codeRank (lens : List Nat) (s : Nat) : Nat := (lens.take s).count (lens.getD s 0)

theorem assignCodes_length (next lens : List Nat) : (assignCodes next lens).length = lens.length := by
  induction lens generalizing next with
  | nil => rfl
  | cons L lens ih => rw [assignCodes]; split <;> simp [ih]

theorem assignCodes_getElem? (next lens : List Nat) (s : Nat) (hs : s < lens.length)
    (h : ∀ x ∈ lens, x < next.length) : (assignCodes next lens)[s]? =
      some (if lens.getD s 0 = 0 then (0, 0) else (lens.getD s 0, next.getD (lens.getD s 0) 0 + codeRank lens s)) := by
  induction lens generalizing next s with
  | nil => simp at hs
  | cons L lens ih =>
    have hL := h L (List.mem_cons_self ..)
    have hrest : ∀ x ∈ lens, x < next.length := fun x hx => h x (List.mem_cons_of_mem _ hx)
    cases s with
    | zero => rw [assignCodes]; split <;> simp_all [codeRank]
    | succ s =>
      have hs' : s < lens.length := by simpa using hs
      rw [assignCodes]
      split
      · next h0 =>
        rw [List.getElem?_cons_succ, ih next s hs' hrest]
        simp only [List.getD_cons_succ, codeRank, List.take_succ_cons]
        split
        · rfl
        · next hne => rw [List.count_cons_of_ne (by rw [h0]; exact fun e => hne e.symm)]
      · next h0 =>
        rw [List.getElem?_cons_succ, ih _ s hs' (by simpa using hrest)]
        simp only [List.getD_cons_succ, codeRank, List.take_succ_cons]
        split
        · rfl
        · rcases eq_or_ne (lens.getD s 0) L with he | hne
          · rw [he, List.count_cons_self]
            simp only [List.getD_eq_getElem?_getD, List.getElem?_set_self hL, Option.getD_some]
            congr 2; omega
          · rw [List.count_cons_of_ne hne.symm]
            have hget : ∀ v, (next.set L v).getD (lens.getD s 0) 0 = next.getD (lens.getD s 0) 0 := fun v => by
              generalize lens.getD s 0 = x at hne
              simp only [List.getD_eq_getElem?_getD, List.getElem?_set_ne hne.symm]
            rw [hget]

theorem Table.codes_length (T : Table) : T.codes.length = T.len.length := by
  rw [Table.codes, assignCodes_length, Table.lens_length]

/-- The codeword of a symbol: the first of its length plus how many symbols before it have that length (R152). -/
theorem Table.codes_getElem? (T : Table) (s : Nat) (hs : s < T.len.length) : T.codes[s]? =
    some (if T.lens.getD s 0 = 0 then (0, 0)
      else (T.lens.getD s 0, firstCode T.lens (T.lens.getD s 0) + codeRank T.lens s)) := by
  have hs' : s < T.lens.length := by rwa [Table.lens_length]
  have hmem : T.lens.getD s 0 ∈ T.lens := by
    rw [List.getD_eq_getElem _ _ hs']; exact List.getElem_mem hs'
  rw [Table.codes, assignCodes_getElem? _ _ s hs' (by simpa using fun x hx => Table.lens_lt hx),
    firstCodes_getD _ (Table.lens_lt hmem)]

/-- A symbol with a codeword: its length is 1..15 and one of the table's, and its codeword is as R152 says. -/
theorem Table.codes_eq {T : Table} {s L c : Nat} (h : T.codes[s]? = some (L, c)) (hL : L ≠ 0) :
    s < T.lens.length ∧ T.lens.getD s 0 = L ∧ L ∈ T.lens ∧ c = firstCode T.lens L + codeRank T.lens s := by
  have hs : s < T.len.length := by
    have := (List.getElem?_eq_some_iff.1 h).1; rwa [Table.codes_length] at this
  have hs' : s < T.lens.length := by rwa [Table.lens_length]
  rw [Table.codes_getElem? T s hs] at h
  split at h
  · simp only [Option.some.injEq, Prod.mk.injEq] at h; exact absurd h.1.symm hL
  · simp only [Option.some.injEq, Prod.mk.injEq] at h
    refine ⟨hs', h.1, h.1 ▸ ?_, ?_⟩
    · rw [List.getD_eq_getElem _ _ hs']; exact List.getElem_mem hs'
    · rw [← h.2, h.1]

theorem codeRank_lt (lens : List Nat) (s : Nat) (hs : s < lens.length) :
    codeRank lens s < lens.count (lens.getD s 0) := by
  have h := List.take_append_drop s lens
  have hd : lens.drop s = lens[s] :: lens.drop (s + 1) := List.drop_eq_getElem_cons hs
  have hc : ∀ x, lens.count x = (lens.take s).count x + (lens.drop s).count x := fun x => by
    rw [← List.count_append, h]
  rw [codeRank, List.getD_eq_getElem _ _ hs, hc, hd, List.count_cons_self]
  omega

theorem lengthCount_eq_count (lens : List Nat) {L : Nat} (hL : L ≠ 0) : lengthCount lens L = lens.count L := by
  rw [lengthCount, if_neg hL]; rfl

theorem codeRank_lt_of_lt (lens : List Nat) {s t : Nat} (hst : s < t) (ht : t < lens.length)
    (he : lens.getD s 0 = lens.getD t 0) : codeRank lens s < codeRank lens t := by
  have hs : s < lens.length := hst.trans ht
  have h1 : lens.take t = lens.take s ++ (lens.take t).drop s := by
    conv_lhs => rw [← List.take_append_drop s (lens.take t)]
    rw [List.take_take, Nat.min_eq_left hst.le]
  have hlen : s < (lens.take t).length := by simp; omega
  have h2 : (lens.take t).drop s = lens[s] :: (lens.take t).drop (s + 1) := by
    rw [List.drop_eq_getElem_cons hlen]; simp
  rw [codeRank, codeRank, ← he, h1, List.count_append, h2, List.getD_eq_getElem _ _ hs, List.count_cons_self]
  omega

/-! ### The code space -/

/-- The free code space of R150 is what the codewords up to a length leave. -/
theorem codeSpaceLeft_eq (lens : List Nat) (L : Nat) :
    codeSpaceLeft lens L = 2 ^ L - ((firstCode lens L + lengthCount lens L : Nat) : Int) := by
  induction L with
  | zero => simp [codeSpaceLeft, firstCode, lengthCount]
  | succ L ih => rw [codeSpaceLeft, ih, firstCode]; push_cast; ring

theorem not_overSubscribed {lens : List Nat} (h : overSubscribed lens = false) {L : Nat} (h1 : 1 ≤ L) (h2 : L ≤ 15) :
    firstCode lens L + lengthCount lens L ≤ 2 ^ L := by
  have : ¬ codeSpaceLeft lens L < 0 := by
    intro hlt
    have : overSubscribed lens = true := List.any_eq_true.2 ⟨L, List.mem_range'_1.2 ⟨h1, by omega⟩, by simpa using hlt⟩
    simp [h] at this
  rw [codeSpaceLeft_eq] at this
  have h3 : ((2 ^ L : Nat) : Int) = 2 ^ L := by push_cast; rfl
  omega

/-- From one length to a longer one the codewords so far take up their whole subtrees (R152). -/
theorem firstCode_ge (lens : List Nat) (L k : Nat) :
    2 ^ (k + 1) * (firstCode lens L + lengthCount lens L) ≤ firstCode lens (L + 1 + k) := by
  induction k with
  | zero => simp [firstCode]
  | succ k ih =>
    rw [← Nat.add_assoc, firstCode, Nat.pow_succ', Nat.mul_assoc]; omega

/-! ### BUILD -/

theorem build_eq_ok {kind : TreeKind} {len : List (BitVec 4)} {T : Table} : build kind len = .ok T ↔
    T = ⟨len⟩ ∧ overSubscribed (Table.lens ⟨len⟩) = false ∧
      (codeSpaceLeft (Table.lens ⟨len⟩) 15 ≤ 0 ∨ kind = .cl ∧ nonzeroCount (Table.lens ⟨len⟩) = 1) := by
  unfold build
  simp only
  split
  · next h => simp [h]
  · next h =>
    split
    · next h2 => simp only [reduceCtorEq, false_iff]; rintro ⟨-, -, h3 | h3⟩ <;> [omega; exact h2.2 h3]
    · next h2 =>
      rw [Except.ok.injEq]
      constructor
      · rintro rfl
        refine ⟨rfl, by simpa using h, ?_⟩
        by_contra hc
        push Not at hc
        exact h2 ⟨hc.1, fun h3 => hc.2 h3.1 h3.2⟩
      · exact fun h3 => h3.1.symm

/-- The faults of BUILD are the two R150 names. -/
theorem build_eq_error {kind : TreeKind} {len : List (BitVec 4)} {e : StreamFault} (h : build kind len = .error e) :
    e = .overSubscribedLengths ∧ overSubscribed (Table.lens ⟨len⟩) = true ∨
      e = .incompleteLengths ∧ overSubscribed (Table.lens ⟨len⟩) = false := by
  unfold build at h
  simp only at h
  split at h
  · next h1 => simp only [Except.error.injEq] at h; exact .inl ⟨h.symm, h1⟩
  · next h1 =>
    split at h
    · simp only [Except.error.injEq] at h; exact .inr ⟨h.symm, by simpa using h1⟩
    · simp at h

/-- A table with no over-subscribed length: all its codewords fit, and none is a prefix of another. -/
def prefixFree (T : Table) : Prop := overSubscribed T.lens = false

theorem acceptedTable.prefixFree {kind : TreeKind} {T : Table} (h : acceptedTable kind T) : prefixFree T :=
  (build_eq_ok.1 h).2.1

theorem prefixFree.code_lt {T : Table} (h : prefixFree T) {s L c : Nat} (hs : T.codes[s]? = some (L, c))
    (hL : L ≠ 0) : c + 1 ≤ firstCode T.lens L + lengthCount T.lens L ∧ c < 2 ^ L := by
  obtain ⟨hlt, he, hm, hc⟩ := Table.codes_eq hs hL
  have h1 := codeRank_lt T.lens s hlt
  rw [he, ← lengthCount_eq_count _ hL] at h1
  have h2 := not_overSubscribed h (Nat.one_le_iff_ne_zero.2 hL) (Nat.lt_succ_iff.1 (Table.lens_lt hm))
  omega

/-- Two symbols of one length have different codewords (R152). -/
theorem Table.codes_inj {T : Table} {s t L c : Nat} (hL : L ≠ 0) (hs : T.codes[s]? = some (L, c))
    (ht : T.codes[t]? = some (L, c)) : s = t := by
  obtain ⟨hs1, hs2, -, hs4⟩ := Table.codes_eq hs hL
  obtain ⟨ht1, ht2, -, ht4⟩ := Table.codes_eq ht hL
  rcases Nat.lt_trichotomy s t with h | h | h
  · have := codeRank_lt_of_lt T.lens h ht1 (hs2.trans ht2.symm); omega
  · exact h
  · have := codeRank_lt_of_lt T.lens h hs1 (ht2.trans hs2.symm); omega

/-- No codeword is a prefix of a longer one (R110, R152). -/
theorem prefixFree.not_prefix {T : Table} (h : prefixFree T) {s t L M c d : Nat} (hs : T.codes[s]? = some (L, c))
    (ht : T.codes[t]? = some (M, d)) (hL : L ≠ 0) (hLM : L < M) : d / 2 ^ (M - L) ≠ c := by
  obtain ⟨k, rfl⟩ : ∃ k, M = L + 1 + k := ⟨M - L - 1, by omega⟩
  have h1 := (h.code_lt hs hL).1
  obtain ⟨-, -, -, hd⟩ := Table.codes_eq ht (by omega)
  have h2 := firstCode_ge T.lens L k
  rw [show L + 1 + k - L = k + 1 by omega]
  intro he
  have h3 : d < 2 ^ (k + 1) * (c + 1) := by
    rw [Nat.mul_comm]; exact (Nat.div_lt_iff_lt_mul (Nat.two_pow_pos _)).1 (by omega)
  have h4 : 2 ^ (k + 1) * (c + 1) ≤ 2 ^ (k + 1) * (firstCode T.lens L + lengthCount T.lens L) :=
    Nat.mul_le_mul_left _ h1
  omega

/-! ### Bits of codewords -/

theorem revBits_lt (L v : Nat) : revBits L v < 2 ^ L := by
  induction L generalizing v with
  | zero => simp [revBits]
  | succ L ih =>
    have h1 := ih (v / 2)
    have h2 : v % 2 < 2 := Nat.mod_lt _ (by decide)
    have h3 : v % 2 * 2 ^ L ≤ 1 * 2 ^ L := Nat.mul_le_mul_right _ (by omega)
    rw [revBits, Nat.pow_succ']; omega

/-- `rev_L` turns the order of the bits round (R8). -/
theorem fieldBits_revBits (L v : Nat) : fieldBits L (revBits L v) = (fieldBits L v).reverse := by
  induction L generalizing v with
  | zero => rfl
  | succ L ih =>
    have h1 := revBits_lt L (v / 2)
    have h2 : fieldBits L (v % 2 * 2 ^ L + revBits L (v / 2)) = fieldBits L (revBits L (v / 2)) := by
      rw [← fieldBits_mod L (v % 2 * 2 ^ L + _) L (Nat.le_refl _), Nat.add_comm, Nat.add_mul_mod_self_right,
        fieldBits_mod _ _ _ (Nat.le_refl _)]
    have h3 : (v % 2 * 2 ^ L + revBits L (v / 2)) / 2 ^ L = v % 2 := by
      rw [Nat.add_comm, Nat.add_mul_div_right _ _ (Nat.two_pow_pos _), Nat.div_eq_of_lt h1, Nat.zero_add]
    rw [revBits, fieldBits_add, h2, h3, ih]
    rcases Nat.mod_two_eq_zero_or_one v with h | h <;> simp [fieldBits, h]

theorem fieldBits_inj {L v w : Nat} (hv : v < 2 ^ L) (hw : w < 2 ^ L) (h : fieldBits L v = fieldBits L w) : v = w := by
  have := congrArg bitsValue h
  rwa [bitsValue_fieldBits, bitsValue_fieldBits, Nat.mod_eq_of_lt hv, Nat.mod_eq_of_lt hw] at this

/-- The first `L` held bits are the codeword `c`, most significant bit first, exactly when `rev_L` of them is `c`
(R161). -/
theorem revBits_eq_iff {L buf c : Nat} (hc : c < 2 ^ L) :
    revBits L (buf % 2 ^ L) = c ↔ fieldBits L buf = codewordBits L c := by
  rw [codewordBits, ← fieldBits_mod L buf L (Nat.le_refl _)]
  constructor
  · rintro rfl; rw [fieldBits_revBits, List.reverse_reverse]
  · intro h
    refine fieldBits_inj (revBits_lt _ _) hc ?_
    rw [fieldBits_revBits, h, List.reverse_reverse]

@[simp] theorem codewordBits_length (L c : Nat) : (codewordBits L c).length = L := by simp [codewordBits]

theorem codewordBits_take {L M c : Nat} (h : L ≤ M) :
    (codewordBits M c).take L = codewordBits L (c / 2 ^ (M - L)) := by
  rw [codewordBits, List.take_reverse, fieldBits_length, fieldBits_drop _ _ _ (Nat.sub_le _ _), codewordBits,
    Nat.sub_sub_self h]

/-! ### Finding the codeword -/

theorem findCode_eq_some {codes : List (Nat × Nat)} {L c s : Nat} (h : findCode codes L c = some s) :
    codes[s]? = some (L, c) := by
  obtain ⟨hs, hp, -⟩ := List.findIdx?_eq_some_iff_getElem.1 h
  simp only [Bool.and_eq_true, beq_iff_eq] at hp
  rw [List.getElem?_eq_getElem hs, ← hp.1, ← hp.2]

theorem findCode_eq_none {codes : List (Nat × Nat)} {L c : Nat} (h : findCode codes L c = none) (s : Nat) :
    codes[s]? ≠ some (L, c) := by
  intro hs
  have := List.findIdx?_eq_none_iff.1 h (L, c) (List.mem_of_getElem? hs)
  simp at this

theorem matchLengths_eq_some {codes : List (Nat × Nat)} {buf k L s M : Nat}
    (h : matchLengths codes buf k L = some (s, M)) : L ≤ M ∧ M < L + k ∧
      codes[s]? = some (M, revBits M (buf % 2 ^ M)) ∧
      ∀ j, L ≤ j → j < M → findCode codes j (revBits j (buf % 2 ^ j)) = none := by
  induction k generalizing L with
  | zero => simp [matchLengths] at h
  | succ k ih =>
    rw [matchLengths] at h
    split at h
    · next hf =>
      simp only [Option.some.injEq, Prod.mk.injEq] at h
      obtain ⟨rfl, rfl⟩ := h
      exact ⟨Nat.le_refl _, by omega, findCode_eq_some hf, fun j h1 h2 => absurd h2 (by omega)⟩
    · next hf =>
      obtain ⟨h1, h2, h3, h4⟩ := ih h
      refine ⟨by omega, by omega, h3, fun j hj1 hj2 => ?_⟩
      rcases Nat.eq_or_lt_of_le hj1 with rfl | hj1
      · exact hf
      · exact h4 j (by omega) hj2

theorem matchLengths_eq_none {codes : List (Nat × Nat)} {buf k L : Nat} :
    matchLengths codes buf k L = none ↔
      ∀ j, L ≤ j → j < L + k → findCode codes j (revBits j (buf % 2 ^ j)) = none := by
  induction k generalizing L with
  | zero => simp only [matchLengths, true_iff]; intro j h1 h2; omega
  | succ k ih =>
    rw [matchLengths]
    split
    · next hf => simp only [reduceCtorEq, false_iff]; intro h; have := h L (Nat.le_refl _) (by omega); simp [hf] at this
    · next hf =>
      rw [ih]
      constructor
      · intro h j h1 h2
        rcases Nat.eq_or_lt_of_le h1 with rfl | h1
        · exact hf
        · exact h j (by omega) (by omega)
      · intro h j h1 h2; exact h j (by omega) (by omega)

/-- A match in the held bits: a symbol of the table whose codeword they begin with, of length at least 1. -/
theorem Table.matchHeld_eq_some {T : Table} {a : Accumulator} {s L : Nat} (h : T.matchHeld a = some (s, L)) :
    1 ≤ L ∧ L ≤ a.cnt.toNat ∧ L ≤ T.maxlen ∧ s < T.len.length ∧
      T.codes[s]? = some (L, revBits L (a.buf % 2 ^ L)) := by
  obtain ⟨h1, h2, h3, -⟩ := matchLengths_eq_some h
  have hs := (List.getElem?_eq_some_iff.1 h3).1
  rw [Table.codes_length] at hs
  exact ⟨h1, by omega, by omega, hs, h3⟩

/-- Held bits that begin with the codeword of a symbol match it and nothing else (R110, R160). -/
theorem prefixFree.matchHeld {T : Table} (h : prefixFree T) {a : Accumulator} {s L c : Nat}
    (hs : T.codes[s]? = some (L, c)) (hL : L ≠ 0) (ha : L ≤ a.cnt.toNat)
    (hb : fieldBits L a.buf = codewordBits L c) : T.matchHeld a = some (s, L) := by
  have hc := (h.code_lt hs hL).2
  have hm := Table.le_maxlen (Table.codes_eq hs hL).2.2.1
  have hrev := (revBits_eq_iff hc).2 hb
  cases hmatch : T.matchHeld a with
  | none =>
    have := matchLengths_eq_none.1 hmatch L (by omega) (by omega)
    rw [hrev] at this
    exact absurd hs (findCode_eq_none this s)
  | some p =>
    obtain ⟨t, M⟩ := p
    obtain ⟨h1, h2, h3, h4⟩ := matchLengths_eq_some hmatch
    rcases Nat.lt_trichotomy M L with hlt | heq | hgt
    · exfalso
      refine h.not_prefix h3 hs (by omega) hlt ?_
      have hM : c / 2 ^ (L - M) < 2 ^ M := by
        refine Nat.div_lt_of_lt_mul ?_
        rw [← Nat.pow_add]; rwa [show L - M + M = L by omega]
      refine ((revBits_eq_iff hM).2 ?_).symm
      rw [← codewordBits_take hlt.le, ← hb, fieldBits_take _ _ _ hlt.le]
    · subst heq
      rw [hrev] at h3
      rw [Table.codes_inj hL h3 hs]
    · have := h4 L (by omega) hgt
      rw [hrev] at this
      exact absurd hs (findCode_eq_none this s)

/-- A byte pulled cannot complete a codeword that was whole before: a match found after a pull is longer than the
bits held before it (R163). -/
theorem Table.matchHeld_push {T : Table} {p : Config.Params} {a : Accumulator} {b : Byte} {s L : Nat} (hnone : T.matchHeld a = none)
    (hb : a.buf < 2 ^ a.cnt.toNat) (hc : a.cnt.toNat + 8 ≤ 32)
    (h : T.matchHeld (a.push p b) = some (s, L)) : a.cnt.toNat < L := by
  by_contra hle
  obtain ⟨h1, -, hmax, -, hcode⟩ := Table.matchHeld_eq_some h
  have := matchLengths_eq_none.1 hnone L h1 (by omega)
  refine findCode_eq_none this s ?_
  rw [hcode, Accumulator.push_value p a b hb hc]
  congr 3
  obtain ⟨k, hk⟩ := Nat.exists_eq_add_of_le (Nat.le_of_not_lt hle)
  rw [hk, Nat.pow_add, Nat.mul_assoc, Nat.add_mul_mod_self_left]

/-! ### A complete code covers every pattern (R162) -/

theorem exists_codeRank {lens : List Nat} {L r : Nat} (h : r < lens.count L) :
    ∃ s, s < lens.length ∧ lens.getD s 0 = L ∧ codeRank lens s = r := by
  induction lens generalizing r with
  | nil => simp at h
  | cons x lens ih =>
    rcases eq_or_ne x L with rfl | hne
    · rw [List.count_cons_self] at h
      cases r with
      | zero => exact ⟨0, by simp, by simp, by simp [codeRank]⟩
      | succ r =>
        obtain ⟨s, h1, h2, h3⟩ := ih (Nat.lt_of_succ_lt_succ h)
        refine ⟨s + 1, by simpa using h1, by simpa using h2, ?_⟩
        rw [codeRank] at h3 ⊢
        rw [List.getD_cons_succ, List.take_succ_cons, h2, List.count_cons_self]
        rw [h2] at h3; omega
    · rw [List.count_cons_of_ne hne] at h
      obtain ⟨s, h1, h2, h3⟩ := ih h
      refine ⟨s + 1, by simpa using h1, by simpa using h2, ?_⟩
      rw [codeRank] at h3 ⊢
      rw [List.getD_cons_succ, List.take_succ_cons, h2, List.count_cons_of_ne hne]
      rwa [h2] at h3

/-- The symbol that a place in the code space of a length belongs to. -/
theorem Table.exists_code {T : Table} {L c : Nat} (hL : L ≠ 0) (h1 : firstCode T.lens L ≤ c)
    (h2 : c < firstCode T.lens L + lengthCount T.lens L) : ∃ s : Nat, T.codes[s]? = some (L, c) := by
  rw [lengthCount_eq_count _ hL] at h2
  obtain ⟨s, hs, hl, hr⟩ := exists_codeRank (lens := T.lens) (L := L) (r := c - firstCode T.lens L) (by omega)
  refine ⟨s, ?_⟩
  rw [Table.codes_getElem? T s (by rwa [← Table.lens_length]), hl, if_neg hL, hr]
  congr 2; omega

/-- In a complete code every pattern of 15 bits, read most significant first, begins with a codeword (R162). -/
theorem Table.complete_covers {T : Table} (hc : codeSpaceLeft T.lens 15 = 0) {x : Nat} (hx : x < 2 ^ 15) :
    ∃ s L : Nat, 1 ≤ L ∧ L ≤ 15 ∧ T.codes[s]? = some (L, x / 2 ^ (15 - L)) := by
  have hfull : firstCode T.lens 15 + lengthCount T.lens 15 = 2 ^ 15 := by
    rw [codeSpaceLeft_eq] at hc
    omega
  have hex : ∃ L, 1 ≤ L ∧ x / 2 ^ (15 - L) < firstCode T.lens L + lengthCount T.lens L :=
    ⟨15, by decide, by rw [hfull]; simpa using hx⟩
  obtain ⟨hL1, hlt⟩ := Nat.find_spec hex
  have hmin := fun m (h : m < Nat.find hex) => Nat.find_min hex h
  have hL15 : Nat.find hex ≤ 15 := Nat.find_min' hex ⟨by decide, by rw [hfull]; simpa using hx⟩
  generalize Nat.find hex = L at *
  obtain ⟨K, rfl⟩ : ∃ K, L = K + 1 := ⟨L - 1, by omega⟩
  have hge : firstCode T.lens (K + 1) ≤ x / 2 ^ (15 - (K + 1)) := by
    rcases Nat.eq_zero_or_pos K with rfl | hK
    · simp [firstCode, lengthCount]
    · have h1 : ¬ x / 2 ^ (15 - K) < firstCode T.lens K + lengthCount T.lens K := fun h =>
        hmin K (Nat.lt_succ_self K) ⟨hK, h⟩
      rw [show 15 - K = (15 - (K + 1)) + 1 by omega, Nat.pow_succ, ← Nat.div_div_eq_div_mul] at h1
      rw [firstCode]; omega
  obtain ⟨s, hs⟩ := Table.exists_code (Nat.succ_ne_zero K) hge hlt
  exact ⟨s, K + 1, by omega, hL15, hs⟩

/-! ### `decode_sym` -/

/-- What the loop of `decode_sym` can answer: always after some pulls, each made while the bits held before it began
with no codeword. -/
theorem decodeSymLoop_inv {T : Table} {k : Nat} {s : State} {r : SymResult} (h : decodeSymLoop T k s = r)
    (hk : k = pullsNeeded T.maxlen s) (hc : s.acc.cnt.toNat ≤ 24)
    (hb : s.acc.buf < 2 ^ s.acc.cnt.toNat) :
    match r with
    | .symbol sym t => ∃ j u L, Pulled s j u ∧ T.matchHeld u.acc = some (sym, L) ∧ t = dropBits L u ∧
        u.acc.buf < 2 ^ u.acc.cnt.toNat ∧ u.acc.cnt.toNat = s.acc.cnt.toNat + 8 * j ∧
        u.acc.cnt.toNat ≤ 32 ∧ (j ≠ 0 → u.acc.cnt.toNat < L + 8)
    | .invalid t => ∃ j, Pulled s j t ∧ T.matchHeld t.acc = none ∧ T.maxlen ≤ t.acc.cnt.toNat ∧
        t.acc.cnt.toNat = s.acc.cnt.toNat + 8 * j ∧ t.acc.cnt.toNat ≤ 32 ∧
        t.acc.buf < 2 ^ t.acc.cnt.toNat
    | .needInput t => ∃ j, Pulled s j t ∧ T.matchHeld t.acc = none ∧ t.cur.availIn = 0 ∧
        t.acc.cnt.toNat < T.maxlen ∧ t.acc.cnt.toNat = s.acc.cnt.toNat + 8 * j ∧
        t.acc.buf < 2 ^ t.acc.cnt.toNat
    | .stop _ => ∃ j u, Pulled s j u ∧ u.cur.availIn ≠ 0 ∧ Memory.read u.inMem u.cur.nextIn = none := by
  have hmax := T.maxlen_le
  induction k generalizing s with
  | zero =>
    have hle : T.maxlen ≤ s.acc.cnt.toNat := by unfold pullsNeeded at hk; omega
    rw [decodeSymLoop] at h
    cases hm : T.matchHeld s.acc with
    | some p =>
      obtain ⟨sym, L⟩ := p
      rw [hm] at h; subst h
      exact ⟨0, s, L, .refl s, hm, rfl, hb, by omega, by omega, by simp⟩
    | none =>
      rw [hm] at h; subst h
      exact ⟨0, .refl s, hm, hle, by omega, by omega, hb⟩
  | succ k ih =>
    have hlt : s.acc.cnt.toNat < T.maxlen := by unfold pullsNeeded at hk; omega
    rw [decodeSymLoop] at h
    cases hm : T.matchHeld s.acc with
    | some p =>
      obtain ⟨sym, L⟩ := p
      rw [hm] at h; subst h
      exact ⟨0, s, L, .refl s, hm, rfl, hb, by omega, by omega, by simp⟩
    | none =>
      rw [hm] at h
      simp only at h
      split at h
      · next h0 => subst h; exact ⟨0, .refl s, hm, h0, hlt, by omega, hb⟩
      · next hin =>
        cases hp : pull s with
        | error f =>
          rw [hp] at h; subst h
          exact ⟨0, s, .refl s, hin, (pull_eq_error.1 hp).1⟩
        | ok s' =>
          obtain ⟨b, hr, rfl⟩ := pull_eq_ok.1 hp
          rw [hp] at h
          simp only at h
          have hcnt : (s.acc.push s.params b).cnt.toNat = s.acc.cnt.toNat + 8 :=
            Accumulator.push_cnt_toNat _ _ _ (by omega)
          have hlt' := Accumulator.push_lt s.params s.acc b hb (by omega)
          have := ih h (by simp only [pullsNeeded, hcnt] at hk ⊢; omega) (by simp only [hcnt]; omega) hlt'
          cases r with
          | symbol sym t =>
            obtain ⟨j, u, L, h1, h2, h3, h4, h5, h6, h7⟩ := this
            refine ⟨j + 1, u, L, .step hin hr h1, h2, h3, h4, ?_, h6, fun _ => ?_⟩
            · simp only [hcnt] at h5; omega
            · rcases Nat.eq_zero_or_pos j with rfl | hj
              · cases h1
                have := Table.matchHeld_push hm hb (by omega) h2
                simp only [hcnt]; omega
              · exact h7 (by omega)
          | invalid t =>
            obtain ⟨j, h1, h2, h3, h4, h5, h6⟩ := this
            exact ⟨j + 1, .step hin hr h1, h2, h3, by simp only [hcnt] at h4; omega, h5, h6⟩
          | needInput t =>
            obtain ⟨j, h1, h2, h3, h4, h5, h6⟩ := this
            exact ⟨j + 1, .step hin hr h1, h2, h3, h4, by simp only [hcnt] at h5; omega, h6⟩
          | stop f =>
            obtain ⟨j, u, h1, h2, h3⟩ := this
            exact ⟨j + 1, u, .step hin hr h1, h2, h3⟩

end Sys2Proof.Machine
end

