-- ==== Sys2Proof/Laws/CodeSpace.lean ====
section
/-! SUPPORT. Laws of BUILD: the code space that a set of code lengths takes up, as one sum (R150). -/

namespace Sys2Proof.Machine

/-- The code space taken up by the lengths up to `L`, in units of `2^-L`. -/
def usedSpace (lens : List Nat) (L : Nat) : Nat := firstCode lens L + lengthCount lens L

theorem usedSpace_succ (lens : List Nat) (L : Nat) : usedSpace lens (L + 1) =
    2 * usedSpace lens L + lengthCount lens (L + 1) := by
  simp [usedSpace, firstCode]

theorem lengthCount_cons (x : Nat) (l : List Nat) (L : Nat) : lengthCount (x :: l) L = lengthCount l L + (if L ≠ 0 ∧
    x = L then 1 else 0) := by
  unfold lengthCount
  by_cases h : L = 0
  · simp [h]
  · simp only [h, if_false, List.countP_cons, beq_iff_eq, ne_eq, not_false_eq_true, true_and]

theorem usedSpace_cons (x : Nat) (l : List Nat) (L : Nat) : usedSpace (x :: l) L = usedSpace l L + (if x ≠ 0 ∧
    x ≤ L then 2 ^ (L - x) else 0) := by
  induction L with
  | zero =>
    have : ¬ (x ≠ 0 ∧ x ≤ 0) := by omega
    simp only [usedSpace, firstCode, lengthCount_cons, this, if_false]; simp
  | succ L ih =>
    rw [usedSpace_succ, usedSpace_succ, ih, lengthCount_cons]
    have a1 : (if L + 1 ≠ 0 ∧ x = L + 1 then 1 else 0) = if x = L + 1 then 1 else 0 := by simp
    rw [a1]
    by_cases h0 : x = 0
    · rw [if_neg (show ¬ (x ≠ 0 ∧ x ≤ L) by omega), if_neg (show ¬ (x ≠ 0 ∧ x ≤ L + 1) by omega), if_neg (show ¬ x =
          L + 1 by omega)]; omega
    · by_cases h1 : x ≤ L
      · have e : L + 1 - x = (L - x) + 1 := by omega
        rw [if_pos (show x ≠ 0 ∧ x ≤ L from ⟨h0, h1⟩), if_pos (show x ≠ 0 ∧ x ≤ L + 1 from ⟨h0, by omega⟩),
            if_neg (show ¬ x = L + 1 by omega), e, pow_succ]; ring
      · rw [if_neg (show ¬ (x ≠ 0 ∧ x ≤ L) by omega)]
        by_cases h2 : x = L + 1
        · rw [if_pos h2, if_pos (show x ≠ 0 ∧ x ≤ L + 1 from ⟨h0, by omega⟩), h2]; simp; omega
        · rw [if_neg h2, if_neg (show ¬ (x ≠ 0 ∧ x ≤ L + 1) by omega)]; omega

theorem usedSpace_sum (len : List (BitVec 4)) : usedSpace (Table.lens ⟨len⟩) 15 = (len.map fun L => if L =
    0 then 0 else 2 ^ (15 - L.toNat)).sum := by
  induction len with
  | nil => simp [Table.lens, usedSpace, firstCode, lengthCount]
  | cons x l ih =>
    have e : Table.lens ⟨x :: l⟩ = x.toNat :: Table.lens ⟨l⟩ := rfl
    rw [e, usedSpace_cons, ih, List.map_cons, List.sum_cons]
    have := x.isLt
    by_cases h : x = 0
    · subst h; simp
    · have h' : x.toNat ≠ 0 := fun h2 => h (BitVec.eq_of_toNat_eq h2)
      rw [if_neg h, if_pos ⟨h', by omega⟩]; omega

theorem usedSpace_mono (lens : List Nat) (L k : Nat) : 2 ^ k * usedSpace lens L ≤ usedSpace lens (L + k) := by
  induction k with
  | zero => simp
  | succ k ih =>
    rw [← Nat.add_assoc, usedSpace_succ, pow_succ];
    have : 2 * (2 ^ k * usedSpace lens L) = 2 ^ k * 2 * usedSpace lens L := by ring
    omega

/-- The test at every length is the test at length 15 (R150). -/
theorem overSubscribed_iff (lens : List Nat) : overSubscribed lens = true ↔ 2 ^ 15 < usedSpace lens 15 := by
  constructor
  · intro h
    obtain ⟨L, hL, h⟩ := List.any_eq_true.1 h
    have hL := List.mem_range'_1.1 hL
    have h : codeSpaceLeft lens L < 0 := by simpa using h
    rw [codeSpaceLeft_eq] at h
    have h2 : 2 ^ L < usedSpace lens L := by unfold usedSpace; zify; push_cast at h ⊢; omega
    obtain ⟨k, hk⟩ := Nat.exists_eq_add_of_le (show L ≤ 15 by omega)
    have h3 := usedSpace_mono lens L k
    rw [hk, pow_add]
    calc 2 ^ L * 2 ^ k < usedSpace lens L * 2 ^ k := Nat.mul_lt_mul_of_pos_right h2 (Nat.two_pow_pos _)
      _ = 2 ^ k * usedSpace lens L := Nat.mul_comm ..
      _ ≤ _ := h3
  · intro h
    refine List.any_eq_true.2 ⟨15, List.mem_range'_1.2 (by omega), ?_⟩
    have : codeSpaceLeft lens 15 < 0 := by
      rw [codeSpaceLeft_eq]; unfold usedSpace at h; zify at h; push_cast at h ⊢; omega
    simpa using this

theorem codeSpaceLeft_fifteen (lens : List Nat) : codeSpaceLeft lens 15 = 2 ^ 15 - (usedSpace lens 15 : Int) := by
  rw [codeSpaceLeft_eq]; rfl

theorem nonzeroCount_eq (len : List (BitVec 4)) : nonzeroCount (Table.lens ⟨len⟩) = (len.filter fun L =>
    L ≠ 0).length := by
  rw [nonzeroCount, Table.lens, List.countP_map, List.countP_eq_length_filter]
  congr 2
  funext x
  simp only [Function.comp, BitVec.toNat_eq, bne, ne_eq, decide_not]; rfl

end Sys2Proof.Machine
end

