-- ==== Sys2Proof/Laws/Fetch.lean ====
section
/-! SUPPORT. Laws of fetching an element (`30_encoding.md` R91, R92, R110): which of the three ways a mode reads, what
each can answer, and what is left of the stream. -/

namespace Sys2Proof.Machine

/-! ### Fields -/

/-- A field that is read: the pulls its width needs were made, and its value is the bits held then. -/
theorem fetchField_eq_word {n : Nat} {f : Format} {s t : State} {w : InstrWord}
    (h : fetchField n f s = .word w t) : ∃ u, Pulled s (pullsNeeded n s) u ∧ n ≤ u.acc.cnt.toNat ∧
      w = .field f (peek n u) ∧ t = dropBits n u := by
  unfold fetchField at h
  split at h
  · simp at h
  · simp at h
  · next u he =>
    rcases ensure_inv he with ⟨-, hp⟩ | ⟨hf, -⟩
    · unfold readBits at h
      split at h
      · simp at h
      · next hv =>
        split at hv
        · next hn =>
          simp only [Except.ok.injEq, Prod.mk.injEq] at hv
          simp only [Fetched.word.injEq] at h
          exact ⟨u, hp, hn, by rw [← h.1, ← hv.1], by rw [← h.2, ← hv.2]⟩
        · simp at hv
    · simp at hf

/-- A field that suspends: every offered byte was pulled, and they are too few (R131). -/
theorem fetchField_eq_suspend {n : Nat} {f : Format} {s t : State} (h : fetchField n f s = .suspend t) :
    t.cur.availIn = 0 ∧ ∃ j, j < pullsNeeded n s ∧ Pulled s j t := by
  unfold fetchField at h
  split at h
  · simp at h
  · next u he =>
    simp only [Fetched.suspend.injEq] at h
    subst h
    rcases ensure_inv he with ⟨hf, -⟩ | ⟨-, h⟩
    · simp at hf
    · exact h
  · unfold readBits at h
    split at h
    · simp at h
    · simp at h

/-- A field whose pulls can be made is read. -/
theorem fetchField_word {n : Nat} {f : Format} {s u : State} (hp : Pulled s (pullsNeeded n s) u)
    (hn : n ≤ u.acc.cnt.toNat) : fetchField n f s = .word (.field f (peek n u)) (dropBits n u) := by
  unfold fetchField
  rw [ensure_true hp]
  simp only [readBits_eq_ok hn]

/-- A field for which too few bytes are offered suspends. -/
theorem fetchField_suspend {n j : Nat} {f : Format} {s u : State} (hp : Pulled s j u) (h0 : u.cur.availIn = 0)
    (hj : j < pullsNeeded n s) : fetchField n f s = .suspend u := by
  unfold fetchField
  rw [ensure_false hp h0 hj]

/-- With every offered byte there, a field is read or suspends. -/
theorem fetchField_total {n : Nat} {f : Format} {s : State} (hn : n ≤ 32) (ho : s.offersAll) :
    (∃ u, Pulled s (pullsNeeded n s) u ∧ n ≤ u.acc.cnt.toNat ∧
      fetchField n f s = .word (.field f (peek n u)) (dropBits n u)) ∨
    ∃ j u, j < pullsNeeded n s ∧ Pulled s j u ∧ u.cur.availIn = 0 ∧ fetchField n f s = .suspend u := by
  rcases Nat.lt_or_ge s.cur.availIn (pullsNeeded n s) with hlt | hge
  · obtain ⟨u, hu⟩ := exists_pulled ho (Nat.le_refl _)
    have := hu.availIn
    have h0 : u.cur.availIn = 0 := by bv_omega
    exact .inr ⟨_, u, hlt, hu, h0, fetchField_suspend hu h0 hlt⟩
  · obtain ⟨u, hu⟩ := exists_pulled ho hge
    have := (ensure_cnt hn hu).1
    exact .inl ⟨u, hu, this, fetchField_word hu this⟩

/-! ### Symbols -/

/-- What `decode_sym` answers with every offered byte there. -/
theorem fetchSym_total {T : Table} {f : Format} {s : State} (ho : s.offersAll) (hc : s.acc.cnt.toNat ≤ 24)
    (hb : s.acc.buf < 2 ^ s.acc.cnt.toNat) :
    (∃ sym j u L, Pulled s j u ∧ T.matchHeld u.acc = some (sym, L) ∧
      fetchSym T f s = .word (.field f sym) (dropBits L u) ∧ u.acc.buf < 2 ^ u.acc.cnt.toNat ∧
      u.acc.cnt.toNat = s.acc.cnt.toNat + 8 * j ∧ u.acc.cnt.toNat ≤ 32 ∧ (j ≠ 0 → u.acc.cnt.toNat < L + 8)) ∨
    (∃ j u, Pulled s j u ∧ T.matchHeld u.acc = none ∧ T.maxlen ≤ u.acc.cnt.toNat ∧
      fetchSym T f s = .word (.noMatch f) u ∧ u.acc.buf < 2 ^ u.acc.cnt.toNat ∧
      u.acc.cnt.toNat = s.acc.cnt.toNat + 8 * j ∧ u.acc.cnt.toNat ≤ 32) ∨
    ∃ j u, Pulled s j u ∧ T.matchHeld u.acc = none ∧ u.cur.availIn = 0 ∧ u.acc.cnt.toNat < T.maxlen ∧
      fetchSym T f s = .suspend u ∧ u.acc.buf < 2 ^ u.acc.cnt.toNat ∧
      u.acc.cnt.toNat = s.acc.cnt.toNat + 8 * j := by
  unfold fetchSym decodeSym
  cases hr : decodeSymLoop T (pullsNeeded T.maxlen s) s with
  | symbol sym t =>
    have h := decodeSymLoop_inv hr rfl hc hb
    obtain ⟨j, u, L, h1, h2, rfl, h4⟩ := h
    exact .inl ⟨sym, j, u, L, h1, h2, rfl, h4⟩
  | invalid t =>
    have h := decodeSymLoop_inv hr rfl hc hb
    obtain ⟨j, h1, h2, h3, h4, h5, h6⟩ := h
    exact .inr (.inl ⟨j, t, h1, h2, h3, rfl, h6, h4, h5⟩)
  | needInput t =>
    have h := decodeSymLoop_inv hr rfl hc hb
    obtain ⟨j, h1, h2, h3, h4, h5, h6⟩ := h
    exact .inr (.inr ⟨j, t, h1, h2, h3, h4, rfl, h6, h5⟩)
  | stop f =>
    have h := decodeSymLoop_inv hr rfl hc hb
    obtain ⟨j, u, h1, h2, h3⟩ := h
    have := (h1.offersAll ho) 0 (by bv_omega)
    rw [advance_zero, h3] at this
    simp at this

theorem fetchSym_eq_word {T : Table} {f : Format} {s t : State} {w : InstrWord} (hc : s.acc.cnt.toNat ≤ 24)
    (hb : s.acc.buf < 2 ^ s.acc.cnt.toNat) (h : fetchSym T f s = .word w t) :
    (∃ sym j u L, w = .field f sym ∧ t = dropBits L u ∧ Pulled s j u ∧ T.matchHeld u.acc = some (sym, L) ∧
      u.acc.buf < 2 ^ u.acc.cnt.toNat ∧ u.acc.cnt.toNat = s.acc.cnt.toNat + 8 * j ∧
      u.acc.cnt.toNat ≤ 32 ∧ (j ≠ 0 → u.acc.cnt.toNat < L + 8)) ∨
    ∃ j, w = .noMatch f ∧ Pulled s j t ∧ T.matchHeld t.acc = none ∧ T.maxlen ≤ t.acc.cnt.toNat ∧
      t.acc.buf < 2 ^ t.acc.cnt.toNat ∧ t.acc.cnt.toNat = s.acc.cnt.toNat + 8 * j ∧
      t.acc.cnt.toNat ≤ 32 := by
  unfold fetchSym decodeSym at h
  cases hr : decodeSymLoop T (pullsNeeded T.maxlen s) s with
  | symbol sym u =>
    have hi := decodeSymLoop_inv hr rfl hc hb
    rw [hr] at h
    obtain ⟨j, v, L, h1, h2, h3, h4⟩ := hi
    simp only [Fetched.word.injEq] at h
    exact .inl ⟨sym, j, v, L, h.1.symm, h.2 ▸ h3, h1, h2, h4⟩
  | invalid u =>
    have hi := decodeSymLoop_inv hr rfl hc hb
    rw [hr] at h
    obtain ⟨j, h1, h2, h3, h4, h5, h6⟩ := hi
    simp only [Fetched.word.injEq] at h
    obtain ⟨rfl, rfl⟩ := h
    exact .inr ⟨j, rfl, h1, h2, h3, h6, h4, h5⟩
  | needInput u => rw [hr] at h; simp at h
  | stop f => rw [hr] at h; simp at h

theorem fetchSym_eq_suspend {T : Table} {f : Format} {s t : State} (hc : s.acc.cnt.toNat ≤ 24)
    (hb : s.acc.buf < 2 ^ s.acc.cnt.toNat) (h : fetchSym T f s = .suspend t) :
    ∃ j, Pulled s j t ∧ T.matchHeld t.acc = none ∧ t.cur.availIn = 0 ∧ t.acc.cnt.toNat < T.maxlen ∧
      t.acc.cnt.toNat = s.acc.cnt.toNat + 8 * j ∧ t.acc.buf < 2 ^ t.acc.cnt.toNat := by
  unfold fetchSym decodeSym at h
  cases hr : decodeSymLoop T (pullsNeeded T.maxlen s) s with
  | symbol sym u => rw [hr] at h; simp at h
  | invalid u => rw [hr] at h; simp at h
  | needInput u =>
    have hi := decodeSymLoop_inv hr rfl hc hb
    rw [hr] at h
    simp only [Fetched.suspend.injEq] at h
    subst h; exact hi
  | stop f => rw [hr] at h; simp at h

/-! ### Which way a mode reads -/

/-- A mode that reads a field fetches it at the width of its format. -/
theorem fetch_field {s : State} {f : Format} (hr : s.regsOk) (hf : s.fieldFormat = some f) :
    fetch s = fetchField f.width f s := by
  unfold State.fieldFormat at hf
  unfold State.regsOk at hr
  unfold fetch
  split at hf <;> simp_all
  · subst hf; rfl
  · subst hf; rfl
  · subst hf; rfl
  · subst hf; rfl
  · obtain ⟨-, hw, h, -⟩ := hr
    rw [fetchRepeat, fetchReg_written _ _ _ hw]
    rcases h with h | h | h <;> rw [h] at hf ⊢ <;> simp at hf <;> subst hf <;> rfl
  · obtain ⟨-, hw, h1, -⟩ := hr
    rw [fetchLenExtra, fetchReg_written _ _ _ hw, if_pos h1, ← hf]; rfl
  · obtain ⟨-, -, hw, h1, -⟩ := hr
    rw [fetchDistExtra, fetchReg_written _ _ _ hw, if_pos h1, ← hf]; rfl

/-- A mode that reads a symbol fetches it with its table. -/
theorem fetch_symbol {s : State} {f : Format} (hr : s.regsOk) (hf : s.symbolFormat = some f) :
    fetch s = fetchSym s.symbolTable f s := by
  unfold State.symbolFormat at hf
  unfold State.regsOk at hr
  unfold fetch State.symbolTable
  split at hf
  · next hm =>
    simp only [hm, Option.some.injEq] at hr hf ⊢
    rw [fetchReg_written _ _ _ hr.2.2.1.1, hf]
  · next hm =>
    simp only [hm, Option.some.injEq] at hr hf ⊢
    obtain ⟨-, hs, ht⟩ := hr
    rw [withTableLL, fetchReg_written _ _ _ hs, hf]
    cases hsel : s.scratch.tableSel.val with
    | fixed => simp
    | dynamic => simp [fetchReg_written _ _ _ (ht hsel).1.1]
  · next hm =>
    simp only [hm, Option.some.injEq] at hr hf ⊢
    obtain ⟨⟨-, hs, ht⟩, -⟩ := hr
    rw [withTableD, fetchReg_written _ _ _ hs, hf]
    cases hsel : s.scratch.tableSel.val with
    | fixed => simp
    | dynamic => simp [fetchReg_written _ _ _ (ht hsel).2.1]
  all_goals simp at hf

end Sys2Proof.Machine
end

