-- ==== Sys2Proof/Laws/Exec.lean ====
section
/-! SUPPORT. Laws of the meanings: the equations of the shared operations, and what an element's instruction can change at
all. -/

namespace Sys2Proof.Machine

/-! ### Equations -/

@[simp] theorem readReg_put {α : Type} (name : RegName) (v : α) (k : α → Result) :
    readReg name (.put v) k = k v := rfl

theorem Reg.eq_put {α : Type} {r : Reg α} (h : r.written = true) : r = .put r.val := by
  cases r; simp_all [Reg.put]

theorem endBlock_last {s : State} (h : s.scratch.last = .put true) : endBlock s = finish s := by
  rw [endBlock, h]; rfl

theorem endBlock_notLast {s : State} (h : s.scratch.last = .put false) : endBlock s = goto .header s := by
  rw [endBlock, h]; rfl

/-- One code length appended is one element of the array set (R203). -/
theorem fillLens_one (v : Vector (BitVec 4) 316) (i : Nat) (x : BitVec 4) (h : i < 316) :
    fillLens v i 1 x = .ok (v.setIfInBounds i x) := by
  rw [fillLens, if_pos (by omega)]
  refine congrArg _ (Vector.ext fun j hj => ?_)
  rw [Vector.getElem_ofFn, Vector.getElem_setIfInBounds]
  by_cases h2 : i = j
  · rw [if_pos (by dsimp only; omega), if_pos h2]
  · rw [if_neg (by dsimp only; omega), if_neg h2]; rfl

/-- The index at distance `d` behind the cursor is the one from which `d` steps lead to the cursor (R68). -/
theorem Window.backIndex_of {w : Window} {a d : Nat} (ha : a < w.capacity)
    (h : (a + d) % w.capacity = w.cursor) : w.backIndex d = a := by
  unfold Window.backIndex
  have hpos := w.capacity_pos
  generalize w.capacity = W at *
  rw [← h, Nat.mod_add_mod]
  have h1 := Nat.mod_lt d hpos
  have h2 := Nat.div_add_mod d W
  rw [show a + d + (W - d % W) = a + W * (d / W + 1) by rw [Nat.mul_add]; omega, Nat.add_mul_mod_self_left,
    Nat.mod_eq_of_lt ha]

/-! ### What an element can change -/

/-- `t` is `s` but for the mode, the status, whether the DECODE goes on, and the scratch registers without `LAST`. -/
def onlyControl (s t : State) : Prop :=
  t = { s with
    running := t.running, mode := t.mode, status := t.status
    scratch := { t.scratch with last := s.scratch.last } }

/-- A meaning that ends in only such a change: going on in a mode that is not `ERROR`, or raising a fault. -/
def Controls (s : State) (r : Result) : Prop := ∀ t, r = .next t → onlyControl s t ∧
  ((t.running = s.running ∧ t.status = s.status ∧ t.mode ≠ .error ∧ t.mode ≠ .done) ∨
    (t.running = false ∧ t.mode = .done ∧ t.status = .endOfStream) ∨
    (t.running = false ∧ t.mode = .error ∧ ∃ e, t.status = .fault e))

theorem Controls.goto {s u : State} {m : Mode} (h : onlyControl s u) (hr : u.running = s.running)
    (hs : u.status = s.status) (h1 : m ≠ .error) (h2 : m ≠ .done) : Controls s (goto m u) := by
  intro t ht
  simp only [Machine.goto, Host.Outcome.next.injEq] at ht
  subst ht
  refine ⟨?_, .inl ⟨hr, hs, h1, h2⟩⟩
  rw [onlyControl] at h ⊢; rw [h]

theorem Controls.raise {s u : State} {e : StreamFault} (h : onlyControl s u) : Controls s (raise e u) := by
  intro t ht
  simp only [Machine.raise, Host.Outcome.next.injEq] at ht
  subst ht
  refine ⟨?_, .inr (.inr ⟨rfl, rfl, e, rfl⟩)⟩
  rw [onlyControl] at h ⊢; rw [h]

theorem Controls.finish {s u : State} (h : onlyControl s u) : Controls s (finish u) := by
  intro t ht
  simp only [Machine.finish, Host.Outcome.next.injEq] at ht
  subst ht
  refine ⟨?_, .inr (.inl ⟨rfl, rfl, rfl⟩)⟩
  rw [onlyControl] at h ⊢; rw [h]

theorem Controls.fault {s : State} {f : Fault} : Controls s (.fault f) := by intro t ht; simp at ht

theorem Controls.readReg {α : Type} {s : State} {name : RegName} {r : Reg α} {k : α → Result}
    (h : ∀ v, Controls s (k v)) : Controls s (readReg name r k) := by
  intro t ht
  exact h r.val t (readReg_eq_next.1 ht).2

theorem Controls.endBlock {s u : State} (h : onlyControl s u) (hr : u.running = s.running)
    (hs : u.status = s.status) : Controls s (endBlock u) := by
  refine .readReg fun last => ?_
  split
  · exact .finish h
  · exact .goto h hr hs (by simp) (by simp)

theorem Controls.dynCounts (a b : BitVec 5) (c : BitVec 4) (s : State) : Controls s (dynCounts a b c s) := by
  unfold Machine.dynCounts
  simp only
  split
  · exact .raise rfl
  · exact .goto rfl rfl rfl (by simp) (by simp)

theorem Controls.buildCL {s u : State} (lens : Vector (BitVec 3) 19) (h : onlyControl s u)
    (hr : u.running = s.running) (hs : u.status = s.status) : Controls s (buildCL lens u) := by
  unfold Machine.buildCL
  split
  · exact .raise h
  · refine .goto ?_ hr hs (by simp) (by simp)
    rw [onlyControl] at h ⊢; rw [h]

theorem Controls.clcEntry (len : BitVec 3) (s : State) : Controls s (execClcEntry len s) := by
  refine .readReg fun index => .readReg fun lens => .readReg fun hclen => ?_
  split
  · exact .fault
  · simp only
    split
    · exact .buildCL _ rfl rfl rfl
    · exact .goto rfl rfl rfl (by simp) (by simp)

theorem Controls.finishLens {s u : State} (lens : Vector (BitVec 4) 316) (hlit : BitVec 9) (hdist : BitVec 6)
    (h : onlyControl s u) (hr : u.running = s.running) (hs : u.status = s.status) :
    Controls s (finishLens lens hlit hdist u) := by
  unfold Machine.finishLens
  split
  · exact .raise h
  · split
    · exact .raise h
    · split
      · exact .raise h
      · refine .goto ?_ hr hs (by simp) (by simp)
        rw [onlyControl] at h ⊢; rw [h]

theorem Controls.appendLens (n : Nat) (val : BitVec 4) (lens : Vector (BitVec 4) 316) (index hlit : BitVec 9)
    (hdist : BitVec 6) (s : State) : Controls s (appendLens n val lens index hlit hdist s) := by
  unfold Machine.appendLens
  split
  · exact .fault
  · simp only
    split
    · exact .finishLens _ _ _ rfl rfl rfl
    · exact .goto rfl rfl rfl (by simp) (by simp)

theorem Controls.repeatLens (n : Nat) (val : Vector (BitVec 4) 316 → BitVec 9 → Except Fault (BitVec 4))
    (s : State) : Controls s (repeatLens n val s) := by
  refine .readReg fun lens => .readReg fun index => .readReg fun hlit => .readReg fun hdist => ?_
  split
  · exact .fault
  · split
    · exact .raise rfl
    · exact .appendLens _ _ _ _ _ _ _

theorem Controls.lengthSymbol (sym : Nat) (s : State) : Controls s (lengthSymbol sym s) := by
  refine .goto rfl rfl rfl ?_ ?_ <;> split <;> simp

theorem Controls.checkDist {s u : State} (dist : BitVec 16) (h : onlyControl s u) (hr : u.running = s.running)
    (hs : u.status = s.status) : Controls s (checkDist dist u) := by
  unfold Machine.checkDist
  split
  · exact .raise h
  · refine .readReg fun length => .goto ?_ hr hs (by simp) (by simp)
    rw [onlyControl] at h ⊢; rw [h]

theorem Controls.distSymbol (sym : Nat) (s : State) : Controls s (distSymbol sym s) := by
  unfold Machine.distSymbol
  simp only
  split
  · exact .goto rfl rfl rfl (by simp) (by simp)
  · exact .checkDist _ rfl rfl rfl

/-- Every element but a block header, a stored length and a stored byte changes only the mode, the status and the
scratch registers without `LAST`, ending in a mode that goes on, at the end of the stream, or with a fault. -/
theorem controls_exec {i : Instr} (s : State) (hi : isElement i = true)
    (h1 : ∀ last, i ≠ .blockStored last ∧ i ≠ .blockFixed last ∧ i ≠ .blockDynamic last ∧ i ≠ .blockReserved last)
    (h2 : ∀ len nlen, i ≠ .storedLen len nlen) (h3 : ∀ b, i ≠ .storedData b) : Controls s (exec i s) := by
  cases i with
  | blockStored last => exact absurd rfl (h1 last).1
  | blockFixed last => exact absurd rfl (h1 last).2.1
  | blockDynamic last => exact absurd rfl (h1 last).2.2.1
  | blockReserved last => exact absurd rfl (h1 last).2.2.2
  | storedLen len nlen => exact absurd rfl (h2 len nlen)
  | storedData b => exact absurd rfl (h3 b)
  | dynHeader a b c => exact .dynCounts a b c s
  | dynHeaderTooManyHlit a b c => exact .dynCounts a b c s
  | dynHeaderTooManyHdist a b c => exact .dynCounts a b c s
  | clcEntry len => exact .clcEntry len s
  | clLen len =>
    rw [exec, execClLen]
    exact .readReg fun _ => .readReg fun _ => .readReg fun _ => .readReg fun _ => .appendLens _ _ _ _ _ _ _
  | clRepeatPrev =>
    rw [exec, execClRepeatPrev]
    refine .readReg fun index => ?_
    split
    · exact .raise rfl
    · exact .goto rfl rfl rfl (by simp) (by simp)
  | clRepeatZeroShort => exact .goto rfl rfl rfl (by simp) (by simp)
  | clRepeatZeroLong => exact .goto rfl rfl rfl (by simp) (by simp)
  | cl16Extra x => rw [exec, execCl16Extra]; exact .repeatLens _ _ s
  | cl17Extra x => rw [exec, execCl17Extra]; exact .repeatLens _ _ s
  | cl18Extra x => rw [exec, execCl18Extra]; exact .repeatLens _ _ s
  | lit b => exact .goto rfl rfl rfl (by simp) (by simp)
  | eob => exact .endBlock rfl rfl rfl
  | lenExtra n x => rw [exec, execLenExtra]; exact .readReg fun _ => .goto rfl rfl rfl (by simp) (by simp)
  | distExtra n x => rw [exec, execDistExtra]; exact .readReg fun _ => .checkDist _ rfl rfl rfl
  | clNoMatch => exact .raise rfl
  | llNoMatch => exact .raise rfl
  | dNoMatch => exact .raise rfl
  | llInvalid286 => exact .raise rfl
  | llInvalid287 => exact .raise rfl
  | dInvalid30 => exact .raise rfl
  | dInvalid31 => exact .raise rfl
  | init wb => simp [isElement, encode] at hi
  | reset keep => simp [isElement, encode] at hi
  | decode args => simp [isElement, encode] at hi
  | hostcmdReserved code => simp [isElement, encode] at hi
  | len257 | len258 | len259 | len260 | len261 | len262 | len263 | len264 | len265 | len266 | len267 | len268
  | len269 | len270 | len271 | len272 | len273 | len274 | len275 | len276 | len277 | len278 | len279 | len280
  | len281 | len282 | len283 | len284 | len285 =>
    simp only [exec, execLen257, execLen258, execLen259, execLen260, execLen261, execLen262, execLen263, execLen264, execLen265,
      execLen266, execLen267, execLen268, execLen269, execLen270, execLen271, execLen272, execLen273, execLen274,
      execLen275, execLen276, execLen277, execLen278, execLen279, execLen280, execLen281, execLen282, execLen283,
      execLen284, execLen285]
    exact .lengthSymbol _ s
  | dist0 | dist1 | dist2 | dist3 | dist4 | dist5 | dist6 | dist7 | dist8 | dist9 | dist10 | dist11 | dist12
  | dist13 | dist14 | dist15 | dist16 | dist17 | dist18 | dist19 | dist20 | dist21 | dist22 | dist23 | dist24
  | dist25 | dist26 | dist27 | dist28 | dist29 =>
    simp only [exec, execDist0, execDist1, execDist2, execDist3, execDist4, execDist5, execDist6, execDist7, execDist8,
      execDist9, execDist10, execDist11, execDist12, execDist13, execDist14, execDist15, execDist16, execDist17,
      execDist18, execDist19, execDist20, execDist21, execDist22, execDist23, execDist24, execDist25, execDist26,
      execDist27, execDist28, execDist29]
    exact .distSymbol _ s

end Sys2Proof.Machine
end

