-- ==== Sys2Proof/Laws/Step.lean ====
section
/-! SUPPORT. Laws of the step: everything a step inside a DECODE can do, said once. -/

namespace Sys2Proof.Machine

/-! ### Fetching changes the accumulator and the input cursors only -/

theorem State.readsTo_refl (s : State) : s.readsTo s := rfl

theorem State.readsTo.trans {s t u : State} (h1 : s.readsTo t) (h2 : t.readsTo u) : s.readsTo u := by
  unfold State.readsTo at *
  rw [h1] at h2
  exact h2

theorem Pulled.readsTo {s t : State} {k : Nat} (h : Pulled s k t) : s.readsTo t := by
  have := h.frame
  unfold State.readsTo
  rw [this]

theorem readsTo_dropBits (s : State) (n : Nat) : s.readsTo (dropBits n s) := rfl

/-- `t` is `s` after `k` bytes of the input are taken: the cursors have moved by `k`, at most as many as were offered, and
only they and the accumulator have changed (R23, R24). -/
def State.takes (s : State) (k : Nat) (t : State) : Prop :=
  s.readsTo t ∧ k ≤ s.cur.availIn ∧ t.cur.nextIn = advance s.params s.cur.nextIn k ∧
    t.cur.availIn = s.cur.availIn - k ∧ t.cur.totalIn = advance s.params s.cur.totalIn k

theorem State.readsTo.params_eq {s t : State} (h : s.readsTo t) : t.params = s.params := by
  unfold State.readsTo at h; rw [h]

theorem State.takes_zero {s t : State} (h : s.readsTo t) (hc : t.cur = s.cur) : s.takes 0 t :=
  ⟨h, Nat.zero_le _, by simp [hc], by simp [hc], by simp [hc]⟩

theorem State.takes.trans {s t u : State} {j k : Nat} (h1 : s.takes j t) (h2 : t.takes k u) : s.takes (j + k) u := by
  obtain ⟨a1, b1, c1, d1, e1⟩ := h1
  obtain ⟨a2, b2, c2, d2, e2⟩ := h2
  have hp := a1.params_eq
  exact ⟨a1.trans a2, by omega, by rw [c2, c1, hp, advance_advance], by omega, by rw [e2, e1, hp, advance_advance]⟩

theorem Pulled.takes {s t : State} {k : Nat} (h : Pulled s k t) : s.takes k t := by
  have := h.availIn
  exact ⟨h.readsTo, by omega, h.nextIn, by omega, h.totalIn⟩

/-- The state a symbol decode leaves, where there is one. -/
def SymReads (s : State) : SymResult → Prop
  | .symbol _ t => ∃ k, s.takes k t
  | .invalid t => ∃ k, s.takes k t
  | .needInput t => ∃ k, s.takes k t
  | .stop _ => True

theorem SymReads.trans {s t : State} {r : SymResult} {k : Nat} (h1 : s.takes k t) (h2 : SymReads t r) :
    SymReads s r := by
  cases r <;> simp only [SymReads] at * <;> obtain ⟨j, h2⟩ := h2 <;> exact ⟨k + j, h1.trans h2⟩

theorem decodeSymLoop_takes {T : Table} {k : Nat} {s : State} : SymReads s (decodeSymLoop T k s) := by
  induction k generalizing s with
  | zero =>
    rw [decodeSymLoop]
    split
    · exact ⟨0, State.takes_zero (readsTo_dropBits s _) rfl⟩
    · exact ⟨0, State.takes_zero (State.readsTo_refl s) rfl⟩
  | succ k ih =>
    rw [decodeSymLoop]
    split
    · exact ⟨0, State.takes_zero (readsTo_dropBits s _) rfl⟩
    · split
      · exact ⟨0, State.takes_zero (State.readsTo_refl s) rfl⟩
      · next hin =>
        split
        · next s' hp =>
          obtain ⟨b, hb, rfl⟩ := pull_eq_ok.1 hp
          exact SymReads.trans (Pulled.step hin hb (.refl _)).takes ih
        · trivial

/-- What was fetched leaves all but the accumulator and the input cursors as it was, and it is of a format that the mode
reads. -/
def FetchOk (s : State) : Fetched → Prop
  | .word w t => (∃ k, s.takes k t) ∧ ∃ f, modeOf f = s.mode ∧ ((∃ v, w = .field f v) ∨ w = .noMatch f)
  | .suspend t => ∃ k, s.takes k t
  | .stop _ => True

theorem FetchOk.field {s : State} {n : Nat} {f : Format} (hf : modeOf f = s.mode) : FetchOk s (fetchField n f s) := by
  cases h : fetchField n f s with
  | stop e => trivial
  | suspend t =>
    obtain ⟨-, j, -, hp⟩ := fetchField_eq_suspend h
    exact ⟨j, hp.takes⟩
  | word w t =>
    obtain ⟨u, hp, -, rfl, rfl⟩ := fetchField_eq_word h
    exact ⟨⟨_, hp.takes.trans (State.takes_zero (readsTo_dropBits u n) rfl)⟩, f, hf, .inl ⟨_, rfl⟩⟩

theorem FetchOk.sym {s : State} {T : Table} {f : Format} (hf : modeOf f = s.mode) : FetchOk s (fetchSym T f s) := by
  have := decodeSymLoop_takes (T := T) (k := pullsNeeded T.maxlen s) (s := s)
  unfold fetchSym decodeSym
  revert this
  cases decodeSymLoop T (pullsNeeded T.maxlen s) s <;> simp only [FetchOk, SymReads] <;> intro h
  · exact ⟨h, f, hf, .inl ⟨_, rfl⟩⟩
  · exact ⟨h, f, hf, .inr rfl⟩
  · exact h
  · trivial

theorem FetchOk.reg {α : Type} {s : State} {name : RegName} {r : Reg α} {k : α → Fetched}
    (h : FetchOk s (k r.val)) : FetchOk s (fetchReg name r k) := by
  unfold fetchReg; split
  · exact h
  · trivial

theorem fetch_ok (s : State) : FetchOk s (fetch s) := by
  unfold fetch
  cases hm : s.mode with
  | header | storedLen | dynCounts | dynClc => exact .field (by rw [hm]; rfl)
  | storedCopy =>
    simp only [fetchStored]
    split
    · exact ⟨0, State.takes_zero (State.readsTo_refl s) rfl⟩
    · next hav =>
      cases readIn s with
      | error e => trivial
      | ok b =>
        have : s.cur.availIn ≠ 0 := fun h => hav (.inl h)
        exact ⟨⟨1, rfl, by omega, rfl, rfl, rfl⟩, .storedData, hm.symm, .inl ⟨_, rfl⟩⟩
  | dynLens => exact .reg (.sym (by rw [hm]; rfl))
  | dynRepeat =>
    refine .reg ?_
    split
    · exact .field (by rw [hm]; rfl)
    · exact .field (by rw [hm]; rfl)
    · exact .field (by rw [hm]; rfl)
    · trivial
  | llSym =>
    refine .reg ?_
    split
    · exact .sym (by rw [hm]; rfl)
    · exact .reg (.sym (by rw [hm]; rfl))
  | lenExtra =>
    refine .reg ?_
    split
    · exact .field (by rw [hm]; rfl)
    · trivial
  | distSym =>
    refine .reg ?_
    split
    · exact .sym (by rw [hm]; rfl)
    · exact .reg (.sym (by rw [hm]; rfl))
  | distExtra =>
    refine .reg ?_
    split
    · exact .field (by rw [hm]; rfl)
    · trivial
  | litEmit | copy | done | error => exact ⟨0, State.takes_zero (State.readsTo_refl s) rfl⟩

/-! ### Which instruction a mode reads -/

/-- The instructions of a format. -/
theorem decode_format {f : Format} {w : InstrWord} {i : Instr} (hw : (∃ v, w = .field f v) ∨ w = .noMatch f)
    (h : decode w = .ok i) : isElement i = true ∧
      ((f = .hdr3 ∧ ∃ last, i = .blockStored last ∨ i = .blockFixed last ∨ i = .blockDynamic last ∨
        i = .blockReserved last) ∨
      (f = .stored32 ∧ ∃ len nlen, i = .storedLen len nlen) ∨
      (f = .storedData ∧ ∃ b, i = .storedData b) ∨
      ((∀ last, i ≠ .blockStored last ∧ i ≠ .blockFixed last ∧ i ≠ .blockDynamic last ∧ i ≠ .blockReserved last) ∧
        (∀ len nlen, i ≠ .storedLen len nlen) ∧ ∀ b, i ≠ .storedData b)) := by
  rcases hw with ⟨v, rfl⟩ | rfl
  · rw [decode] at h
    unfold decodeField at h
    split at h
    · simp at h
    · cases f with
      | hdr3 =>
        simp only [Except.ok.injEq] at h
        subst h
        unfold decodeHdr3
        simp only
        split
        · exact ⟨rfl, .inl ⟨trivial, _, .inl rfl⟩⟩
        · exact ⟨rfl, .inl ⟨trivial, _, .inr (.inl rfl)⟩⟩
        · exact ⟨rfl, .inl ⟨trivial, _, .inr (.inr (.inl rfl))⟩⟩
        · exact ⟨rfl, .inl ⟨trivial, _, .inr (.inr (.inr rfl))⟩⟩
      | stored32 =>
        simp only [Except.ok.injEq] at h
        subst h
        exact ⟨rfl, .inr (.inl ⟨rfl, _, _, rfl⟩)⟩
      | storedData =>
        simp only [Except.ok.injEq] at h
        subst h
        exact ⟨rfl, .inr (.inr (.inl ⟨rfl, _, rfl⟩))⟩
      | dynhdr14 =>
        simp only [Except.ok.injEq] at h
        subst h
        unfold decodeDynhdr14
        simp only
        split
        · exact ⟨rfl, by simp⟩
        · split <;> exact ⟨rfl, by simp⟩
      | clsym =>
        simp only [decodeClsym] at h
        split at h
        · simp only [Except.ok.injEq] at h; subst h; exact ⟨rfl, by simp⟩
        · split at h <;> simp only [Except.ok.injEq, reduceCtorEq] at h <;> subst h <;> exact ⟨rfl, by simp⟩
      | llsym =>
        simp only [decodeLlsym] at h
        split at h
        · simp only [Except.ok.injEq] at h; subst h; exact ⟨rfl, by simp⟩
        · split at h <;> simp only [Except.ok.injEq, reduceCtorEq] at h <;> subst h <;> exact ⟨rfl, by simp⟩
      | dsym =>
        simp only [decodeDsym] at h
        split at h <;> simp only [Except.ok.injEq, reduceCtorEq] at h <;> subst h <;> exact ⟨rfl, by simp⟩
      | lenExtra n =>
        simp only at h
        split at h <;> simp only [Except.ok.injEq, reduceCtorEq] at h
        subst h; exact ⟨rfl, by simp⟩
      | distExtra n =>
        simp only at h
        split at h <;> simp only [Except.ok.injEq, reduceCtorEq] at h
        subst h; exact ⟨rfl, by simp⟩
      | clc3 | clExtra16 | clExtra17 | clExtra18 =>
        simp only [Except.ok.injEq] at h; subst h; exact ⟨rfl, by simp⟩
  · rw [decode] at h
    cases f <;> simp only [decodeNoMatch, Except.ok.injEq, reduceCtorEq] at h <;> subst h <;> exact ⟨rfl, by simp⟩

/-! ### What an element's instruction can do -/

/-- How an element's instruction can end. -/
inductive ElementEnd (u t : State) : Prop where
  | goesOn (hr : t.running = u.running) (hs : t.status = u.status) (he : t.mode ≠ .error) (hd : t.mode ≠ .done)
  | finished (hr : t.running = false) (hm : t.mode = .done) (hs : t.status = .endOfStream)
  | raised (hr : t.running = false) (hm : t.mode = .error) (hs : ∃ e, t.status = .fault e) (ha : t.acc = u.acc)

/-- Everything an element's instruction can change (R42, R66, R303): a stored byte emits it, and any other element changes
no memory, no cursor and no window; a stored header or length also drops bits, and only a header writes `LAST`. -/
theorem exec_element {i : Instr} {u t : State} (hi : isElement i = true) (h : exec i u = .next t) :
    ElementEnd u t ∧
    ((∃ b, i = .storedData b ∧ t.scratch.last = u.scratch.last ∧ t = { emit b u with
        running := t.running, mode := t.mode, status := t.status, scratch := t.scratch }) ∨
      ((∀ b, i ≠ .storedData b) ∧ t = { u with
        acc := t.acc, running := t.running, mode := t.mode, status := t.status, scratch := t.scratch } ∧
        (t.scratch.last = u.scratch.last ∨ ∃ last, i = .blockStored last ∨ i = .blockFixed last ∨
          i = .blockDynamic last ∨ i = .blockReserved last))) := by
  by_cases h1 : ∃ last, i = .blockStored last ∨ i = .blockFixed last ∨ i = .blockDynamic last ∨ i = .blockReserved last
  · obtain ⟨last, rfl | rfl | rfl | rfl⟩ := h1
    · rw [exec, execBlockStored, Machine.goto, Host.Outcome.next.injEq] at h
      subst h
      exact ⟨.goesOn rfl rfl (by simp) (by simp), .inr ⟨by simp, rfl, .inr ⟨last, by simp⟩⟩⟩
    · rw [exec, execBlockFixed, Machine.goto, Host.Outcome.next.injEq] at h
      subst h
      exact ⟨.goesOn rfl rfl (by simp) (by simp), .inr ⟨by simp, rfl, .inr ⟨last, by simp⟩⟩⟩
    · rw [exec, execBlockDynamic, Machine.goto, Host.Outcome.next.injEq] at h
      subst h
      exact ⟨.goesOn rfl rfl (by simp) (by simp), .inr ⟨by simp, rfl, .inr ⟨last, by simp⟩⟩⟩
    · rw [exec, execBlockReserved, Machine.raise, Host.Outcome.next.injEq] at h
      subst h
      exact ⟨.raised rfl rfl ⟨_, rfl⟩ rfl, .inr ⟨by simp, rfl, .inr ⟨last, by simp⟩⟩⟩
  by_cases h2 : ∃ len nlen, i = .storedLen len nlen
  · obtain ⟨len, nlen, rfl⟩ := h2
    rw [exec, execStoredLen] at h
    split at h
    · rw [Machine.raise, Host.Outcome.next.injEq] at h
      subst h
      exact ⟨.raised rfl rfl ⟨_, rfl⟩ rfl, .inr ⟨by simp, rfl, .inl rfl⟩⟩
    · simp only at h
      split at h
      · obtain ⟨-, h⟩ := readReg_eq_next.1 h
        split at h
        · rw [Machine.finish, Host.Outcome.next.injEq] at h
          subst h
          exact ⟨.finished rfl rfl rfl, .inr ⟨by simp, rfl, .inl rfl⟩⟩
        · rw [Machine.goto, Host.Outcome.next.injEq] at h
          subst h
          exact ⟨.goesOn rfl rfl (by simp) (by simp), .inr ⟨by simp, rfl, .inl rfl⟩⟩
      · rw [Machine.goto, Host.Outcome.next.injEq] at h
        subst h
        exact ⟨.goesOn rfl rfl (by simp) (by simp), .inr ⟨by simp, rfl, .inl rfl⟩⟩
  by_cases h3 : ∃ b, i = .storedData b
  · obtain ⟨b, rfl⟩ := h3
    rw [exec, execStoredData] at h
    obtain ⟨-, h⟩ := readReg_eq_next.1 h
    simp only at h
    split at h
    · obtain ⟨-, h⟩ := readReg_eq_next.1 h
      split at h
      · rw [Machine.finish, Host.Outcome.next.injEq] at h
        subst h
        exact ⟨.finished rfl rfl rfl, .inl ⟨b, rfl, rfl, rfl⟩⟩
      · rw [Machine.goto, Host.Outcome.next.injEq] at h
        subst h
        exact ⟨.goesOn rfl rfl (by simp) (by simp), .inl ⟨b, rfl, rfl, rfl⟩⟩
    · rw [Machine.goto, Host.Outcome.next.injEq] at h
      subst h
      exact ⟨.goesOn rfl rfl (by simp) (by simp), .inl ⟨b, rfl, rfl, rfl⟩⟩
  push Not at h1 h2 h3
  obtain ⟨hc, he⟩ := controls_exec u hi (fun last => h1 last) h2 h3 t h
  have hacc : t.acc = u.acc := by rw [onlyControl] at hc; rw [hc]
  refine ⟨?_, .inr ⟨h3, ?_, .inl ?_⟩⟩
  · rcases he with ⟨h4, h5, h6, h7⟩ | ⟨h4, h5, h6⟩ | ⟨h4, h5, h6⟩
    · exact .goesOn h4 h5 h6 h7
    · exact .finished h4 h5 h6
    · exact .raised h4 h5 h6 hacc
  · rw [onlyControl] at hc; rw [hc]
  · rw [onlyControl] at hc; rw [hc]

/-! ### What a step inside a DECODE can do -/

theorem step_element {s : State} (hr : s.running = true) (hm : s.mode.readsElement = true) :
    step s = runFetched (fetch s) := by
  rw [step, if_pos hr, stepRunning]
  cases h : s.mode <;> simp_all [Mode.readsElement]

theorem step_litEmit {s : State} (hr : s.running = true) (hm : s.mode = .litEmit) : step s = stepLitEmit s := by
  rw [step, if_pos hr, stepRunning, hm]

theorem step_copy {s : State} (hr : s.running = true) (hm : s.mode = .copy) : step s = stepCopy s := by
  rw [step, if_pos hr, stepRunning, hm]

/-- Everything a step inside a DECODE can do (R273). -/
theorem step_running {s t : State} (hr : s.running = true) (h : step s = .next t) :
    (s.mode.readsElement = true ∧ ∃ u, fetch s = .suspend u ∧ (∃ k, s.takes k u) ∧
      t = { u with status := .ok, running := false }) ∨
    (s.mode.readsElement = true ∧ ∃ w u i f, fetch s = .word w u ∧ (∃ k, s.takes k u) ∧ decode w = .ok i ∧
      modeOf f = s.mode ∧ ((∃ v, w = .field f v) ∨ w = .noMatch f) ∧ isElement i = true ∧ exec i u = .next t) ∨
    ((s.mode = .litEmit ∨ s.mode = .copy) ∧ s.cur.availOut = 0 ∧ t = { s with status := .ok, running := false }) ∨
    (s.mode = .litEmit ∧ s.cur.availOut ≠ 0 ∧ s.scratch.litVal.written = true ∧
      t = { emit s.scratch.litVal.val s with mode := .llSym }) ∨
    (s.mode = .copy ∧ s.cur.availOut ≠ 0 ∧ s.scratch.dist.written = true ∧ s.scratch.copyRemain.written = true ∧
      ∃ b, winBack s.scratch.dist.val.toNat s = .ok b ∧ t = { emit b s with
        mode := if s.scratch.copyRemain.val - 1 = 0 then .llSym else .copy
        scratch := { s.scratch with copyRemain := .put (s.scratch.copyRemain.val - 1) } }) ∨
    (s.mode = .done ∧ t = { s with status := .endOfStream, running := false }) ∨
    (s.mode = .error ∧ t = { s with running := false }) := by
  by_cases hm : s.mode.readsElement = true
  · rw [step_element hr hm] at h
    have hok := fetch_ok s
    cases hf : fetch s with
    | stop f => rw [hf] at h; simp [runFetched] at h
    | suspend u =>
      rw [hf] at h hok
      simp only [runFetched, Machine.suspend, Host.Outcome.next.injEq] at h
      exact .inl ⟨hm, u, rfl, hok, h.symm⟩
    | word w u =>
      rw [hf] at h hok
      obtain ⟨hu, f, hfm, hw⟩ := hok
      simp only [runFetched, runWord] at h
      cases hd : decode w with
      | error e => rw [hd] at h; simp at h
      | ok i =>
        rw [hd] at h
        exact .inr (.inl ⟨hm, w, u, i, f, rfl, hu, hd, hfm, hw, (decode_format hw hd).1, h⟩)
  · right; right
    cases hmode : s.mode <;> simp only [hmode, Mode.readsElement, not_true, reduceCtorEq, not_false_eq_true] at hm
    · rw [step_litEmit hr hmode, stepLitEmit] at h
      split at h
      · next h0 => simp only [Machine.suspend, Host.Outcome.next.injEq] at h; exact .inl ⟨.inl rfl, h0, by rw [← h, hmode]⟩
      · next h0 =>
        obtain ⟨hw, h⟩ := readReg_eq_next.1 h
        simp only [Machine.goto, Host.Outcome.next.injEq] at h
        exact .inr (.inl ⟨rfl, h0, hw, h.symm⟩)
    · rw [step_copy hr hmode, stepCopy] at h
      split at h
      · next h0 => simp only [Machine.suspend, Host.Outcome.next.injEq] at h; exact .inl ⟨.inr rfl, h0, by rw [← h, hmode]⟩
      · next h0 =>
        obtain ⟨hd, h⟩ := readReg_eq_next.1 h
        obtain ⟨hc, h⟩ := readReg_eq_next.1 h
        split at h
        · simp at h
        · next b hb =>
          simp only [Machine.goto, Host.Outcome.next.injEq] at h
          exact .inr (.inr (.inl ⟨rfl, h0, hd, hc, b, hb, h.symm⟩))
    · rw [step, if_pos hr, stepRunning, hmode] at h
      simp only [enterDecode, hmode, Host.Outcome.next.injEq] at h
      exact .inr (.inr (.inr (.inl ⟨rfl, h.symm⟩)))
    · rw [step, if_pos hr, stepRunning, hmode] at h
      simp only [enterDecode, hmode, Host.Outcome.next.injEq] at h
      exact .inr (.inr (.inr (.inr ⟨rfl, h.symm⟩)))

/-! ### What a step between commands can do -/

/-- Everything a command that is not refused does (R270, R271, R272, R274). -/
theorem step_idle {s t : State} (hr : s.running = false) (h : step s = .next t) :
    (s.pending = [] ∧ t = s) ∨ ∃ p rest, s.pending = p :: rest ∧
      ((p.code = 0 ∧ p.wb ≤ 15 ∧ ∃ r, noScratchValue r ∧ t = { s with
          pending := rest, constructed := true, running := false, acc := ⟨0, 0⟩, mode := .header, status := .ok
          scratch := r, win := ⟨BitVec.ofNat 4 p.wb, [], 0, 0⟩, cur := .afterInit s.params s.freeCount
          freeCount := s.freeCount + 4 }) ∨
        (p.code = 1 ∧ s.constructed = true ∧ ∃ r, noScratchValue r ∧ t = { s with
          pending := rest, running := false, acc := ⟨0, 0⟩, mode := .header, status := .ok, scratch := r
          win := if p.keep then s.win else s.win.clear
          cur := { s.cur with totalIn := 0, totalOut := 0 } }) ∨
        (p.code = 2 ∧ s.constructed = true ∧ regionsHold (receivedArgs s.params p.args) ∧
          ¬ rangesOverlap (receivedArgs s.params p.args) ∧
          t = { offer (receivedArgs s.params p.args) s with pending := rest, running := t.running, status := t.status } ∧
          ((s.mode = .done ∧ t.running = false ∧ t.status = .endOfStream) ∨
            (s.mode = .error ∧ t.running = false ∧ t.status = s.status) ∨
            (s.mode ≠ .done ∧ s.mode ≠ .error ∧ t.running = true ∧ t.status = s.status)))) := by
  rw [step, if_neg (by simp [hr]), stepIdle] at h
  split at h
  · next hp => simp only [Host.Outcome.next.injEq] at h; exact .inl ⟨hp, h.symm⟩
  · next p rest hp =>
    refine .inr ⟨p, rest, hp, ?_⟩
    simp only [runWord, decode, decodeHost] at h
    split at h
    · next h0 =>
      rw [exec, execInit] at h
      split at h
      · simp at h
      · next hw =>
        simp only [Host.Outcome.next.injEq] at h
        exact .inl ⟨by bv_omega, by omega, _, noScratchValue_clear s.scratch, h.symm⟩
    · next h1 =>
      rw [exec, execReset] at h
      split at h
      · simp at h
      · next hw =>
        simp only [Host.Outcome.next.injEq] at h
        refine .inr (.inl ⟨by bv_omega, not_not.1 hw, _, noScratchValue_clear s.scratch, ?_⟩)
        rw [← h]
        split <;> rfl
    · next h2 =>
      rw [exec, execDecode] at h
      split at h
      · simp at h
      · next hc =>
        split at h
        · simp at h
        · next hreg =>
          split at h
          · simp at h
          · next hov =>
            have hreg := not_not.1 hreg
            refine .inr (.inr ⟨by bv_omega, not_not.1 hc, hreg, hov, ?_⟩)
            unfold enterDecode at h
            cases hm : s.mode <;> simp only [offer, hm, Host.Outcome.next.injEq] at h <;> subst h <;> simp [offer, hm]
    · rw [exec, execHostcmdReserved] at h; simp at h

end Sys2Proof.Machine
end

