-- ==== Sys2Proof/Laws/Meaning.lean ====
section
/-! SUPPORT. Laws of the meanings, in order: in the mode that reads it, every element decodes and its instruction answers a next state
with its registers and its accumulator in order (R44, R137). -/

namespace Sys2Proof.Machine

/-- The accumulator holds at most `n` bits, and `BITBUF` is zero above them (R30). -/
def State.holdsAtMost (n : Nat) (s : State) : Prop := s.acc.buf < 2 ^ s.acc.cnt.toNat ∧ s.acc.cnt.toNat ≤ n

theorem State.holdsAtMost.mono {m n : Nat} {s : State} (h : State.holdsAtMost m s) (hmn : m ≤ n) :
    State.holdsAtMost n s := ⟨h.1, h.2.trans hmn⟩

/-- A result that is a next state whose registers and accumulator are in order. -/
def InOrder (r : Result) : Prop := ∃ t, r = .next t ∧ t.regsOk ∧ t.accOk

theorem InOrder.raise {e : StreamFault} {u : State} (h : State.holdsAtMost 32 u) : InOrder (raise e u) :=
  ⟨_, rfl, trivial, h.1, h.2⟩

theorem InOrder.finish {u : State} (h : State.holdsAtMost 7 u) : InOrder (finish u) :=
  ⟨_, rfl, trivial, h.1, h.2⟩

theorem InOrder.goto7 {m : Mode} {u : State} (h : State.holdsAtMost 7 u) (hm : m ≠ .storedLen ∧ m ≠ .storedCopy)
    (hr : ({ u with mode := m } : State).regsOk) : InOrder (goto m u) := by
  refine ⟨_, rfl, hr, h.1, ?_⟩
  have := h.2
  unfold State.heldOk
  cases m <;> simp_all <;> omega

theorem InOrder.readReg {α : Type} {name : RegName} {r : Reg α} {k : α → Result} (hw : r.written = true) (h :
    InOrder (k r.val)) : InOrder (readReg name r k) := by
  rwa [readReg_written _ _ _ hw]

theorem InOrder.endBlock {u : State} (h : State.holdsAtMost 7 u) (hl : u.scratch.last.written = true) :
    InOrder (endBlock u) := by
  refine .readReg hl ?_
  split
  · exact .finish h
  · exact .goto7 h (by simp) trivial

/-! ### Block headers and stored blocks -/

theorem inOrder_header {u : State} {v : Nat} (h : State.holdsAtMost 7 u) (hv : v < 8) : ∃ i, decode (.field .hdr3 v)
    = .ok i ∧ InOrder (exec i u) := by
  refine ⟨decodeHdr3 v, ?_, ?_⟩
  · rw [decode, decodeField, if_neg (by simp [Format.width]; omega)]
  · unfold decodeHdr3
    simp only
    split
    · refine ⟨_, rfl, rfl, ?_, ?_⟩
      · exact Accumulator.drop_lt _ _ h.1 (Nat.mod_le ..)
      · have := Accumulator.drop_cnt_toNat u.acc (u.acc.cnt.toNat % 8) (Nat.mod_le ..)
        have h7 := h.2
        show (u.acc.drop (u.acc.cnt.toNat % 8)).cnt.toNat % 8 = 0 ∧ (u.acc.drop (u.acc.cnt.toNat % 8)).cnt.toNat ≤ 24
        omega
    · refine InOrder.goto7 (u := { (writeLast _ u) with scratch := _}) h (by simp) ⟨rfl, rfl, ?_⟩
      intro h; simp at h
    · exact InOrder.goto7 (u := writeLast _ u) h (by simp) rfl
    · exact InOrder.raise (u := writeLast _ u) (h.mono (by omega))

theorem inOrder_storedLen {u : State} {v : Nat} (h : State.holdsAtMost 7 u) (hl : u.scratch.last.written = true)
    (hv : v < 2 ^ 32) : ∃ i, decode (.field .stored32 v) = .ok i ∧ InOrder (exec i u) := by
  refine ⟨_, by rw [decode, decodeField, if_neg (by simp [Format.width]; omega)], ?_⟩
  rw [exec, execStoredLen]
  split
  · exact .raise (h.mono (by omega))
  · simp only
    split
    · exact .endBlock ⟨by simp, by simp⟩ hl
    · next h0 => exact ⟨_, rfl, ⟨hl, rfl, h0⟩, by simp, by simp [State.heldOk]⟩

theorem inOrder_storedData {u : State} (b : Byte) (hr : u.regsOk) (hm : u.mode = .storedCopy) (hh :
    State.holdsAtMost 0 u) : ∃ i, decode (.field .storedData b.toNat) = .ok i ∧ InOrder (exec i u) := by
  refine ⟨.storedData b, ?_, ?_⟩
  · have := b.isLt
    rw [decode, decodeField, if_neg (by simp [Format.width]; omega)]; simp
  · simp only [State.regsOk, hm] at hr
    rw [exec, execStoredData]
    refine .readReg hr.2.1 ?_
    simp only
    split
    · refine .endBlock ⟨hh.1, hh.2.trans (by omega)⟩ hr.1
    · next h0 =>
      refine ⟨_, rfl, ⟨hr.1, rfl, h0⟩, hh.1, ?_⟩
      exact Nat.le_zero.1 hh.2

/-! ### Dynamic header -/

theorem inOrder_dynCounts {u : State} {v : Nat} (h : State.holdsAtMost 7 u) (hl : u.scratch.last.written = true)
    (hv : v < 2 ^ 14) : ∃ i, decode (.field .dynhdr14 v) = .ok i ∧ InOrder (exec i u) := by
  refine ⟨_, by rw [decode, decodeField, if_neg (by simp [Format.width]; omega)], ?_⟩
  have key : ∀ a b c, InOrder (dynCounts a b c u) := by
    intro a b c
    unfold dynCounts
    simp only
    split
    · exact .raise (u := writeCounts a b c u) (h.mono (by omega))
    · next hn =>
      have ha := a.isLt
      have hb := b.isLt
      have hc := c.isLt
      have e1 : (hlitOf a).toNat = a.toNat + 257 := by simp [hlitOf]; omega
      have e2 : (hdistOf b).toNat = b.toNat + 1 := by simp [hdistOf]; omega
      have e3 : (hclenOf c).toNat = c.toNat + 4 := by simp [hclenOf]; omega
      refine InOrder.goto7 (u := { (writeCounts a b c u) with scratch := _ }) h (by simp) ⟨hl, ⟨rfl, rfl, ?_, ?_,
          ?_, ?_⟩, ⟨rfl, ?_, ?_⟩, rfl, rfl, ?_⟩
      all_goals simp only [writeCounts, Reg.put_val, e1, e2, e3]
      all_goals simp only [not_or] at hn
      all_goals first | omega | simp
  unfold decodeDynhdr14
  simp only
  split
  · exact key _ _ _
  · split <;> exact key _ _ _

theorem inOrder_buildCL {u : State} (lens : Vector (BitVec 3) 19) (h : State.holdsAtMost 7 u) (hl :
    u.scratch.last.written = true) (hc : countsOk u.scratch) : InOrder (buildCL lens u) := by
  unfold buildCL
  split
  · exact .raise (h.mono (by omega))
  · next T hT =>
    refine .goto7 (u := { u with scratch := _ }) h (by simp) ⟨hl, hc, ⟨rfl, ?_, ?_⟩, rfl, rfl, ?_⟩
    · have := (build_eq_ok.1 hT).1
      simp only [acceptedTable, Reg.put_val]; rw [this]; rw [this] at hT; exact hT
    · have := (build_eq_ok.1 hT).1
      simp only [Reg.put_val]; rw [this]; simp [clcLensList]
    · simp only [Reg.put_val]
      have := hc.2.2.1
      simp; omega

theorem inOrder_dynClc {u : State} {v : Nat} (h : State.holdsAtMost 7 u) (hr : u.regsOk) (hm : u.mode = .dynClc)
    (hv : v < 8) : ∃ i, decode (.field .clc3 v) = .ok i ∧ InOrder (exec i u) := by
  refine ⟨_, by rw [decode, decodeField, if_neg (by simp [Format.width]; omega)], ?_⟩
  simp only [State.regsOk, hm] at hr
  obtain ⟨hl, hc, ⟨hw, h4, h19⟩, hcl, hci, hlt⟩ := hr
  rw [exec, execClcEntry]
  refine .readReg hci (.readReg hcl (.readReg hw ?_))
  have hix : u.scratch.clcIndex.val.toNat < clcOrder.length := by simp [clcOrder]; omega
  rw [List.getElem?_eq_getElem hix]
  simp only
  split
  · exact inOrder_buildCL _ h hl hc
  · next hne =>
    refine .goto7 (u := { u with scratch := _ }) h (by simp) ⟨hl, hc, ⟨hw, h4, h19⟩, rfl, rfl, ?_⟩
    simp only [Reg.put_val]
    have : (u.scratch.clcIndex.val + 1).toNat = u.scratch.clcIndex.val.toNat + 1 := by
      rw [BitVec.toNat_add]; simp; omega
    have : (u.scratch.clcIndex.val + 1).toNat ≠ u.scratch.hclen.val.toNat := fun he => hne (BitVec.eq_of_toNat_eq he)
    omega

theorem inOrder_finishLens {u : State} (lens : Vector (BitVec 4) 316) (hlit : BitVec 9) (hdist : BitVec 6) (h :
    State.holdsAtMost 7 u) (hl : u.scratch.last.written = true) (h1 : hlit.toNat ≤ 286) (h2 : hdist.toNat ≤ 30) :
    InOrder (finishLens lens hlit hdist u) := by
  unfold finishLens
  split
  · exact .raise (h.mono (by omega))
  · split
    · exact .raise (h.mono (by omega))
    · next T hT =>
      split
      · exact .raise (h.mono (by omega))
      · next U hU =>
        refine .goto7 (u := { u with scratch := _ }) h (by simp) ⟨hl, rfl, fun _ => ⟨⟨rfl, ?_, ?_⟩, rfl, ?_, ?_⟩⟩
        · have := (build_eq_ok.1 hT).1
          simp only [acceptedTable, Reg.put_val]; rw [this]; rw [this] at hT; exact hT
        · have := (build_eq_ok.1 hT).1
          simp only [Reg.put_val]; rw [this]; exact (List.length_take_le _ _).trans h1
        · have := (build_eq_ok.1 hU).1
          simp only [acceptedTable, Reg.put_val]; rw [this]; rw [this] at hU; exact hU
        · have := (build_eq_ok.1 hU).1
          simp only [Reg.put_val]; rw [this]; exact (List.length_take_le _ _).trans h2

theorem inOrder_appendLens {u : State} {n : Nat} (val : BitVec 4) (h : State.holdsAtMost 7 u) (hr :
    lensOk u.scratch) (hle :
    u.scratch.lensIndex.val.toNat + n ≤ u.scratch.hlit.val.toNat + u.scratch.hdist.val.toNat) :
  InOrder (appendLens n val u.scratch.lens.val u.scratch.lensIndex.val u.scratch.hlit.val u.scratch.hdist.val u) := by
  obtain ⟨hl, hc, hcl, hw1, hw2, hlt⟩ := hr
  have hc' := hc
  obtain ⟨h1, h2, h3, h4, h5, h6⟩ := hc'
  unfold appendLens fillLens
  rw [if_pos (by omega)]
  simp only
  have hto : (u.scratch.lensIndex.val + BitVec.ofNat 9 n).toNat = u.scratch.lensIndex.val.toNat + n := by
    rw [BitVec.toNat_add]; simp; omega
  rw [hto]
  generalize Vector.ofFn _ = V
  split
  · exact inOrder_finishLens (u := { u with scratch := _ }) _ _ _ h hl (by omega) (by omega)
  · next hne =>
    refine .goto7 (u := { u with scratch := _ }) h (by simp) ⟨hl, hc, hcl, rfl, rfl, ?_⟩
    simp only [Reg.put_val, hto]; omega

theorem inOrder_dynLens {u : State} {v : Nat} (h : State.holdsAtMost 7 u) (hr : u.regsOk) (hm : u.mode = .dynLens)
    (hv : v < 19) : ∃ i, decode (.field .clsym v) = .ok i ∧ InOrder (exec i u) := by
  simp only [State.regsOk, hm] at hr
  have hr' := hr
  obtain ⟨hl, hc, hcl, hw1, hw2, hlt⟩ := hr'
  rw [decode, decodeField, if_neg (by simp [Format.width]; omega)]
  simp only [decodeClsym]
  by_cases h15 : v ≤ 15
  · rw [if_pos h15]
    refine ⟨_, rfl, ?_⟩
    rw [exec, execClLen]
    exact .readReg hw1 (.readReg hw2 (.readReg hc.1 (.readReg hc.2.1 (inOrder_appendLens _ h hr
        (by omega)))))
  · rw [if_neg h15]
    have : v = 16 ∨ v = 17 ∨ v = 18 := by omega
    rcases this with rfl | rfl | rfl
    · refine ⟨_, rfl, ?_⟩
      rw [exec, execClRepeatPrev]
      refine .readReg hw2 ?_
      split
      · exact .raise (h.mono (by omega))
      · next h0 =>
        exact .goto7 (u := { u with scratch := _ }) h (by simp) ⟨hr, rfl, .inl rfl, fun _ => h0⟩
    · exact ⟨_, rfl, .goto7 (u := { u with scratch := _ }) h (by simp) ⟨hr, rfl, .inr (.inl rfl), fun h =>
          by simp at h⟩⟩
    · exact ⟨_, rfl, .goto7 (u := { u with scratch := _ }) h (by simp) ⟨hr, rfl, .inr (.inr rfl), fun h =>
          by simp at h⟩⟩

theorem inOrder_repeat {u : State} {n : Nat} {f : Vector (BitVec 4) 316 → BitVec 9 → Except Fault (BitVec 4)} (h :
    State.holdsAtMost 7 u) (hr : lensOk u.scratch) (hf : ∃ v,
    f u.scratch.lens.val u.scratch.lensIndex.val = .ok v) : InOrder (repeatLens n f u) := by
  have hr' := hr
  obtain ⟨hl, hc, hcl, hw1, hw2, hlt⟩ := hr'
  obtain ⟨v, hv⟩ := hf
  refine .readReg hw1 (.readReg hw2 (.readReg hc.1 (.readReg hc.2.1 ?_)))
  rw [hv]; simp only
  split
  · exact .raise (h.mono (by omega))
  · exact inOrder_appendLens _ h hr (by omega)

theorem inOrder_repeat16 {u : State} {v : Nat} (h : State.holdsAtMost 7 u) (hr : u.regsOk) (hm : u.mode =
    .dynRepeat) (h16 : u.scratch.repSym.val = 16) (hv : v < 4) : ∃ i, decode (.field .clExtra16 v) = .ok i ∧
    InOrder (exec i u) := by
  refine ⟨_, by rw [decode, decodeField, if_neg (by simp [Format.width]; omega)], ?_⟩
  simp only [State.regsOk, hm] at hr
  have h0 := hr.2.2.2 h16
  have hr1 := hr.1
  obtain ⟨hl, hc, hcl, hw1, hw2, hlt⟩ := hr1
  rw [exec, execCl16Extra]
  obtain ⟨-, -, -, h286, -, h30⟩ := hc
  refine inOrder_repeat h hr.1 ⟨u.scratch.lens.val[u.scratch.lensIndex.val.toNat - 1]'(by omega), ?_⟩
  rw [previousLen, if_neg h0, Vector.getElem?_eq_getElem]

theorem inOrder_repeat17 {u : State} {v : Nat} (h : State.holdsAtMost 7 u) (hr : u.regsOk) (hm : u.mode =
    .dynRepeat) (hv : v < 8) : ∃ i, decode (.field .clExtra17 v) = .ok i ∧ InOrder (exec i u) := by
  refine ⟨_, by rw [decode, decodeField, if_neg (by simp [Format.width]; omega)], ?_⟩
  simp only [State.regsOk, hm] at hr
  rw [exec, execCl17Extra]
  exact inOrder_repeat h hr.1 ⟨_, rfl⟩

theorem inOrder_repeat18 {u : State} {v : Nat} (h : State.holdsAtMost 7 u) (hr : u.regsOk) (hm : u.mode =
    .dynRepeat) (hv : v < 128) : ∃ i, decode (.field .clExtra18 v) = .ok i ∧ InOrder (exec i u) := by
  refine ⟨_, by rw [decode, decodeField, if_neg (by simp [Format.width]; omega)], ?_⟩
  simp only [State.regsOk, hm] at hr
  rw [exec, execCl18Extra]
  exact inOrder_repeat h hr.1 ⟨_, rfl⟩

/-! ### Symbol loop -/

/-- The ranges of the length table (R99). -/
theorem lengthTable_ok : ∀ s, 257 ≤ s → s ≤ 285 → 3 ≤ lbase s ∧ lbase s + 2 ^ lextra s ≤ 259 ∧ lbase s < 512 ∧
    lextra s ≤ 5 := by
  intro s h1 h2
  obtain ⟨k, rfl⟩ := Nat.exists_eq_add_of_le h1
  have : k < 29 := by omega
  revert this; clear h1 h2
  revert k; decide

/-- The ranges of the distance table (R100). -/
theorem distTable_ok : ∀ s, s ≤ 29 → 1 ≤ dbase s ∧ dbase s + 2 ^ dextra s ≤ 32769 ∧ dextra s ≤ 13 := by
  intro s h2
  have : s < 30 := by omega
  revert this; clear h2
  revert s; decide

theorem inOrder_lengthSymbol {u : State} {sym : Nat} (h : State.holdsAtMost 7 u) (hr : symbolsOk u.scratch) (h1 :
    257 ≤ sym) (h2 : sym ≤ 285) : InOrder (lengthSymbol sym u) := by
  obtain ⟨h3, h4, h5, -⟩ := lengthTable_ok sym h1 h2
  have e1 : (BitVec.ofNat 9 sym).toNat = sym := by simp; omega
  have e2 : (BitVec.ofNat 9 (lbase sym)).toNat = lbase sym := by simp; omega
  unfold lengthSymbol
  split
  · next he =>
    refine .goto7 (u := { u with scratch := _ }) h (by simp) ⟨hr, rfl, ?_, ?_, rfl, ?_⟩
    all_goals simp only [Reg.put_val, e1, e2]
    · exact ⟨h1, h2⟩
    · exact he
  · refine .goto7 (u := { u with scratch := _ }) h (by simp) ⟨hr, rfl, ?_, ?_⟩
    all_goals simp only [Reg.put_val, e2]
    · exact h3
    · have := Nat.one_le_two_pow (n := lextra sym); omega

theorem inOrder_llSym {u : State} {v : Nat} (h : State.holdsAtMost 7 u) (hr : u.regsOk) (hm : u.mode = .llSym) (hv :
    v < 288) : ∃ i, decode (.field .llsym v) = .ok i ∧ InOrder (exec i u) := by
  simp only [State.regsOk, hm] at hr
  rw [decode, decodeField, if_neg (by simp [Format.width]; omega)]
  simp only [decodeLlsym]
  by_cases h255 : v ≤ 255
  · rw [if_pos h255]
    exact ⟨_, rfl, .goto7 (u := { u with scratch := _ }) h (by simp) ⟨hr, rfl⟩⟩
  · rw [if_neg h255]
    obtain ⟨k, rfl⟩ := Nat.exists_eq_add_of_le (show 256 ≤ v by omega)
    have : k < 32 := by omega
    interval_cases k
    · refine ⟨_, rfl, ?_⟩
      exact .endBlock h hr.1
    all_goals refine ⟨_, rfl, ?_⟩
    all_goals first | exact inOrder_lengthSymbol h hr (by omega) (by omega) | exact InOrder.raise (h.mono (by omega))

theorem inOrder_lenExtra {u : State} {v : Nat} (h : State.holdsAtMost 7 u) (hr : u.regsOk) (hm : u.mode = .lenExtra)
    (hv : v < 2 ^ lextra u.scratch.sym.val.toNat) : ∃ i, decode (.field (.lenExtra (lextra u.scratch.sym.val.toNat))
    v) = .ok i ∧ InOrder (exec i u) := by
  simp only [State.regsOk, hm] at hr
  obtain ⟨hs, hw, ⟨h1, h2⟩, -, hl, hb⟩ := hr
  obtain ⟨h3, h4, h5, h6⟩ := lengthTable_ok _ h1 h2
  refine ⟨_, by rw [decode, decodeField, if_neg (by simp only [Format.width]; omega)]; simp only [h6, if_true]; rfl,
      ?_⟩
  rw [exec, execLenExtra]
  refine .readReg hl ?_
  have hv5 : v < 2 ^ 5 := hv.trans_le (Nat.pow_le_pow_right (by omega) h6)
  have e : (addLengthExtra u.scratch.length.val (BitVec.ofNat 5 v)).toNat = lbase u.scratch.sym.val.toNat + v := by
    simp [addLengthExtra, BitVec.toNat_add, hb]; omega
  refine .goto7 (u := { u with scratch := _ }) h (by simp) ⟨hs, rfl, ?_, ?_⟩
  all_goals simp only [Reg.put_val, e]
  all_goals omega

theorem inOrder_checkDist {u : State} {d : BitVec 16} (h : State.holdsAtMost 7 u) (hs : symbolsOk u.scratch) (hl :
    lengthOk u.scratch) (hd : u.scratch.dist = .put d) (h1 : 1 ≤ d.toNat) : InOrder (checkDist d u) := by
  unfold checkDist
  split
  · exact .raise (h.mono (by omega))
  · next hle =>
    refine .readReg hl.1 (.goto7 (u := { u with scratch := _ }) h (by simp) ⟨hs, ?_, ?_, ?_, rfl, ?_, ?_⟩)
    all_goals simp only [hd, Reg.put_val, Reg.put_written]
    · exact h1
    · omega
    · have := hl.2.1; omega
    · exact hl.2.2

theorem inOrder_distSymbol {u : State} {sym : Nat} (h : State.holdsAtMost 7 u) (hs : symbolsOk u.scratch) (hl :
    lengthOk u.scratch) (h1 : sym ≤ 29) : InOrder (distSymbol sym u) := by
  obtain ⟨h3, h4, h5⟩ := distTable_ok sym h1
  have hp := Nat.one_le_two_pow (n := dextra sym)
  have e1 : (BitVec.ofNat 9 sym).toNat = sym := by simp; omega
  have e2 : (BitVec.ofNat 16 (dbase sym)).toNat = dbase sym := by simp; omega
  unfold distSymbol
  simp only
  split
  · next he =>
    refine .goto7 (u := { u with scratch := _ }) h (by simp) ⟨hs, hl, rfl, ?_, ?_, rfl, ?_⟩
    all_goals simp only [Reg.put_val, e1, e2]
    · exact h1
    · exact he
  · exact inOrder_checkDist (u := { u with scratch := _ }) h hs hl rfl (by rw [e2]; omega)

theorem inOrder_distSym {u : State} {v : Nat} (h : State.holdsAtMost 7 u) (hr : u.regsOk) (hm : u.mode = .distSym)
    (hv : v < 32) : ∃ i, decode (.field .dsym v) = .ok i ∧ InOrder (exec i u) := by
  simp only [State.regsOk, hm] at hr
  rw [decode, decodeField, if_neg (by simp [Format.width]; omega)]
  simp only [decodeDsym]
  interval_cases v
  all_goals refine ⟨_, rfl, ?_⟩
  all_goals try exact InOrder.raise (h.mono (by omega))
  all_goals
    simp only [exec, execDist0, execDist1, execDist2, execDist3, execDist4, execDist5, execDist6, execDist7,
        execDist8,
      execDist9, execDist10, execDist11, execDist12, execDist13, execDist14, execDist15, execDist16, execDist17,
      execDist18, execDist19, execDist20, execDist21, execDist22, execDist23, execDist24, execDist25, execDist26,
      execDist27, execDist28, execDist29]
    exact inOrder_distSymbol h hr.1 hr.2 (by omega)

theorem inOrder_distExtra {u : State} {v : Nat} (h : State.holdsAtMost 7 u) (hr : u.regsOk) (hm : u.mode =
    .distExtra) (hv : v < 2 ^ dextra u.scratch.sym.val.toNat) : ∃ i,
    decode (.field (.distExtra (dextra u.scratch.sym.val.toNat)) v) = .ok i ∧ InOrder (exec i u) := by
  simp only [State.regsOk, hm] at hr
  obtain ⟨hs, hl, hw, h1, -, hd, hb⟩ := hr
  obtain ⟨h3, h4, h6⟩ := distTable_ok _ h1
  refine ⟨_, by rw [decode, decodeField, if_neg (by simp only [Format.width]; omega)]; simp only [h6, if_true]; rfl,
      ?_⟩
  rw [exec, execDistExtra]
  refine .readReg hd ?_
  have hv5 : v < 2 ^ 13 := hv.trans_le (Nat.pow_le_pow_right (by omega) h6)
  have e : (addDistExtra u.scratch.dist.val (BitVec.ofNat 13 v)).toNat = dbase u.scratch.sym.val.toNat + v := by
    simp [addDistExtra, BitVec.toNat_add, hb]; omega
  exact inOrder_checkDist (u := { u with scratch := _ }) h hs hl rfl (by rw [e]; omega)

/-- The outcome INVALID of a symbol format (R208, R234, R238). -/
theorem inOrder_noMatch {u : State} {f : Format} (hf : f = .clsym ∨ f = .llsym ∨ f = .dsym) (h :
    State.holdsAtMost 32 u) : ∃ i, decode (.noMatch f) = .ok i ∧ InOrder (exec i u) := by
  rcases hf with rfl | rfl | rfl <;> exact ⟨_, rfl, .raise h⟩

end Sys2Proof.Machine
end

