-- ==== Sys2Proof/Laws/InOrder.lean ====
section
/-! SUPPORT. Laws of a step in a state with the invariant: what is fetched decodes and runs, and what a step leaves is in order. -/

namespace Sys2Proof.Machine

theorem State.regsOk.congr {s t : State} (h : s.regsOk) (hm : t.mode = s.mode) (hs : t.scratch = s.scratch) (hw :
    t.win.size = s.win.size) : t.regsOk := by
  unfold State.regsOk at *
  rw [hm, hs, hw]; exact h

theorem State.readsTo.same {s t : State} (h : s.readsTo t) : t.mode = s.mode ∧ t.scratch = s.scratch ∧ t.win =
    s.win ∧ t.inMem = s.inMem ∧ t.outMem = s.outMem ∧ t.status = s.status ∧ t.running = s.running ∧ t.constructed =
    s.constructed := by
  rw [h]; simp

/-- A field is read, or the DECODE suspends with fewer bits held than its width (R131, R137). -/
theorem fetchField_inOrder {s : State} {n : Nat} {f : Format} (ho : s.offersAll) (hn : n ≤ 25 ∨ (n = 32 ∧
    s.acc.cnt.toNat % 8 = 0)) (hb : s.acc.buf < 2 ^ s.acc.cnt.toNat)
   (hh : s.acc.cnt.toNat ≤ 7 ∨ s.acc.cnt.toNat < n) :
   (∃ v t, fetchField n f s = .word (.field f v) t ∧ v < 2 ^ n ∧ s.readsTo t ∧ State.holdsAtMost 7 t) ∨
   (∃ t j, fetchField n f s = .suspend t ∧ s.readsTo t ∧ t.acc.buf < 2 ^ t.acc.cnt.toNat ∧
       t.acc.cnt.toNat < n ∧ t.acc.cnt.toNat = s.acc.cnt.toNat + 8 * j) := by
  rcases fetchField_total (f := f) (n := n) (by omega) ho with ⟨u, hp, hu, he⟩ | ⟨j, u, hj, hp, h0, he⟩
  · left
    refine ⟨_, _, he, peek_lt _ _, hp.readsTo.trans (readsTo_dropBits u n), ?_, ?_⟩
    · have hc := ensure_cnt (by omega) hp
      have h1 := (hp.upcoming hb (by have := pullsNeeded_spec n s; unfold pullsNeeded at *; omega)).1
      exact Accumulator.drop_lt _ _ h1 hu
    · have hc := ensure_cnt (by omega) hp
      show (u.acc.drop n).cnt.toNat ≤ 7
      rw [Accumulator.drop_cnt_toNat _ _ hu]
      rcases hc.2.2 with h | h
      · omega
      · rw [h] at hu ⊢; omega
  · right
    have : s.acc.cnt.toNat + 8 * j < n := by unfold pullsNeeded at hj; omega
    have h1 := hp.upcoming hb (by omega)
    have h2 := hp.cnt_toNat (by omega)
    exact ⟨u, j, he, hp.readsTo, h1.1, by omega, h2⟩

/-- A symbol is read, INVALID arises, or the DECODE suspends with no whole codeword held (R160, R137). -/
theorem fetchSym_inOrder {s : State} {T : Table} {f : Format} (ho : s.offersAll) (hb :
    s.acc.buf < 2 ^ s.acc.cnt.toNat)
   (hh : s.acc.cnt.toNat ≤ 7 ∨ (s.acc.cnt.toNat < T.maxlen ∧ T.matchHeld s.acc = none)) :
   (∃ v t, fetchSym T f s = .word (.field f v) t ∧ v < T.len.length ∧ s.readsTo t ∧ State.holdsAtMost 7 t) ∨
   (∃ t, fetchSym T f s = .word (.noMatch f) t ∧ s.readsTo t ∧ State.holdsAtMost 32 t) ∨
   (∃ t, fetchSym T f s = .suspend t ∧ s.readsTo t ∧ t.acc.buf < 2 ^ t.acc.cnt.toNat ∧
       t.acc.cnt.toNat < T.maxlen ∧ T.matchHeld t.acc = none) := by
  have hmax := T.maxlen_le
  rcases fetchSym_total (T := T) (f := f) ho (by omega) hb with ⟨sym, j, u, L, hp, hm, he, hub, hcnt, h32, hj⟩ | ⟨j,
      u, hp, hm, hle, he, hub, hcnt, h32⟩ | ⟨j, u, hp, hm, h0, hlt, he, hcnt, hub⟩
  · left
    obtain ⟨h1, h2, h3, h4, h5⟩ := Table.matchHeld_eq_some hm
    refine ⟨_, _, he, h4, hp.readsTo.trans (readsTo_dropBits u L), Accumulator.drop_lt _ _ hub h2, ?_⟩
    show (u.acc.drop L).cnt.toNat ≤ 7
    rw [Accumulator.drop_cnt_toNat _ _ h2]
    by_cases h : j = 0
    · subst h; cases hp
      rcases hh with hh | hh
      · omega
      · rw [hh.2] at hm; simp at hm
    · have := hj h; omega
  · right; left
    exact ⟨u, he, hp.readsTo, hub, h32⟩
  · right; right
    exact ⟨u, he, hp.readsTo, hcnt, hlt, hm⟩

/-- What the mode fetches is an element whose instruction ends in order,
    or a suspension with the accumulator in order. -/
def FetchInOrder (s : State) : Prop :=
  (∃ w t i, fetch s = .word w t ∧ s.readsTo t ∧ decode w = .ok i ∧ InOrder (exec i t)) ∨
  (∃ t, fetch s = .suspend t ∧ s.readsTo t ∧ t.accOk)

theorem fetchInOrder_field {s : State} {f : Format} (hI : s.Inv) (hr : s.running = true) (hf : s.fieldFormat =
    some f) (hn : f.width ≤ 25 ∨ (f.width = 32 ∧ s.acc.cnt.toNat % 8 = 0))
   (hh : s.acc.cnt.toNat ≤ 7 ∨ s.acc.cnt.toNat < f.width)
   (hg : ∀ v t, v < 2 ^ f.width → State.holdsAtMost 7 t → t.regsOk → t.mode = s.mode → t.scratch = s.scratch → ∃ i,
       decode (.field f v) = .ok i ∧ InOrder (exec i t))
   (hs : ∀ t j, s.readsTo t → t.mode = s.mode → t.scratch = s.scratch → t.acc.cnt.toNat < f.width →
       t.acc.cnt.toNat = s.acc.cnt.toNat + 8 * j → t.heldOk) : FetchInOrder s := by
  have ho : s.offersAll := hI.input hr
  unfold FetchInOrder
  rw [fetch_field hI.regs hf]
  rcases fetchField_inOrder (f := f) ho hn hI.acc.1 hh with ⟨v, t, he, hv, hrt, hacc⟩ | ⟨t, j, he, hrt, hb, hlt, hj⟩
  · left
    obtain ⟨e1, e2, e3, -⟩ := State.readsTo.same hrt
    obtain ⟨i, hd, hgood⟩ := hg v t hv hacc (State.regsOk.congr hI.regs e1 e2 (by rw [e3])) e1 e2
    exact ⟨_, t, i, he, hrt, hd, hgood⟩
  · right
    obtain ⟨e1, e2, e3, -⟩ := State.readsTo.same hrt
    exact ⟨t, he, hrt, hb, hs t j hrt e1 e2 hlt hj⟩

theorem fetchInOrder_sym {s : State} {f : Format} (hI : s.Inv) (hr : s.running = true) (hf : s.symbolFormat = some f)
   (hff : f = .clsym ∨ f = .llsym ∨ f = .dsym)
   (hh : s.acc.cnt.toNat ≤ 7 ∨ (s.acc.cnt.toNat < s.symbolTable.maxlen ∧ s.symbolTable.matchHeld s.acc = none))
   (hg : ∀ v t, v < s.symbolTable.len.length → State.holdsAtMost 7 t → t.regsOk → t.mode = s.mode → t.scratch =
       s.scratch → ∃ i, decode (.field f v) = .ok i ∧ InOrder (exec i t)) : FetchInOrder s := by
  have ho : s.offersAll := hI.input hr
  have hf' := hf
  unfold FetchInOrder
  rw [fetch_symbol hI.regs hf]
  rcases fetchSym_inOrder (f := f) ho hI.acc.1 hh with ⟨v, t, he, hv, hrt, hacc⟩ | ⟨t, he, hrt, hacc⟩ | ⟨t, he, hrt,
      hb, hlt, hnone⟩
  · left
    obtain ⟨e1, e2, e3, -⟩ := State.readsTo.same hrt
    obtain ⟨i, hd, hgood⟩ := hg v t hv hacc (State.regsOk.congr hI.regs e1 e2 (by rw [e3])) e1 e2
    exact ⟨_, t, i, he, hrt, hd, hgood⟩
  · left
    obtain ⟨i, hd, hgood⟩ := inOrder_noMatch hff hacc
    exact ⟨_, t, i, he, hrt, hd, hgood⟩
  · right
    obtain ⟨e1, e2, e3, -⟩ := State.readsTo.same hrt
    refine ⟨t, he, hrt, hb, ?_⟩
    have et : t.symbolTable = s.symbolTable := by unfold State.symbolTable; rw [e1, e2]
    unfold State.heldOk
    rw [et, e1]
    unfold State.symbolFormat at hf
    split at hf <;> simp_all

/-- How many symbols the table of a mode has (R101, R102, R200, R201). -/
theorem symbolTable_length {s : State} (hI : s.Inv) : (s.mode = .dynLens → s.symbolTable.len.length = 19) ∧
    (s.mode = .llSym → s.symbolTable.len.length ≤ 288) ∧ (s.mode = .distSym → s.symbolTable.len.length ≤ 32) := by
  have hr := hI.regs
  have h1 : fixedLL.len.length = 288 := by simp only [fixedLL, List.length_append, List.length_replicate]
  have h2 : fixedD.len.length = 32 := by simp [fixedD]
  refine ⟨fun hm => ?_, fun hm => ?_, fun hm => ?_⟩ <;> simp only [State.regsOk,
      hm] at hr <;> simp only [State.symbolTable, hm]
  · exact hr.2.2.1.2.2
  · split
    · next hd => exact ((hr.2.2 hd).1.2.2).trans (by omega)
    · omega
  · split
    · next hd => exact ((hr.1.2.2 hd).2.2.2).trans (by omega)
    · omega

theorem fetch_inOrder {s : State} (hI : s.Inv) (hr : s.running = true) (hm : s.mode.readsElement = true) :
    FetchInOrder s := by
  have hh := hI.acc.2
  have hregs := hI.regs
  unfold State.heldOk at hh
  cases hmode : s.mode <;> simp only [hmode, Mode.readsElement, reduceCtorEq] at hm hh
  · refine fetchInOrder_field hI hr (by simp only [State.fieldFormat, hmode]) (.inl (by decide)) (.inl hh)
        (fun v t hv ha _ _ _ => inOrder_header ha hv) ?_
    intro t j _ e1 e2 hlt hj
    simp only [State.heldOk, e1, hmode, Format.width] at *; try omega
  · refine fetchInOrder_field hI hr (by simp only [State.fieldFormat, hmode]) (.inr ⟨rfl, hh.1⟩)
        (.inr (by simp only [Format.width]; omega)) (fun v t hv ha h1 h2 _ =>
        inOrder_storedLen ha (by simpa only [State.regsOk, h2, hmode] using h1) hv) ?_
    intro t j _ e1 e2 hlt hj
    simp only [State.heldOk, e1, hmode, Format.width] at *; try omega
  · -- storedCopy
    unfold FetchInOrder fetch
    rw [hmode]
    simp only [fetchStored]
    split
    · exact .inr ⟨s, rfl, rfl, hI.acc⟩
    · next hav =>
      left
      have h1 : s.cur.availIn ≠ 0 := fun h => hav (.inl h)
      have := hI.input hr 0 (by omega)
      rw [advance_zero] at this
      obtain ⟨b, hb⟩ := Option.isSome_iff_exists.1 this
      have : readIn s = .ok b := by unfold readIn; rw [hb]
      rw [this]
      obtain ⟨i, hd, hg⟩ := inOrder_storedData (u := { s with cur := s.cur.consume s.params })
          b (State.regsOk.congr hregs rfl rfl rfl) hmode ⟨hI.acc.1, by simp; omega⟩
      exact ⟨_, _, i, rfl, rfl, hd, hg⟩
  · refine fetchInOrder_field hI hr (by simp only [State.fieldFormat, hmode]) (.inl (by decide))
        (.inr (by simp only [Format.width]; omega)) (fun v t hv ha h1 h2 _ =>
        inOrder_dynCounts ha (by simpa only [State.regsOk, h2, hmode] using h1) hv) ?_
    intro t j _ e1 e2 hlt hj
    simp only [State.heldOk, e1, hmode, Format.width] at *; try omega
  · refine fetchInOrder_field hI hr (by simp only [State.fieldFormat, hmode]) (.inl (by decide)) (.inl hh)
        (fun v t hv ha h1 h2 _ => inOrder_dynClc ha h1 (h2.trans hmode) hv) ?_
    intro t j _ e1 e2 hlt hj
    simp only [State.heldOk, e1, hmode, Format.width] at *; try omega
  · refine fetchInOrder_sym hI hr (by simp only [State.symbolFormat, hmode]) (.inl rfl)
        hh (fun v t hv ha h1 h2 h3 => inOrder_dynLens ha h1 (h2.trans hmode)
        (by rw [(symbolTable_length hI).1 hmode] at hv; exact hv))
  · simp only [State.regsOk, hmode] at hregs
    rcases hregs.2.2.1 with h16 | h17 | h18
    · refine fetchInOrder_field hI hr (by simp only [State.fieldFormat, hmode, h16]; try rfl) (.inl (by decide))
          (.inl hh) (fun v t hv ha h1 h2 h3 => inOrder_repeat16 ha h1 (h2.trans hmode) (by rw [h3]; exact h16) hv) ?_
      intro t j _ e1 e2 hlt hj
      simp only [State.heldOk, e1, hmode, Format.width] at *; try omega
    · refine fetchInOrder_field hI hr (by simp only [State.fieldFormat, hmode, h17]; try rfl) (.inl (by decide))
          (.inl hh) (fun v t hv ha h1 h2 h3 => inOrder_repeat17 ha h1 (h2.trans hmode) hv) ?_
      intro t j _ e1 e2 hlt hj
      simp only [State.heldOk, e1, hmode, Format.width] at *; try omega
    · refine fetchInOrder_field hI hr (by simp only [State.fieldFormat, hmode, h18]; try rfl) (.inl (by decide))
          (.inl hh) (fun v t hv ha h1 h2 h3 => inOrder_repeat18 ha h1 (h2.trans hmode) hv) ?_
      intro t j _ e1 e2 hlt hj
      simp only [State.heldOk, e1, hmode, Format.width] at *; try omega
  · refine fetchInOrder_sym hI hr (by simp only [State.symbolFormat, hmode]) (.inr (.inl rfl))
        hh (fun v t hv ha h1 h2 h3 => inOrder_llSym ha h1 (h2.trans hmode)
        (hv.trans_le ((symbolTable_length hI).2.1 hmode)))
  · simp only [State.regsOk, hmode] at hregs
    have hx := lengthTable_ok _ hregs.2.2.1.1 hregs.2.2.1.2
    refine fetchInOrder_field (f := .lenExtra (lextra s.scratch.sym.val.toNat))
        hI hr (by simp only [State.fieldFormat, hmode]) (.inl (by simp only [Format.width]; omega)) (.inl hh)
        (fun v t hv ha h1 h2 h3 => by
       have := inOrder_lenExtra (v := v) ha h1 (h2.trans hmode) (by rw [h3]; exact hv)
       rw [h3] at this; exact this) ?_
    intro t j _ e1 e2 hlt hj
    simp only [State.heldOk, e1, hmode, Format.width] at *; try omega
  · refine fetchInOrder_sym hI hr (by simp only [State.symbolFormat, hmode]) (.inr (.inr rfl))
        hh (fun v t hv ha h1 h2 h3 => inOrder_distSym ha h1 (h2.trans hmode)
        (hv.trans_le ((symbolTable_length hI).2.2 hmode)))
  · simp only [State.regsOk, hmode] at hregs
    have hx := distTable_ok _ hregs.2.2.2.1
    refine fetchInOrder_field (f := .distExtra (dextra s.scratch.sym.val.toNat))
        hI hr (by simp only [State.fieldFormat, hmode]) (.inl (by simp only [Format.width]; omega))
        hh (fun v t hv ha h1 h2 h3 => by
       have := inOrder_distExtra (v := v) ha h1 (h2.trans hmode) (by rw [h3]; exact hv)
       rw [h3] at this; exact this) ?_
    intro t j _ e1 e2 hlt hj
    simp only [State.heldOk, e1, e2, hmode, Format.width] at *; try omega

theorem litEmit_good {s : State} (hI : s.Inv) (hr : s.running = true) (hm : s.mode = .litEmit) (h0 :
    s.cur.availOut ≠ 0) :
   ∃ b, s.scratch.litVal = .put b ∧ step s = .next { emit b s with mode := .llSym } := by
  have := hI.regs; simp only [State.regsOk, hm] at this
  refine ⟨_, Reg.eq_put this.2, ?_⟩
  rw [step_litEmit hr hm, stepLitEmit, if_neg h0, readReg_written _ _ _ this.2]; rfl

/-- A step inside a DECODE answers a next state in order (R44, R61, R68). -/
theorem step_next {s : State} (hI : s.Inv) (hr : s.running = true) : ∃ t, step s = .next t ∧ t.regsOk ∧ t.accOk ∧
    t.win.ok ∧ Memory.wf t.outMem ∧ t.inMem = s.inMem := by
  by_cases hm : s.mode.readsElement = true
  · rw [step_element hr hm]
    rcases fetch_inOrder hI hr hm with ⟨w, u, i, he, hrt, hd, t, ht, h1, h2⟩ | ⟨u, he, hrt, hacc⟩
    · obtain ⟨e1, e2, e3, e4, e5, -⟩ := State.readsTo.same hrt
      rw [he, runFetched, runWord, hd]
      refine ⟨t, ht, h1, h2, ?_⟩
      have hok := fetch_ok s
      rw [he] at hok
      obtain ⟨hu, f, hfm, hw⟩ := hok
      rcases (exec_element (decode_format hw hd).1 ht).2 with ⟨b, -, -, hb⟩ | ⟨-, hb, -⟩
      · rw [hb]
        refine ⟨?_, ?_, e4⟩
        · show (u.win.push b).ok; rw [e3]; exact Window.ok_push hI.win b
        · show Memory.wf (Memory.write _ _ _); rw [e5]; exact Memory.wf_write hI.outMem _ _
      · rw [hb]; refine ⟨?_, ?_, e4⟩
        · show u.win.ok; rw [e3]; exact hI.win
        · show Memory.wf u.outMem; rw [e5]; exact hI.outMem
    · obtain ⟨e1, e2, e3, e4, e5, -⟩ := State.readsTo.same hrt
      rw [he]
      refine ⟨_, rfl, State.regsOk.congr hI.regs e1 e2 (by show u.win.size = _; rw [e3]), hacc, ?_, ?_, e4⟩
      · show u.win.ok; rw [e3]; exact hI.win
      · show Memory.wf u.outMem; rw [e5]; exact hI.outMem
  · have hregs := hI.regs
    have hacc := hI.acc
    cases hmode : s.mode <;> simp only [hmode, Mode.readsElement, not_true, reduceCtorEq, not_false_eq_true] at hm
    · by_cases h0 : s.cur.availOut = 0
      · rw [step_litEmit hr hmode, stepLitEmit, if_pos h0]
        exact ⟨_, rfl, State.regsOk.congr hregs rfl rfl rfl, hacc, hI.win, hI.outMem, rfl⟩
      · obtain ⟨b, -, hs⟩ := litEmit_good hI hr hmode h0
        simp only [State.regsOk, hmode] at hregs
        refine ⟨_, hs, hregs.1, ⟨hacc.1, .inl ?_⟩, Window.ok_push hI.win b, Memory.wf_write hI.outMem _ _, rfl⟩
        have := hacc.2; simp only [State.heldOk, hmode] at this; exact this
    · by_cases h0 : s.cur.availOut = 0
      · rw [step_copy hr hmode, stepCopy, if_pos h0]
        exact ⟨_, rfl, State.regsOk.congr hregs rfl rfl rfl, hacc, hI.win, hI.outMem, rfl⟩
      · simp only [State.regsOk, hmode] at hregs
        obtain ⟨hs, hd, h1, h2, hc, h3, h4⟩ := hregs
        obtain ⟨b, hb⟩ := winBack_isOk hI.win h1 h2
        have h7 := hacc.2; simp only [State.heldOk, hmode] at h7
        rw [step_copy hr hmode, stepCopy, if_neg h0, readReg_written _ _ _ hd, readReg_written _ _ _ hc, hb]
        simp only
        split
        · refine ⟨_, rfl, hs, ⟨hacc.1, .inl h7⟩, Window.ok_push hI.win b, Memory.wf_write hI.outMem _ _, rfl⟩
        · next hne =>
          refine ⟨_, rfl, ⟨hs, hd, h1, ?_, rfl, ?_, ?_⟩, ⟨hacc.1, h7⟩, Window.ok_push hI.win b,
              Memory.wf_write hI.outMem _ _, rfl⟩
          · show s.scratch.dist.val.toNat ≤ (s.win.push b).size
            have := hI.win.2.2.2.1
            simp only [Window.push_size]; omega
          · simp only [Reg.put_val]; bv_omega
          · simp only [Reg.put_val]; bv_omega
    · exact absurd hmode (hI.status.1 hr).2.1
    · exact absurd hmode (hI.status.1 hr).2.2

end Sys2Proof.Machine
end

