-- ==== Sys2Proof/Laws/Output.lean ====
section
/-! SUPPORT. Laws of what is not read: no element but a stored byte reads or writes a cursor or the output region, and fetching never
reads the output region (R62, R77). -/

namespace Sys2Proof.Machine

/-- A change of the next state. -/
def mapNext (g : State → State) : Result → Result
  | .next t => .next (g t)
  | .fault f => .fault f
  | .refused r => .refused r

/-- The state with other cursors and another output region. -/
def withOutput (c : Cursors) (m : Memory) (s : State) : State := { s with cur := c, outMem := m }

@[simp] theorem withOutput_scratch (c m) (s : State) : (withOutput c m s).scratch = s.scratch := rfl

theorem withOutput_readReg {α} (c m) (name : RegName) (r : Reg α) (k k' : α → Result) (h : ∀ v, k' v =
    mapNext (withOutput c m) (k v)) :
   readReg name r k' = mapNext (withOutput c m) (readReg name r k) := by
  unfold readReg; split
  · exact h _
  · rfl

theorem withOutput_finishLens (c m) (lens hlit hdist) (s : State) : finishLens lens hlit hdist (withOutput c m s) =
    mapNext (withOutput c m) (finishLens lens hlit hdist s) := by
  unfold finishLens; split
  · rfl
  · split
    · rfl
    · split <;> rfl

theorem withOutput_appendLens (c m n v lens i hlit hdist) (s : State) :
    appendLens n v lens i hlit hdist (withOutput c m s) = mapNext (withOutput c m)
    (appendLens n v lens i hlit hdist s) := by
  unfold appendLens; split
  · rfl
  · simp only
    split
    · exact withOutput_finishLens c m _ _ _ { s with scratch := _ }
    · rfl

theorem withOutput_buildCL (c m lens) (s : State) : buildCL lens (withOutput c m s) = mapNext (withOutput c m)
    (buildCL lens s) := by
  unfold buildCL
  cases build .cl (clcLensList lens) <;> rfl

theorem withOutput_repeat (c m n f) (s : State) : repeatLens n f (withOutput c m s) = mapNext (withOutput c m)
    (repeatLens n f s) := by
  refine withOutput_readReg c m _ _ _ _ fun _ => withOutput_readReg c m _ _ _ _ fun _ =>
      withOutput_readReg c m _ _ _ _ fun _ => withOutput_readReg c m _ _ _ _ fun _ => ?_
  split
  · rfl
  · split
    · rfl
    · exact withOutput_appendLens ..

theorem withOutput_dyn (c m a b d) (s : State) : dynCounts a b d (withOutput c m s) = mapNext (withOutput c m)
    (dynCounts a b d s) := by
  unfold dynCounts; simp only; split <;> rfl

theorem withOutput_endBlock (c m) (s : State) : endBlock (withOutput c m s) = mapNext (withOutput c m) (endBlock s)
    := by
  refine withOutput_readReg c m _ _ _ _ fun _ => ?_
  split <;> rfl

theorem withOutput_len (c m n) (s : State) : lengthSymbol n (withOutput c m s) = mapNext (withOutput c m)
    (lengthSymbol n s) := by
  simp only [lengthSymbol, goto, mapNext, withOutput]

theorem withOutput_check (c m d) (s : State) : checkDist d (withOutput c m s) = mapNext (withOutput c m)
    (checkDist d s) := by
  unfold checkDist
  have : (withOutput c m s).win = s.win := rfl
  rw [this]; split
  · rfl
  · exact withOutput_readReg c m _ _ _ _ fun _ => rfl

theorem withOutput_dist (c m n) (s : State) : distSymbol n (withOutput c m s) = mapNext (withOutput c m)
    (distSymbol n s) := by
  unfold distSymbol; simp only; split
  · rfl
  · exact withOutput_check c m _ { s with scratch := _ }

/-- Every element but a stored byte runs the same with other cursors and another output region. -/
theorem withOutput_exec (c : Cursors) (m : Memory) (i : Instr) (s : State) (hi : isElement i = true) (h : ∀ b,
    i ≠ .storedData b) :
   exec i (withOutput c m s) = mapNext (withOutput c m) (exec i s) := by
  cases i with
  | storedData b => exact absurd rfl (h b)
  | init wb => simp [isElement, encode] at hi
  | reset keep => simp [isElement, encode] at hi
  | decode args => simp [isElement, encode] at hi
  | hostcmdReserved code => simp [isElement, encode] at hi
  | storedLen a b =>
    simp only [exec, execStoredLen]
    split
    · rfl
    · split
      · exact withOutput_endBlock c m { (flush s) with scratch := _ }
      · rfl
  | dynHeader a b d | dynHeaderTooManyHlit a b d | dynHeaderTooManyHdist a b d => exact withOutput_dyn ..
  | clcEntry len =>
    simp only [exec, execClcEntry, withOutput_scratch]
    refine withOutput_readReg c m _ _ _ _ fun ix => withOutput_readReg c m _ _ _ _ fun _ =>
        withOutput_readReg c m _ _ _ _ fun _ => ?_
    cases clcOrder[ix.toNat]? with
    | none => rfl
    | some y =>
      simp only; split
      · exact withOutput_buildCL c m _ { s with scratch := _ }
      · rfl
  | clLen len =>
    simp only [exec, execClLen, withOutput_scratch]
    exact withOutput_readReg c m _ _ _ _ fun _ => withOutput_readReg c m _ _ _ _ fun _ =>
        withOutput_readReg c m _ _ _ _ fun _ => withOutput_readReg c m _ _ _ _ fun _ => withOutput_appendLens ..
  | clRepeatPrev =>
    simp only [exec, execClRepeatPrev, withOutput_scratch]
    refine withOutput_readReg c m _ _ _ _ fun _ => ?_
    split <;> rfl
  | cl16Extra x =>
    simp only [exec, execCl16Extra]
    exact withOutput_repeat ..
  | cl17Extra x =>
    simp only [exec, execCl17Extra]
    exact withOutput_repeat ..
  | cl18Extra x =>
    simp only [exec, execCl18Extra]
    exact withOutput_repeat ..
  | eob => exact withOutput_endBlock ..
  | lenExtra n x =>
    simp only [exec, execLenExtra, withOutput_scratch]
    exact withOutput_readReg c m _ _ _ _ fun _ => rfl
  | distExtra n x =>
    simp only [exec, execDistExtra, withOutput_scratch]
    exact withOutput_readReg c m _ _ _ _ fun _ => withOutput_check c m _ { s with scratch := _ }
  | dist0 | dist1 | dist2 | dist3 | dist4 | dist5 | dist6 | dist7 | dist8 | dist9 | dist10 | dist11 | dist12
  | dist13 | dist14 | dist15 | dist16 | dist17 | dist18 | dist19 | dist20 | dist21 | dist22 | dist23 | dist24
  | dist25 | dist26 | dist27 | dist28 | dist29 =>
    simp only [exec, execDist0, execDist1, execDist2, execDist3, execDist4, execDist5, execDist6, execDist7,
        execDist8,
      execDist9, execDist10, execDist11, execDist12, execDist13, execDist14, execDist15, execDist16, execDist17,
      execDist18, execDist19, execDist20, execDist21, execDist22, execDist23, execDist24, execDist25, execDist26,
      execDist27, execDist28, execDist29]
    exact withOutput_dist ..
  | _ => rfl

theorem withOutput_loop (c m n) (u : State) : (if n - 1 = (0 : BitVec 16) then endBlock (withOutput c m u)
    else goto .storedCopy (withOutput c m u)) = mapNext (withOutput c m) (if n - 1 =
    0 then endBlock u else goto .storedCopy u) := by
  split
  · exact withOutput_endBlock ..
  · rfl

/-- A stored byte runs the same, but for the byte and the cursors it writes. -/
theorem withOutput_stored (c : Cursors) (m : Memory) (b : Byte) (s : State) :
   exec (.storedData b) (withOutput c m s) = mapNext (withOutput (c.produce s.params) (Memory.write m c.nextOut b))
       (exec (.storedData b) s) := by
  simp only [exec, execStoredData]
  refine withOutput_readReg _ _ _ _ _ _ fun n => ?_
  exact withOutput_loop _ _ _ { (emit b s) with scratch := { s.scratch with storedRemain := .put (n - 1) } }

/-! ### Fetching -/

/-- A change of the state that was fetched. -/
def Fetched.mapState (g : State → State) : Fetched → Fetched
  | .word w t => .word w (g t)
  | .suspend t => .suspend (g t)
  | .stop f => .stop f

/-- The state with another output region. -/
def withOutMem (m : Memory) (s : State) : State := { s with outMem := m }

theorem withOutMem_pull (m) (s : State) : pull (withOutMem m s) = (pull s).map (withOutMem m) := by
  unfold pull readIn
  have e1 : (withOutMem m s).inMem = s.inMem := rfl
  have e2 : (withOutMem m s).cur = s.cur := rfl
  rw [e1, e2]
  cases Memory.read s.inMem s.cur.nextIn <;> rfl

theorem withOutMem_ensure (m k) (s : State) : ensureLoop k (withOutMem m s) = (ensureLoop k s).map (fun p => (p.1,
    withOutMem m p.2)) := by
  induction k generalizing s with
  | zero => rfl
  | succ k ih =>
    have e2 : (withOutMem m s).cur = s.cur := rfl
    rw [ensureLoop, ensureLoop, e2, withOutMem_pull]
    split
    · rfl
    · cases pull s with
      | ok s' => exact ih s'
      | error f => rfl

theorem withOutMem_field (m n f) (s : State) : fetchField n f (withOutMem m s) = Fetched.mapState (withOutMem m)
    (fetchField n f s) := by
  unfold fetchField ensure
  have : pullsNeeded n (withOutMem m s) = pullsNeeded n s := rfl
  rw [this, withOutMem_ensure]
  cases ensureLoop (pullsNeeded n s) s with
  | error e => rfl
  | ok p =>
    obtain ⟨b, u⟩ := p
    cases b
    · rfl
    · simp only [Except.map]
      unfold readBits
      have e : (withOutMem m u).acc = u.acc := rfl
      rw [e]
      split <;> rename_i h <;> split at h <;> rename_i h2
      · simp at h
      · rw [if_neg h2]; simp only [Except.error.injEq] at h; subst h; rfl
      · rw [if_pos h2]; simp only [Except.ok.injEq, Prod.mk.injEq] at h; obtain ⟨rfl, rfl⟩ := h; rfl
      · simp at h

theorem withOutMem_sym (m T k) (s : State) : decodeSymLoop T k (withOutMem m s) = (match decodeSymLoop T k s with
   | .symbol y t => .symbol y (withOutMem m t) | .invalid t => .invalid (withOutMem m t) | .needInput t =>
       .needInput (withOutMem m t) | .stop f => .stop f) := by
  induction k generalizing s with
  | zero =>
    rw [decodeSymLoop, decodeSymLoop]
    have e : (withOutMem m s).acc = s.acc := rfl
    rw [e]; cases T.matchHeld s.acc <;> rfl
  | succ k ih =>
    rw [decodeSymLoop, decodeSymLoop]
    have e : (withOutMem m s).acc = s.acc := rfl
    have e2 : (withOutMem m s).cur = s.cur := rfl
    rw [e, e2, withOutMem_pull]
    cases T.matchHeld s.acc with
    | some p => rfl
    | none =>
      simp only
      split
      · rfl
      · cases pull s with
        | ok s' => exact ih s'
        | error f => rfl

theorem withOutMem_fetchSym (m T f) (s : State) : fetchSym T f (withOutMem m s) = Fetched.mapState (withOutMem m)
    (fetchSym T f s) := by
  unfold fetchSym decodeSym
  have : pullsNeeded T.maxlen (withOutMem m s) = pullsNeeded T.maxlen s := rfl
  rw [this, withOutMem_sym]
  cases decodeSymLoop T (pullsNeeded T.maxlen s) s <;> rfl

theorem withOutMem_reg {α} (m) (name : RegName) (r : Reg α) (k k' : α → Fetched) (h : ∀ v, k' v =
    Fetched.mapState (withOutMem m) (k v)) :
   fetchReg name r k' = Fetched.mapState (withOutMem m) (fetchReg name r k) := by
  unfold fetchReg; split
  · exact h _
  · rfl

theorem withOutMem_fetch (m) (s : State) : fetch (withOutMem m s) = Fetched.mapState (withOutMem m) (fetch s) := by
  unfold fetch
  have e : (withOutMem m s).mode = s.mode := rfl
  rw [e]
  cases s.mode with
  | header => exact withOutMem_field ..
  | storedLen => exact withOutMem_field ..
  | storedCopy =>
    simp only [fetchStored]
    have e2 : (withOutMem m s).cur = s.cur := rfl
    have e1 : readIn (withOutMem m s) = readIn s := rfl
    rw [e2, e1]
    split
    · rfl
    · cases readIn s <;> rfl
  | dynCounts => exact withOutMem_field ..
  | dynClc => exact withOutMem_field ..
  | dynLens => exact withOutMem_reg m _ _ _ _ fun _ => withOutMem_fetchSym ..
  | dynRepeat =>
    refine withOutMem_reg m _ _ _ _ fun _ => ?_
    split
    · exact withOutMem_field ..
    · exact withOutMem_field ..
    · exact withOutMem_field ..
    · rfl
  | llSym =>
    refine withOutMem_reg m _ _ _ _ fun sel => ?_
    cases sel
    · exact withOutMem_fetchSym ..
    · exact withOutMem_reg m _ _ _ _ fun _ => withOutMem_fetchSym ..
  | litEmit => rfl
  | lenExtra =>
    refine withOutMem_reg m _ _ _ _ fun _ => ?_
    split
    · exact withOutMem_field ..
    · rfl
  | distSym =>
    refine withOutMem_reg m _ _ _ _ fun sel => ?_
    cases sel
    · exact withOutMem_fetchSym ..
    · exact withOutMem_reg m _ _ _ _ fun _ => withOutMem_fetchSym ..
  | distExtra =>
    refine withOutMem_reg m _ _ _ _ fun _ => ?_
    split
    · exact withOutMem_field ..
    · rfl
  | copy => rfl
  | done => rfl
  | error => rfl

end Sys2Proof.Machine
end

