-- ==== Sys2Proof/Laws/Symbol.lean ====
section
/-! SUPPORT. Laws of symbols as the stream bits they are: a codeword that the stream goes on with is the one the decoder matches
(R92, R110, R160), and how many bits are held where an element is next (R137). -/

namespace Sys2Proof.Machine

theorem symbolBits_cases {T : Table} {sym : Nat} (h : T.symbolBits sym ≠ []) : ∃ L c, L ≠ 0 ∧ T.codes[sym]? =
    some (L, c) ∧ T.symbolBits sym = codewordBits L c := by
  unfold Table.symbolBits at *
  cases hc : T.codes[sym]? with
  | none => rw [hc] at h; simp at h
  | some p =>
    obtain ⟨L, c⟩ := p
    rw [hc] at h
    refine ⟨L, c, ?_, rfl, rfl⟩
    rintro rfl
    simp [codewordBits, fieldBits] at h

theorem symbolBits_of {T : Table} {sym L c : Nat} (h : T.codes[sym]? = some (L, c)) : T.symbolBits sym =
    codewordBits L c := by
  unfold Table.symbolBits; rw [h]

theorem heldBits_length (s : State) : s.heldBits.length = s.acc.cnt.toNat := fieldBits_length _ _

theorem symbolBits_length_le {T : Table} {sym : Nat} (h : T.symbolBits sym ≠ []) :
    (T.symbolBits sym).length ≤ T.maxlen := by
  obtain ⟨L, c, hL, hc, hb⟩ := symbolBits_cases h
  rw [hb, codewordBits_length]
  exact Table.le_maxlen (Table.codes_eq hc hL).2.2.1

/-- A codeword that the stream goes on with and that is wholly held is the one matched. -/
theorem prefixFree.match_of_prefix {T : Table} {u : State} {sym : Nat} (hT : prefixFree T) (h :
    T.symbolBits sym ≠ []) (hp : T.symbolBits sym <+: u.upcoming)
  (hle : (T.symbolBits sym).length ≤ u.acc.cnt.toNat) : T.matchHeld u.acc = some (sym, (T.symbolBits sym).length) :=
      by
  obtain ⟨L, c, hL, hc, hb⟩ := symbolBits_cases h
  rw [hb] at hp hle ⊢
  rw [codewordBits_length] at hle ⊢
  refine hT.matchHeld hc hL hle ?_
  have h1 := List.prefix_iff_eq_take.1 hp
  rw [codewordBits_length, State.upcoming, List.take_append_of_le_length (by rw [heldBits_length]; exact hle),
      State.heldBits, fieldBits_take _ _ _ hle] at h1
  exact h1.symm

/-- The codeword matched is one that the stream goes on with. -/
theorem prefix_of_match {T : Table} {u : State} {sym L : Nat} (h : T.matchHeld u.acc = some (sym, L)) :
    T.symbolBits sym ≠ [] ∧ T.symbolBits sym <+: u.upcoming ∧ (T.symbolBits sym).length = L := by
  obtain ⟨h1, h2, h3, h4, h5⟩ := Table.matchHeld_eq_some h
  have hb := symbolBits_of h5
  have e : codewordBits L (revBits L (u.acc.buf % 2 ^ L)) = fieldBits L u.acc.buf := by
    exact ((revBits_eq_iff (revBits_lt _ _)).1 rfl).symm
  rw [e] at hb
  rw [hb]
  refine ⟨?_, ?_, fieldBits_length _ _⟩
  · intro h; have := congrArg List.length h; simp at this; omega
  · rw [← fieldBits_take _ _ _ h2]
    exact (List.take_prefix _ _).trans (List.prefix_append _ _)

/-- At most one codeword of a prefix-free table begins a sequence of bits. -/
theorem prefixFree.unique {T : Table} (hT : prefixFree T) {a b : Nat} {l : List Bool} (ha : T.symbolBits a ≠ [])
    (hb : T.symbolBits b ≠ []) (h1 : T.symbolBits a <+: l) (h2 : T.symbolBits b <+: l) : a = b := by
  obtain ⟨L, c, hL, hc, hba⟩ := symbolBits_cases ha
  obtain ⟨M, d, hM, hd, hbb⟩ := symbolBits_cases hb
  rw [hba] at h1; rw [hbb] at h2
  have key : ∀ {a b L c M d : Nat}, T.codes[a]? = some (L, c) → T.codes[b]? = some (M, d) → L ≠ 0 → M ≠ 0 → L ≤ M →
      codewordBits L c <+: codewordBits M d → a = b := by
    intro a b L c M d hc hd hL hM hLM hp
    have hcl := (hT.code_lt hc hL).2
    have hdl := (hT.code_lt hd hM).2
    have e := List.prefix_iff_eq_take.1 hp
    rw [codewordBits_length, codewordBits_take hLM] at e
    have hdd : d / 2 ^ (M - L) < 2 ^ L := by
      refine Nat.div_lt_of_lt_mul ?_
      rw [← Nat.pow_add]; rwa [show M - L + L = M by omega]
    have e2 : c = d / 2 ^ (M - L) := by
      simp only [codewordBits] at e
      have := List.reverse_injective e
      exact fieldBits_inj hcl hdd this
    rcases Nat.lt_or_eq_of_le hLM with hlt | rfl
    · exact absurd e2.symm (hT.not_prefix hc hd hL hlt)
    · simp at e2; subst e2
      exact Table.codes_inj hL hc hd
  rcases Nat.le_total L M with h | h
  · exact key hc hd hL hM h (List.prefix_of_prefix_length_le h1 h2 (by simpa using h))
  · exact (key hd hc hM hL h (List.prefix_of_prefix_length_le h2 h1 (by simpa using h))).symm

theorem fixed_prefixFree : prefixFree fixedLL ∧ prefixFree fixedD := by
  constructor <;> unfold prefixFree <;> decide +kernel

theorem symbolTable_prefixFree {s : State} {f : Format} (hr : s.regsOk) (hf : s.symbolFormat = some f) :
    prefixFree s.symbolTable := by
  unfold State.symbolFormat at hf
  unfold State.regsOk at hr
  unfold State.symbolTable
  split at hf
  · next hm => simp only [hm] at hr ⊢; exact hr.2.2.1.2.1.prefixFree
  · next hm =>
    simp only [hm] at hr ⊢
    split
    · next h => exact (hr.2.2 h).1.2.1.prefixFree
    · exact fixed_prefixFree.1
  · next hm =>
    simp only [hm] at hr ⊢
    split
    · next h => exact (hr.1.2.2 h).2.2.1.prefixFree
    · exact fixed_prefixFree.2
  all_goals simp at hf

/-- How many stream bits are still to come. -/
theorem upcoming_length (s : State) : s.upcoming.length = s.acc.cnt.toNat + 8 * s.cur.availIn := by
  have : ∀ l : List Byte, (l.flatMap fun b => fieldBits 8 b.toNat).length = 8 * l.length := by
    intro l; induction l with
    | nil => rfl
    | cons b l ih => simp only [List.flatMap_cons, List.length_append, fieldBits_length, ih, List.length_cons]; omega
  rw [State.upcoming, List.length_append, heldBits_length, this, State.offeredBytes, List.length_map,
      List.length_range]

theorem heldOk_symbol {s : State} {f : Format} (hI : s.Inv) (hf : s.symbolFormat = some f) : s.acc.cnt.toNat ≤ 7 ∨
    (s.acc.cnt.toNat < s.symbolTable.maxlen ∧ s.symbolTable.matchHeld s.acc = none) := by
  have := hI.acc.2
  unfold State.symbolFormat at hf
  unfold State.heldOk at this
  split at hf <;> simp_all

theorem heldOk_field {s : State} {f : Format} (hI : s.Inv) (hf : s.fieldFormat = some f) : (s.acc.cnt.toNat ≤ 7 ∨
    s.acc.cnt.toNat < f.width) ∧ (f.width ≤ 25 ∨ (f.width = 32 ∧ s.acc.cnt.toNat % 8 = 0)) := by
  have h := hI.acc.2
  have hr := hI.regs
  unfold State.fieldFormat at hf
  unfold State.heldOk at h
  unfold State.regsOk at hr
  split at hf <;> rename_i hm <;> simp only [hm] at h hr
  all_goals first
    | (simp at hf; done)
    | (simp only [Option.some.injEq] at hf
       subst hf
       simp only [Format.width]
       first
       | omega
       | exact ⟨.inr (by omega), .inr ⟨trivial, h.1⟩⟩)
    | skip
  · split at hf
    · simp only [Option.some.injEq] at hf; subst hf; simp only [Format.width]; omega
    · split at hf <;> simp only [Option.some.injEq] at hf <;> subst hf <;> simp only [Format.width] <;> omega
  · have hx := lengthTable_ok _ hr.2.2.1.1 hr.2.2.1.2
    simp only [Option.some.injEq] at hf; subst hf; simp only [Format.width]; omega
  · have hx := distTable_ok _ hr.2.2.2.1
    simp only [Option.some.injEq] at hf; subst hf; simp only [Format.width]; omega

end Sys2Proof.Machine
end

