-- ==== Sys2Proof/Laws/Progress.lean ====
section
/-! SUPPORT. Laws of progress (R278): what fetching an element consumes, and that an instruction gives no bits back. -/

namespace Sys2Proof.Machine

theorem endBlock_acc {u t : State} (h : endBlock u = .next t) : t.acc = u.acc := by
  unfold endBlock at h
  obtain ⟨-, h⟩ := readReg_eq_next.1 h
  split at h <;> simp only [finish, goto, Host.Outcome.next.injEq] at h <;> subst h <;> rfl

/-- No element puts bits back into the accumulator. -/
theorem exec_acc_le {i : Instr} {u t : State} (hi : isElement i = true) (h : exec i u = .next t) :
    t.acc.cnt.toNat ≤ u.acc.cnt.toNat := by
  by_cases h1 : ∃ last, i = .blockStored last ∨ i = .blockFixed last ∨ i = .blockDynamic last ∨ i =
      .blockReserved last
  · obtain ⟨last, rfl | rfl | rfl | rfl⟩ := h1
    · simp only [exec, execBlockStored, goto, Host.Outcome.next.injEq] at h
      subst h
      show (u.acc.drop (u.acc.cnt.toNat % 8)).cnt.toNat ≤ _
      rw [Accumulator.drop_cnt_toNat _ _ (Nat.mod_le ..)]; omega
    · simp only [exec, execBlockFixed, goto, Host.Outcome.next.injEq] at h; subst h; exact Nat.le_refl _
    · simp only [exec, execBlockDynamic, goto, Host.Outcome.next.injEq] at h; subst h; exact Nat.le_refl _
    · simp only [exec, execBlockReserved, raise, Host.Outcome.next.injEq] at h; subst h; exact Nat.le_refl _
  by_cases h2 : ∃ len nlen, i = .storedLen len nlen
  · obtain ⟨len, nlen, rfl⟩ := h2
    simp only [exec, execStoredLen] at h
    split at h
    · simp only [raise, Host.Outcome.next.injEq] at h; subst h; exact Nat.le_refl _
    · split at h
      · have := endBlock_acc h
        rw [this]; simp
      · simp only [goto, Host.Outcome.next.injEq] at h; subst h; simp
  by_cases h3 : ∃ b, i = .storedData b
  · obtain ⟨b, rfl⟩ := h3
    simp only [exec, execStoredData] at h
    obtain ⟨-, h⟩ := readReg_eq_next.1 h
    split at h
    · have := endBlock_acc h
      rw [this]; exact Nat.le_refl _
    · simp only [goto, Host.Outcome.next.injEq] at h; subst h; exact Nat.le_refl _
  have := (controls_exec u hi (fun last => ⟨fun e => h1 ⟨last, .inl e⟩, fun e => h1 ⟨last, .inr (.inl e)⟩, fun e =>
      h1 ⟨last, .inr (.inr (.inl e))⟩, fun e => h1 ⟨last, .inr (.inr (.inr e))⟩⟩) (fun a b e => h2 ⟨a, b, e⟩)
      (fun b e => h3 ⟨b, e⟩) t h).1
  rw [this]

theorem fieldFormat_width_pos {s : State} {f : Format} (hr : s.regsOk) (hf : s.fieldFormat = some f) :
    0 < f.width := by
  unfold State.fieldFormat at hf
  unfold State.regsOk at hr
  split at hf <;> rename_i hm <;> simp only [hm] at hr
  all_goals first
    | (simp at hf; done)
    | (simp only [Option.some.injEq] at hf; subst hf; simp [Format.width]; done)
    | skip
  · split at hf
    · simp only [Option.some.injEq] at hf; subst hf; simp [Format.width]
    · split at hf <;> simp only [Option.some.injEq] at hf <;> subst hf <;> simp [Format.width]
  · simp only [Option.some.injEq] at hf; subst hf; exact hr.2.2.2.1
  · simp only [Option.some.injEq] at hf; subst hf; exact hr.2.2.2.2.1

/-- Fetching an element consumes at least one bit, but for the outcome INVALID. -/
theorem fetch_consumes {s u : State} {w : InstrWord} (hI : s.Inv) (h : fetch s = .word w u) :
   s.readsTo u ∧ u.upcoming.length ≤ s.upcoming.length ∧ ((∃ f, w = .noMatch f) ∨
       u.upcoming.length < s.upcoming.length) := by
  have hb := hI.acc.1
  cases hf : s.fieldFormat with
  | some f =>
    rw [fetch_field hI.regs hf] at h
    have hh := heldOk_field hI hf
    have hpos := fieldFormat_width_pos hI.regs hf
    obtain ⟨v, hp, hv, rfl, rfl⟩ := fetchField_eq_word h
    have hup := (hp.upcoming hb (by have := pullsNeeded_spec f.width s; unfold pullsNeeded at *; omega)).2
    have hle : v.acc.cnt.toNat ≤ v.upcoming.length := by rw [upcoming_length]; omega
    refine ⟨hp.readsTo.trans (readsTo_dropBits v _), ?_, .inr ?_⟩ <;>
      rw [upcoming_dropBits _ _ hv, ← hup, List.length_drop] <;> omega
  | none =>
    cases hs : s.symbolFormat with
    | some f =>
      rw [fetch_symbol hI.regs hs] at h
      have hh := heldOk_symbol hI hs
      have hmax := s.symbolTable.maxlen_le
      rcases fetchSym_eq_word (by omega) hb h with ⟨sym, j, v, L, rfl, rfl, hp, hm, -, hcnt, h32, -⟩ | ⟨j, rfl, hp,
          -, -, -, hcnt, h32⟩
      · have hup := (hp.upcoming hb (by omega)).2
        obtain ⟨h1, h2, -⟩ := Table.matchHeld_eq_some hm
        have hle : v.acc.cnt.toNat ≤ v.upcoming.length := by rw [upcoming_length]; omega
        refine ⟨hp.readsTo.trans (readsTo_dropBits v _), ?_, .inr ?_⟩ <;>
          rw [upcoming_dropBits _ _ h2, ← hup, List.length_drop] <;> omega
      · exact ⟨hp.readsTo, by rw [(hp.upcoming hb (by omega)).2], .inl ⟨_, rfl⟩⟩
    | none =>
      have hm : s.mode = .storedCopy ∨ fetch s = .suspend s := by
        unfold State.fieldFormat at hf; unfold State.symbolFormat at hs; unfold fetch
        cases hm : s.mode <;> simp [hm] at hf hs ⊢
        split at hf
        · simp at hf
        · split at hf <;> simp at hf
      rcases hm with hm | hm
      · unfold fetch at h; rw [hm] at h; simp only [fetchStored] at h
        split at h
        · simp at h
        · next hav =>
          split at h
          · simp at h
          · simp only [Fetched.word.injEq] at h
            obtain ⟨-, rfl⟩ := h
            have h0 : s.cur.availIn ≠ 0 := fun h => hav (.inl h)
            rw [upcoming_length, upcoming_length]
            simp only [Cursors.consume_availIn]
            refine ⟨rfl, ?_, .inr ?_⟩ <;> bv_omega
      · rw [h] at hm; simp at hm

theorem emit_up (b : Byte) (s : State) : (emit b s).upcoming.length = s.upcoming.length := by
  rw [upcoming_length, upcoming_length]; rfl

end Sys2Proof.Machine
end

