-- ==== Sys2Proof/Laws/Running.lean ====
section
/-! SUPPORT. Laws of a run of steps inside a DECODE: the cursors, the status, and `runDecode` one step at a time. -/

namespace Sys2Proof.Machine

/-- The cursors after `m` bytes are consumed and `n` produced (R24 to R26). -/
def Cursors.moved (p : Config.Params) (c : Cursors) (m n : Nat) : Cursors :=
  ⟨advance p c.nextIn m, c.availIn - m, advance p c.totalIn m, advance p c.nextOut n, c.availOut - n,
    advance p c.totalOut n⟩

@[simp] theorem Cursors.moved_zero (p : Config.Params) (c : Cursors) : c.moved p 0 0 = c := rfl

theorem Cursors.moved_produce (p : Config.Params) (c : Cursors) : c.moved p 0 1 = c.produce p := rfl

theorem State.takes.cur_eq {s u : State} {k : Nat} (h : s.takes k u) : u.cur = s.cur.moved s.params k 0 := by
  obtain ⟨hu, -, h1, h2, h3⟩ := h
  unfold State.readsTo at hu; rw [hu]; simp [Cursors.moved, h1, h2, h3]

theorem State.takes.produce_eq {s u : State} {k : Nat} (h : s.takes k u) :
    u.cur.produce u.params = s.cur.moved s.params k 1 := by
  rw [h.1.params_eq, h.cur_eq]; simp [Cursors.moved, Cursors.produce]

/-- A stored byte is read only where there is output space (R187). -/
theorem storedData_availOut {s u : State} {w : InstrWord} {f : Format} {b : Byte} (hf : fetch s = .word w u)
    (hfm : modeOf f = s.mode) (hw : (∃ v, w = .field f v) ∨ w = .noMatch f) (hd : decode w = .ok (.storedData b)) :
    s.cur.availOut ≠ 0 := by
  obtain ⟨-, ⟨rfl, l, hl⟩ | ⟨-, l, l', hl⟩ | ⟨rfl, -⟩ | ⟨-, -, hl⟩⟩ := decode_format hw hd
  · simp at hl
  · simp at hl
  · intro h0
    rw [fetch, ← hfm] at hf
    simp [modeOf, fetchStored, h0] at hf
  · exact absurd rfl (hl b)

/-- How a step moves the six cursors: some bytes consumed, at most one produced (R276). -/
theorem step_cur {s t : State} (hr : s.running = true) (h : step s = .next t) : ∃ m n : Nat,
    m ≤ s.cur.availIn ∧ n ≤ s.cur.availOut ∧ n ≤ 1 ∧ t.cur = s.cur.moved s.params m n := by
  rcases step_running hr h with ⟨-, u, -, ⟨k, hu⟩, rfl⟩ | ⟨hre, w, u, i, f, hf, ⟨k, hu⟩, hd, hfm, hw, hi, he⟩ |
      ⟨-, -, rfl⟩ | ⟨-, h0, -, rfl⟩ | ⟨-, h0, -, -, b, -, rfl⟩ | ⟨-, rfl⟩ | ⟨-, rfl⟩
  · exact ⟨k, 0, hu.2.1, by omega, by omega, hu.cur_eq⟩
  · obtain ⟨-, ⟨b, rfl, -, ht⟩ | ⟨-, ht, -⟩⟩ := exec_element hi he
    · have h0 := storedData_availOut hf hfm hw hd
      refine ⟨k, 1, hu.2.1, by omega, by omega, ?_⟩
      rw [ht]; exact hu.produce_eq
    · refine ⟨k, 0, hu.2.1, by omega, by omega, ?_⟩
      rw [ht]; exact hu.cur_eq
  · exact ⟨0, 0, by omega, by omega, by omega, rfl⟩
  · exact ⟨0, 1, by omega, by omega, by omega, rfl⟩
  · exact ⟨0, 1, by omega, by omega, by omega, rfl⟩
  · exact ⟨0, 0, by omega, by omega, by omega, rfl⟩
  · exact ⟨0, 0, by omega, by omega, by omega, rfl⟩

/-- No step changes the widths the machine is built with (R7). -/
theorem step_params {s t : State} (h : step s = .next t) : t.params = s.params := by
  cases hr : s.running with
  | false =>
    rcases step_idle hr h with ⟨-, rfl⟩ | ⟨p, rest, -, ⟨-, -, r, -, rfl⟩ | ⟨-, -, r, -, rfl⟩ | ⟨-, -, -, -, ht, -⟩⟩
    · rfl
    · rfl
    · rfl
    · rw [ht]; rfl
  | true =>
    rcases step_running hr h with ⟨-, u, -, ⟨k, hu⟩, rfl⟩ | ⟨-, w, u, i, f, -, ⟨k, hu⟩, -, -, -, hi, he⟩ |
        ⟨-, -, rfl⟩ | ⟨-, -, -, rfl⟩ | ⟨-, -, -, -, b, -, rfl⟩ | ⟨-, rfl⟩ | ⟨-, rfl⟩
    · exact hu.1.params_eq
    · obtain ⟨-, ⟨b, -, -, ht⟩ | ⟨-, ht, -⟩⟩ := exec_element hi he <;> rw [ht] <;> exact hu.1.params_eq
    all_goals rfl

/-- Every cursor still fits its register after a step (R7, R22). -/
theorem step_cursorsOk {s t : State} (hs : s.cursorsOk) (h : step s = .next t) : t.cursorsOk := by
  unfold State.cursorsOk at *
  rw [step_params h]
  obtain ⟨h1, h2, h3, h4, h5, h6⟩ := hs
  have hpos := Nat.two_pow_pos s.params.cursorBits
  cases hr : s.running with
  | false =>
    rcases step_idle hr h with ⟨-, rfl⟩ | ⟨p, rest, -, ⟨-, -, r, -, rfl⟩ | ⟨-, -, r, -, rfl⟩ | ⟨-, -, -, -, ht, -⟩⟩
    · exact ⟨h1, h2, h3, h4, h5, h6⟩
    · exact ⟨lowBits_lt _ _, lowBits_lt _ _, hpos, lowBits_lt _ _, lowBits_lt _ _, hpos⟩
    · exact ⟨h1, h2, hpos, h4, h5, hpos⟩
    · rw [ht]; exact ⟨lowBits_lt _ _, lowBits_lt _ _, h3, lowBits_lt _ _, lowBits_lt _ _, h6⟩
  | true =>
    obtain ⟨m, n, -, -, -, hc⟩ := step_cur hr h
    rw [hc]
    exact ⟨advance_lt h1 m, (Nat.sub_le _ m).trans_lt h2, advance_lt h3 m, advance_lt h4 n,
      (Nat.sub_le _ n).trans_lt h5, advance_lt h6 n⟩

/-- `runDecode`, one step at a time. -/
theorem runDecode_succ {k : Nat} {s t : State} (h : runDecode (k + 1) s = .next t) :
   (s.running = false ∧ t = s) ∨ (s.running = true ∧ ∃ u, step s = .next u ∧ runDecode k u = .next t) := by
  rw [runDecode] at h
  split at h
  · next hr =>
    cases hs : step s with
    | next u => rw [hs] at h; exact .inr ⟨hr, u, rfl, h⟩
    | fault f => rw [hs] at h; simp at h
    | refused f => rw [hs] at h; simp at h
  · next hr => simp only [Host.Outcome.next.injEq] at h; exact .inl ⟨by simpa using hr, h.symm⟩

theorem State.takes.offersAll {s u : State} {k : Nat} (h : s.takes k u) (ho : s.offersAll) : u.offersAll := by
  obtain ⟨h1, hk, h2, h3, h4⟩ := h
  intro j hj
  have e := State.readsTo.same h1
  rw [h3] at hj
  have h5 := ho (k + j) (by omega)
  rw [e.2.2.2.1, h2, h1.params_eq, advance_advance]; exact h5

theorem statusOk_loop {q : State} (hc : q.constructed = true) (hm : q.mode = .llSym ∨ q.mode = .copy) (hs :
    q.status = .ok) : q.statusOk := by
  refine ⟨fun _ => ⟨hc, ?_, ?_⟩, ?_⟩ <;> rcases hm with hm | hm <;> rw [hm] <;> first | exact hs | simp

/-- After a step inside a DECODE `STATUS` and `MODE` agree, and the bytes still offered are there (R272, R282). -/
theorem step_status {s t : State} (hI : s.Inv) (hr : s.running = true) (h : step s = .next t) : t.statusOk ∧
    t.offersAll ∧ (t.running = true → t.pending = s.pending) := by
  have hst := hI.status
  have h1 := hst.1 hr
  have ho : s.offersAll := hI.input hr
  have hok : s.status = .ok := by
    have := hst.2; cases hm : s.mode <;> simp_all
  rcases step_running hr h with ⟨-, u, -, ⟨k, hu⟩, rfl⟩ | ⟨hre, w, u, i, f, hf, ⟨k, hu⟩, hd, hfm, hw, hi, he⟩ | ⟨hm,
      h0, rfl⟩ | ⟨hm, h0, -, rfl⟩ | ⟨hm, h0, -, -, b, -, rfl⟩ | ⟨hm, rfl⟩ | ⟨hm, rfl⟩
  · have e := State.readsTo.same hu.1
    have hoff := State.takes.offersAll hu ho
    refine ⟨⟨by simp, ?_⟩, hoff, by simp⟩
    simp only
    rw [e.1]; cases hm : s.mode <;> simp_all
  · have e := State.readsTo.same hu.1
    have hoff := State.takes.offersAll hu ho
    have hpend : u.pending = s.pending := by rw [hu.1]
    obtain ⟨hend, hfr⟩ := exec_element hi he
    have hcon : t.constructed = u.constructed ∧ t.offersAll ∧ t.pending = u.pending := by
      rcases hfr with ⟨b, -, -, ht⟩ | ⟨-, ht, -⟩
      · rw [ht]; exact ⟨rfl, hoff, rfl⟩
      · rw [ht]; exact ⟨rfl, hoff, rfl⟩
    refine ⟨?_, hcon.2.1, fun _ => hcon.2.2.trans hpend⟩
    cases hend with
    | goesOn h1' h2 h3 h4 =>
      refine ⟨fun _ => ⟨by rw [hcon.1, e.2.2.2.2.2.2.2]; exact h1.1, h4, h3⟩, ?_⟩
      rw [h2, e.2.2.2.2.2.1, hok]
      cases hm : t.mode <;> simp_all
    | finished h1 h2 h3 => exact ⟨by simp [h1], by rw [h2]; exact h3⟩
    | raised h1 h2 h3 _ => exact ⟨by simp [h1], by rw [h2]; exact h3⟩
  · refine ⟨⟨by simp, ?_⟩, ho, by simp⟩
    rcases hm with hm | hm <;> simp [hm]
  · exact ⟨⟨fun _ => ⟨h1.1, by simp, by simp⟩, hok⟩, ho, fun _ => rfl⟩
  · refine ⟨statusOk_loop h1.1 ?_ hok, ho, fun _ => rfl⟩
    simp only; by_cases hc : s.scratch.copyRemain.val - 1 = 0
    · rw [if_pos hc]; exact .inl rfl
    · rw [if_neg hc]; exact .inr rfl
  · exact absurd hm h1.2.1
  · exact absurd hm h1.2.2

/-- With a region that holds the bytes its cursors name, every offered byte is there (R272). -/
theorem offered_all (p : Config.Params) (a : DecodeArgs) (h : regionsHold (receivedArgs p a)) :
    ∀ k, k < (receivedArgs p a).availIn → (Memory.read (Memory.ofBytes (receivedArgs p a).inRegion.bytes)
      (advance p (receivedArgs p a).nextIn k)).isSome := by
  generalize hb : receivedArgs p a = b at *
  have hlt : b.nextIn < 2 ^ p.cursorBits := by rw [← hb]; exact lowBits_lt _ _
  intro k hk
  have := Memory.read_fromIndex 0 b.inRegion.bytes (advance p b.nextIn k)
  rw [Nat.zero_add] at this
  rw [Memory.ofBytes, this]
  have h1 : advance p b.nextIn k < b.inRegion.bytes.length := by
    have := h.1
    have := advance_eq_mod hlt k
    have := Nat.mod_le (b.nextIn + k) (2 ^ p.cursorBits)
    omega
  rw [List.getElem?_eq_getElem h1]; rfl

end Sys2Proof.Machine
end

