-- ==== Sys2Proof/Laws/Offer.lean ====
section
/-! SUPPORT. Laws of offering more (R279): a step that goes on is the same step with more offered, and a step that suspends is taken
up again where it stopped. -/

namespace Sys2Proof.Machine

variable {m p : Nat}

theorem more_ne {s : State} (h0 : s.cur.availIn ≠ 0) : (s.offerMore m p).cur.availIn ≠ 0 := by
  simp only [State.offerMore]; omega

theorem more_out_ne {s : State} (h0 : s.cur.availOut ≠ 0) : (s.offerMore m p).cur.availOut ≠ 0 := by
  simp only [State.offerMore]; omega

theorem more_consume {s : State} (h0 : s.cur.availIn ≠ 0) (a : Accumulator) :
    ({ s with acc := a, cur := s.cur.consume s.params } : State).offerMore m p =
      { (s.offerMore m p) with acc := a, cur := (s.offerMore m p).cur.consume s.params } := by
  simp only [State.offerMore, Cursors.consume, Nat.sub_add_comm (Nat.one_le_iff_ne_zero.2 h0)]

theorem more_pulled {s t : State} {k : Nat} (h : Pulled s k t) :
    Pulled (s.offerMore m p) k (t.offerMore m p) := by
  induction h with
  | refl => exact .refl _
  | @step s t k b hin hb ht ih =>
    rw [more_consume hin] at ih
    exact .step (more_ne hin) hb ih

theorem more_pull {s : State} (h0 : s.cur.availIn ≠ 0) : pull (s.offerMore m p) = (pull s).map (State.offerMore m p) := by
  have e1 : readIn (s.offerMore m p) = readIn s := rfl
  unfold pull
  rw [e1]
  cases readIn s with
  | error f => rfl
  | ok b => exact congrArg Except.ok (more_consume h0 _).symm

theorem more_loop_done {T : Table} {k : Nat} {s : State} :
    match decodeSymLoop T k s with
    | .symbol y t => decodeSymLoop T k (s.offerMore m p) = .symbol y (t.offerMore m p)
    | .invalid t => decodeSymLoop T k (s.offerMore m p) = .invalid (t.offerMore m p)
    | .needInput t => k = pullsNeeded T.maxlen s → s.acc.cnt.toNat ≤ 24 → decodeSymLoop T k (s.offerMore m p) =
        decodeSymLoop T (pullsNeeded T.maxlen t) (t.offerMore m p)
    | .stop _ => True := by
  induction k generalizing s with
  | zero =>
    have e : (s.offerMore m p).acc = s.acc := rfl
    rw [decodeSymLoop, decodeSymLoop, e]
    cases T.matchHeld s.acc <;> rfl
  | succ k ih =>
    have e : (s.offerMore m p).acc = s.acc := rfl
    cases hm : T.matchHeld s.acc with
    | some q =>
      obtain ⟨y, L⟩ := q
      rw [decodeSymLoop, hm]; simp only
      rw [decodeSymLoop, e, hm]; rfl
    | none =>
      by_cases h0 : s.cur.availIn = 0
      · have : decodeSymLoop T (k + 1) s = .needInput s := by rw [decodeSymLoop, hm]; simp only; rw [if_pos h0]
        rw [this]; simp only
        intro hk _; rw [← hk]
      · have h1 := more_ne (m := m) (p := p) h0
        cases hp : pull s with
        | error f =>
          have : decodeSymLoop T (k + 1) s = .stop f := by rw [decodeSymLoop, hm]; simp only; rw [if_neg h0, hp]
          rw [this]; trivial
        | ok s' =>
          have e2 : decodeSymLoop T (k + 1) s = decodeSymLoop T k s' := by
            rw [decodeSymLoop, hm]
            simp only
            rw [if_neg h0, hp]
          have e3 : decodeSymLoop T (k + 1) (s.offerMore m p) = decodeSymLoop T k (s'.offerMore m p) := by
            rw [decodeSymLoop, e, hm]; simp only; rw [if_neg h1, more_pull h0, hp]; rfl
          obtain ⟨b, hb, rfl⟩ := pull_eq_ok.1 hp
          have := ih (s := { s with acc := s.acc.push s.params b, cur := s.cur.consume s.params })
          rw [e2, e3]
          revert this
          cases decodeSymLoop T k { s with acc := s.acc.push s.params b, cur := s.cur.consume s.params } with
          | symbol y t => exact fun h => h
          | invalid t => exact fun h => h
          | stop f => exact fun h => h
          | needInput t =>
            intro h hk hc
            have hcnt : (s.acc.push s.params b).cnt.toNat = s.acc.cnt.toNat + 8 := Accumulator.push_cnt_toNat _ _ _ (by omega)
            have hmax := T.maxlen_le
            refine h ?_ ?_
            · simp only [pullsNeeded, hcnt] at hk ⊢; omega
            · simp only [hcnt]; simp only [pullsNeeded] at hk; omega

theorem more_sym {T : Table} {f : Format} {s : State} (hc : s.acc.cnt.toNat ≤ 24) :
    (∀ w t, fetchSym T f s = .word w t → fetchSym T f (s.offerMore m p) = .word w (t.offerMore m p)) ∧
    (∀ t, fetchSym T f s = .suspend t → fetchSym T f (s.offerMore m p) = fetchSym T f (t.offerMore m p)) := by
  have := more_loop_done (T := T) (k := pullsNeeded T.maxlen s) (m := m) (p := p) (s := s)
  unfold fetchSym decodeSym
  have e : ∀ t : State, pullsNeeded T.maxlen (t.offerMore m p) = pullsNeeded T.maxlen t := fun _ => rfl
  revert this
  cases hd : decodeSymLoop T (pullsNeeded T.maxlen s) s with
  | symbol y t =>
    simp only; intro h
    refine ⟨fun w u hw => ?_, by simp⟩
    simp only [Fetched.word.injEq] at hw; obtain ⟨rfl, rfl⟩ := hw
    rw [e, h]
  | invalid t =>
    simp only; intro h
    refine ⟨fun w u hw => ?_, by simp⟩
    simp only [Fetched.word.injEq] at hw; obtain ⟨rfl, rfl⟩ := hw
    rw [e, h]
  | needInput t =>
    simp only; intro h
    refine ⟨by simp, fun u hu => ?_⟩
    simp only [Fetched.suspend.injEq] at hu; subst hu
    rw [e, e, h trivial hc]
  | stop f => simp

theorem ensureLoop_pulled {s t : State} {j : Nat} (h : Pulled s j t) (k : Nat) : ensureLoop (k + j) s =
    ensureLoop k t := by
  induction h with
  | refl => rfl
  | step hin hb _ ih =>
    rw [← Nat.add_assoc, ensureLoop, if_neg hin, pull_eq_ok.2 ⟨_, hb, rfl⟩]; exact ih

theorem more_field {n : Nat} {f : Format} {s : State} (hn : n ≤ 32) :
    (∀ w t, fetchField n f s = .word w t → fetchField n f (s.offerMore m p) = .word w (t.offerMore m p)) ∧
    (∀ t, fetchField n f s = .suspend t → fetchField n f (s.offerMore m p) = fetchField n f (t.offerMore m p)) := by
  constructor
  · intro w t h
    obtain ⟨u, hp, hu, rfl, rfl⟩ := fetchField_eq_word h
    exact fetchField_word (more_pulled hp) hu
  · intro t h
    obtain ⟨h0, j, hj, hp⟩ := fetchField_eq_suspend h
    have hlt : s.acc.cnt.toNat + 8 * j < n := by unfold pullsNeeded at hj; omega
    have hcn := hp.cnt_toNat (by omega)
    have e : pullsNeeded n (s.offerMore m p) = pullsNeeded n (t.offerMore m p) + j := by
      show pullsNeeded n s = pullsNeeded n t + j
      unfold pullsNeeded at *; omega
    unfold fetchField ensure
    rw [e, ensureLoop_pulled (more_pulled hp)]

theorem fetch_more {s : State} (hI : s.Inv) :
    (∀ w t, fetch s = .word w t → fetch (s.offerMore m p) = .word w (t.offerMore m p)) ∧
    (∀ t, fetch s = .suspend t → fetch (s.offerMore m p) = fetch (t.offerMore m p)) := by
  have key : ∀ t, fetch s = .suspend t → t.mode = s.mode ∧ t.scratch = s.scratch ∧ t.win = s.win := by
    intro t ht
    have hk := fetch_ok s
    rw [ht] at hk
    obtain ⟨k, hk⟩ := hk
    rw [hk.1]; simp
  have hregs : ∀ t : State, t.mode = s.mode → t.scratch = s.scratch → t.win = s.win → (t.offerMore m p).regsOk := by
    intro t h1 h2 h3
    exact State.regsOk.congr hI.regs h1 h2 (by show t.win.size = _; rw [h3])
  cases hf : s.fieldFormat with
  | some f =>
    have hw := (heldOk_field hI hf).2
    have hff : ∀ t : State, t.mode = s.mode → t.scratch = s.scratch → (t.offerMore m p).fieldFormat = some f := by
      intro t h1 h2; rw [← hf]; unfold State.fieldFormat State.offerMore; simp only; rw [h1, h2]
    have := more_field (f := f) (m := m) (p := p) (n := f.width) (s := s) (by omega)
    rw [fetch_field hI.regs hf, fetch_field (hregs s rfl rfl rfl) (hff s rfl rfl)]
    refine ⟨this.1, fun t ht => ?_⟩
    obtain ⟨h1, h2, h3⟩ := key t (by rw [fetch_field hI.regs hf]; exact ht)
    rw [fetch_field (hregs t h1 h2 h3) (hff t h1 h2)]
    exact this.2 t ht
  | none =>
    cases hs : s.symbolFormat with
    | some f =>
      have hh := heldOk_symbol hI hs
      have hmax := s.symbolTable.maxlen_le
      have hff : ∀ t : State, t.mode = s.mode → t.scratch = s.scratch → (t.offerMore m p).symbolFormat = some f ∧
          (t.offerMore m p).symbolTable = s.symbolTable := by
        intro t h1 h2; rw [← hs]; unfold State.symbolFormat State.symbolTable State.offerMore; simp only; rw [h1,
            h2]; exact ⟨rfl, rfl⟩
      have := more_sym (T := s.symbolTable) (f := f) (m := m) (p := p) (s := s) (by omega)
      rw [fetch_symbol hI.regs hs, fetch_symbol (hregs s rfl rfl rfl) (hff s rfl rfl).1, (hff s rfl rfl).2]
      refine ⟨this.1, fun t ht => ?_⟩
      obtain ⟨h1, h2, h3⟩ := key t (by rw [fetch_symbol hI.regs hs]; exact ht)
      rw [fetch_symbol (hregs t h1 h2 h3) (hff t h1 h2).1, (hff t h1 h2).2]
      exact this.2 t ht
    | none =>
      have hm : s.mode = .storedCopy ∨ fetch s = .suspend s := by
        unfold State.fieldFormat at hf; unfold State.symbolFormat at hs; unfold fetch
        cases hm : s.mode <;> simp [hm] at hf hs ⊢
        split at hf
        · simp at hf
        · split at hf <;> simp at hf
      rcases hm with hm | hm
      · have e : ∀ t : State, t.mode = .storedCopy → fetch t = fetchStored t := by intro t ht; unfold fetch; rw [ht]
        rw [e s hm, e (s.offerMore m p) hm]
        simp only [fetchStored]
        split
        · next h0 =>
          refine ⟨by simp, fun t ht => ?_⟩
          simp only [Fetched.suspend.injEq] at ht; subst ht
          rw [e (s.offerMore m p) hm]; rfl
        · next h0 =>
          rw [not_or] at h0
          rw [if_neg (by rw [not_or]; exact ⟨more_ne h0.1, more_out_ne h0.2⟩)]
          have e1 : readIn (s.offerMore m p) = readIn s := rfl
          rw [e1]
          cases readIn s with
          | error f => simp
          | ok b =>
            refine ⟨fun w t h => ?_, by simp⟩
            simp only [Fetched.word.injEq] at h ⊢
            obtain ⟨rfl, rfl⟩ := h
            exact ⟨rfl, (more_consume h0.1 s.acc).symm⟩
      · rw [hm]
        refine ⟨by simp, fun t ht => ?_⟩
        simp only [Fetched.suspend.injEq] at ht; subst ht; rfl

theorem more_produce {s : State} (h0 : s.cur.availOut ≠ 0) :
    ({ s with cur := s.cur.produce s.params } : State).offerMore m p =
      { s with cur := (s.offerMore m p).cur.produce s.params } := by
  simp only [State.offerMore, Cursors.produce, Nat.sub_add_comm (Nat.one_le_iff_ne_zero.2 h0)]

theorem more_emit {s : State} (h0 : s.cur.availOut ≠ 0) (b : Byte) :
    emit b (s.offerMore m p) = (emit b s).offerMore m p := by
  have := congrArg State.cur (more_produce (m := m) (p := p) h0)
  unfold emit State.offerMore at *
  simp only at this ⊢
  rw [this]

/-- A step with more offered: the same step, or the same as after taking it up again. -/
theorem step_more {s t : State} (hI : s.Inv) (hr : s.running = true) (h : step s = .next t) :
    (t.running = true → step (s.offerMore m p) = .next (t.offerMore m p)) ∧
    (t.running = false → t.mode ≠ .done → t.mode ≠ .error → step (s.offerMore m p) = step (t.offerMore m p).resume)
        := by
  have hok : s.status = .ok := by
    have h1 := hI.status.1 hr
    have := hI.status.2; cases hm : s.mode <;> simp_all
  have hst := hI.status.1 hr
  rcases step_running hr h with ⟨hm, u, hf, ⟨k, hu⟩, rfl⟩ | ⟨hre, w, u, i, f, hf, ⟨k, hu⟩, hd, hfm, hw, hi,
      he⟩ | ⟨hm, h0, rfl⟩ | ⟨hm, h0, hw, rfl⟩ | ⟨hm, h0, hd, hc, b, hb, rfl⟩ | ⟨hm, rfl⟩ | ⟨hm, rfl⟩
  · refine ⟨by simp, fun _ _ _ => ?_⟩
    have hrt := State.readsTo.same hu.1
    have e : (({ u with status := .ok, running := false } : State).offerMore m p).resume = u.offerMore m p := by
      have e1 : u.status = .ok := by rw [hrt.2.2.2.2.2.1, hok]
      have e2 : u.running = true := by rw [hrt.2.2.2.2.2.2.1, hr]
      unfold State.offerMore State.resume; simp only; rw [← e1, ← e2]
    have hur : u.running = true := by rw [hrt.2.2.2.2.2.2.1, hr]
    have hum : u.mode.readsElement = true := by rw [hrt.1, hm]
    rw [e, step_element (s := s.offerMore m p) hr hm, step_element (s := u.offerMore m p) hur hum,
      (fetch_more (m := m) (p := p) hI).2 u hf]
  · have hx := (fetch_more (m := m) (p := p) hI).1 w u hf
    refine ⟨fun _ => ?_, fun htr h1 h2 => ?_⟩
    · rw [step_element (s := s.offerMore m p) hr hre, hx]
      simp only [runFetched, runWord, hd]
      by_cases hs : ∃ b, i = .storedData b
      · obtain ⟨b, rfl⟩ := hs
        have := withOutput_stored (u.offerMore m p).cur u.outMem b u
        rw [he] at this
        have ht := (exec_element hi he).2
        rcases ht with ⟨b', hb', -, ht⟩ | ⟨hne, -⟩
        · simp only [Instr.storedData.injEq] at hb'; subst hb'
          show exec _ (withOutput (u.offerMore m p).cur u.outMem u) = _
          rw [this]; simp only [mapNext, Host.Outcome.next.injEq]
          have e1 : t.cur = u.cur.produce u.params := by rw [ht]; rfl
          have h0 : u.cur.availOut ≠ 0 := by
            rw [hu.cur_eq]; exact storedData_availOut hf hfm hw hd
          have e2 : t.outMem = Memory.write u.outMem u.cur.nextOut b := by rw [ht]; rfl
          simp only [withOutput, State.offerMore, e1, Cursors.produce, Nat.sub_add_comm (Nat.one_le_iff_ne_zero.2 h0)]
          rw [← e2]
        · exact absurd rfl (hne b)
      · have hs : ∀ b, i ≠ .storedData b := fun b hb => hs ⟨b, hb⟩
        have := withOutput_exec (u.offerMore m p).cur u.outMem i u hi hs
        rw [he] at this
        have ht := (exec_element hi he).2
        rcases ht with ⟨b', hb', -, ht⟩ | ⟨hne, ht, -⟩
        · exact absurd hb' (hs b')
        · show exec _ (withOutput (u.offerMore m p).cur u.outMem u) = _
          rw [this]; simp only [mapNext, Host.Outcome.next.injEq]
          have e1 : t.cur = u.cur := by rw [ht]
          have e2 : t.outMem = u.outMem := by rw [ht]
          simp only [withOutput, State.offerMore, e1]
          rw [← e2]
    · have hur : u.running = s.running := by rw [hu.1]
      cases (exec_element hi he).1 with
      | goesOn hh => rw [htr, hur, hr] at hh; simp at hh
      | finished _ hh => exact absurd hh h1
      | raised _ hh => exact absurd hh h2
  · refine ⟨by simp, fun _ _ _ => ?_⟩
    have e : (({ s with status := .ok, running := false } : State).offerMore m p).resume = s.offerMore m p := by
      unfold State.offerMore State.resume; simp only; rw [← hok, ← hr]
    rw [e]
  · refine ⟨fun _ => ?_, fun h' => by rw [show ({ (emit s.scratch.litVal.val s) with mode := .llSym } :
        State).running = s.running from rfl, hr] at h'; simp at h'⟩
    rw [step_litEmit (s := s.offerMore m p) hr hm, stepLitEmit, if_neg (more_out_ne h0),
        readReg_written _ _ _ (show (s.offerMore m p).scratch.litVal.written = true from hw), more_emit h0]; rfl
  · refine ⟨fun _ => ?_, fun h' => by have : s.running = false := h'; rw [hr] at this; simp at this⟩
    have hb' : winBack s.scratch.dist.val.toNat (s.offerMore m p) = .ok b := hb
    rw [step_copy (s := s.offerMore m p) hr hm, stepCopy, if_neg (more_out_ne h0),
        readReg_written _ _ _ (show (s.offerMore m p).scratch.dist.written = true from hd),
        readReg_written _ _ _ (show (s.offerMore m p).scratch.copyRemain.written = true from hc)]
    have e : (s.offerMore m p).scratch = s.scratch := rfl
    simp only [e, hb', more_emit h0]; rfl
  · exact absurd hm hst.2.1
  · exact absurd hm hst.2.2

end Sys2Proof.Machine
end

