-- ==== Sys2Proof/Laws/PerInstr.lean ====
section
/-! SUPPORT. PerInstr: for each instruction, that the word its encoding gives fits its format: no bit of an operand falls
outside the field the encoding of `30_encoding.md` has for it. -/

namespace Sys2Proof.Laws.EncodedFits

/-- The word of a well-formed instruction is a value that fits its format, the outcome INVALID of a symbol format, or a
host command. -/
def Statement (i : Instr) : Prop :=
  i.wf = true → (∃ f v, encode i = .field f v ∧ v < 2 ^ f.width) ∨
    (∃ f, encode i = .noMatch f ∧ (f = .clsym ∨ f = .llsym ∨ f = .dsym)) ∨ ∃ p, encode i = .host p

/-- The first alternative. -/
theorem of_field {i : Instr} {f : Format} {v : Nat} (h : encode i = .field f v) (hv : v < 2 ^ f.width) : Statement i :=
  fun _ => .inl ⟨f, v, h, hv⟩

/-- A bit-vector operand that is the whole field. -/
theorem of_bits {i : Instr} {n : Nat} {x : BitVec n} {f : Format} (h : encode i = .field f x.toNat) (hn : n ≤ f.width) :
    Statement i :=
  of_field h (x.isLt.trans_le (Nat.pow_le_pow_right (by decide) hn))

/-- A dynamic header. -/
theorem of_counts {i : Instr} {a b : BitVec 5} {c : BitVec 4} (h : encode i = .field .dynhdr14 (encodeDynhdr14 a b c)) :
    Statement i := by
  refine of_field h ?_
  have h1 := a.isLt
  have h2 := b.isLt
  have h3 := c.isLt
  simp only [encodeDynhdr14, Format.width]
  omega

theorem blockStored (last : Bool) : Statement (.blockStored last) := by cases last <;> exact of_field rfl (by decide)

theorem blockFixed (last : Bool) : Statement (.blockFixed last) := by cases last <;> exact of_field rfl (by decide)

theorem blockDynamic (last : Bool) : Statement (.blockDynamic last) := by cases last <;> exact of_field rfl (by decide)

theorem blockReserved (last : Bool) : Statement (.blockReserved last) := by cases last <;> exact of_field rfl (by decide)

theorem storedLen (len nlen : BitVec 16) : Statement (.storedLen len nlen) := by
  refine of_field rfl ?_
  have h1 := len.isLt
  have h2 := nlen.isLt
  simp only [Format.width]
  omega

theorem storedData (b : Byte) : Statement (.storedData b) := of_bits rfl (by decide)

theorem dynHeader (hlit5 hdist5 : BitVec 5) (hclen4 : BitVec 4) : Statement (.dynHeader hlit5 hdist5 hclen4) := of_counts rfl

theorem dynHeaderTooManyHlit (hlit5 hdist5 : BitVec 5) (hclen4 : BitVec 4) : Statement (.dynHeaderTooManyHlit hlit5 hdist5 hclen4) := of_counts rfl

theorem dynHeaderTooManyHdist (hlit5 hdist5 : BitVec 5) (hclen4 : BitVec 4) : Statement (.dynHeaderTooManyHdist hlit5 hdist5 hclen4) := of_counts rfl

theorem clcEntry (len : BitVec 3) : Statement (.clcEntry len) := of_bits rfl (by decide)

theorem clLen (len : BitVec 4) : Statement (.clLen len) := of_bits rfl (by decide)

theorem clRepeatPrev : Statement .clRepeatPrev := of_field rfl (by decide)

theorem clRepeatZeroShort : Statement .clRepeatZeroShort := of_field rfl (by decide)

theorem clRepeatZeroLong : Statement .clRepeatZeroLong := of_field rfl (by decide)

theorem cl16Extra (x : BitVec 2) : Statement (.cl16Extra x) := of_bits rfl (by decide)

theorem cl17Extra (x : BitVec 3) : Statement (.cl17Extra x) := of_bits rfl (by decide)

theorem cl18Extra (x : BitVec 7) : Statement (.cl18Extra x) := of_bits rfl (by decide)

theorem lit (b : Byte) : Statement (.lit b) := of_bits rfl (by decide)

theorem eob : Statement .eob := of_field rfl (by decide)

theorem len257 : Statement .len257 := of_field rfl (by decide)

theorem len258 : Statement .len258 := of_field rfl (by decide)

theorem len259 : Statement .len259 := of_field rfl (by decide)

theorem len260 : Statement .len260 := of_field rfl (by decide)

theorem len261 : Statement .len261 := of_field rfl (by decide)

theorem len262 : Statement .len262 := of_field rfl (by decide)

theorem len263 : Statement .len263 := of_field rfl (by decide)

theorem len264 : Statement .len264 := of_field rfl (by decide)

theorem len265 : Statement .len265 := of_field rfl (by decide)

theorem len266 : Statement .len266 := of_field rfl (by decide)

theorem len267 : Statement .len267 := of_field rfl (by decide)

theorem len268 : Statement .len268 := of_field rfl (by decide)

theorem len269 : Statement .len269 := of_field rfl (by decide)

theorem len270 : Statement .len270 := of_field rfl (by decide)

theorem len271 : Statement .len271 := of_field rfl (by decide)

theorem len272 : Statement .len272 := of_field rfl (by decide)

theorem len273 : Statement .len273 := of_field rfl (by decide)

theorem len274 : Statement .len274 := of_field rfl (by decide)

theorem len275 : Statement .len275 := of_field rfl (by decide)

theorem len276 : Statement .len276 := of_field rfl (by decide)

theorem len277 : Statement .len277 := of_field rfl (by decide)

theorem len278 : Statement .len278 := of_field rfl (by decide)

theorem len279 : Statement .len279 := of_field rfl (by decide)

theorem len280 : Statement .len280 := of_field rfl (by decide)

theorem len281 : Statement .len281 := of_field rfl (by decide)

theorem len282 : Statement .len282 := of_field rfl (by decide)

theorem len283 : Statement .len283 := of_field rfl (by decide)

theorem len284 : Statement .len284 := of_field rfl (by decide)

theorem len285 : Statement .len285 := of_field rfl (by decide)

theorem llInvalid286 : Statement .llInvalid286 := of_field rfl (by decide)

theorem llInvalid287 : Statement .llInvalid287 := of_field rfl (by decide)

theorem llNoMatch : Statement .llNoMatch := fun _ => .inr (.inl ⟨_, rfl, by decide⟩)

theorem lenExtra (n : Nat) (x : BitVec 5) : Statement (.lenExtra n x) := by
  intro h
  simp only [Instr.wf, Bool.and_eq_true, decide_eq_true_eq] at h
  exact of_field rfl h.2 (by simpa [Instr.wf] using h)

theorem dist0 : Statement .dist0 := of_field rfl (by decide)

theorem dist1 : Statement .dist1 := of_field rfl (by decide)

theorem dist2 : Statement .dist2 := of_field rfl (by decide)

theorem dist3 : Statement .dist3 := of_field rfl (by decide)

theorem dist4 : Statement .dist4 := of_field rfl (by decide)

theorem dist5 : Statement .dist5 := of_field rfl (by decide)

theorem dist6 : Statement .dist6 := of_field rfl (by decide)

theorem dist7 : Statement .dist7 := of_field rfl (by decide)

theorem dist8 : Statement .dist8 := of_field rfl (by decide)

theorem dist9 : Statement .dist9 := of_field rfl (by decide)

theorem dist10 : Statement .dist10 := of_field rfl (by decide)

theorem dist11 : Statement .dist11 := of_field rfl (by decide)

theorem dist12 : Statement .dist12 := of_field rfl (by decide)

theorem dist13 : Statement .dist13 := of_field rfl (by decide)

theorem dist14 : Statement .dist14 := of_field rfl (by decide)

theorem dist15 : Statement .dist15 := of_field rfl (by decide)

theorem dist16 : Statement .dist16 := of_field rfl (by decide)

theorem dist17 : Statement .dist17 := of_field rfl (by decide)

theorem dist18 : Statement .dist18 := of_field rfl (by decide)

theorem dist19 : Statement .dist19 := of_field rfl (by decide)

theorem dist20 : Statement .dist20 := of_field rfl (by decide)

theorem dist21 : Statement .dist21 := of_field rfl (by decide)

theorem dist22 : Statement .dist22 := of_field rfl (by decide)

theorem dist23 : Statement .dist23 := of_field rfl (by decide)

theorem dist24 : Statement .dist24 := of_field rfl (by decide)

theorem dist25 : Statement .dist25 := of_field rfl (by decide)

theorem dist26 : Statement .dist26 := of_field rfl (by decide)

theorem dist27 : Statement .dist27 := of_field rfl (by decide)

theorem dist28 : Statement .dist28 := of_field rfl (by decide)

theorem dist29 : Statement .dist29 := of_field rfl (by decide)

theorem dInvalid30 : Statement .dInvalid30 := of_field rfl (by decide)

theorem dInvalid31 : Statement .dInvalid31 := of_field rfl (by decide)

theorem dNoMatch : Statement .dNoMatch := fun _ => .inr (.inl ⟨_, rfl, by decide⟩)

theorem distExtra (n : Nat) (x : BitVec 13) : Statement (.distExtra n x) := by
  intro h
  simp only [Instr.wf, Bool.and_eq_true, decide_eq_true_eq] at h
  exact of_field rfl h.2 (by simpa [Instr.wf] using h)

theorem clNoMatch : Statement .clNoMatch := fun _ => .inr (.inl ⟨_, rfl, by decide⟩)

theorem init (wb : Nat) : Statement (.init wb) := fun _ => .inr (.inr ⟨_, rfl⟩)

theorem reset (keep : Bool) : Statement (.reset keep) := fun _ => .inr (.inr ⟨_, rfl⟩)

theorem decode (args : DecodeArgs) : Statement (.decode args) := fun _ => .inr (.inr ⟨_, rfl⟩)

theorem hostcmdReserved (code : Byte) : Statement (.hostcmdReserved code) := fun _ => .inr (.inr ⟨_, rfl⟩)

end Sys2Proof.Laws.EncodedFits
end

