-- ==== Sys2Proof/Tests/Slice0.lean ====
section
/-! SUPPORT. Slice0: the model's own tests. Expected results come from the spec: words written out from the encodings of
`30_encoding.md`, the vectors of `95_test_vectors.md`, and hand calculation from the rules. The second half shows, for
each obligation with hypotheses, concrete inputs that meet them, for each clause at a boundary value. -/

namespace Sys2Proof.Tests

open Sys2Proof Sys2Proof.Machine

/-! ### Small states -/

/-- Whether a result is a next state of which `p` holds. -/
def nextIs (r : Result) (p : State → Bool) : Bool :=
  match r with
  | .next t => p t
  | .fault _ => false
  | .refused _ => false

/-- Whether a result is the fault `f`. -/
def faultIs (r : Result) (f : Fault) : Bool :=
  match r with
  | .fault g => g == f
  | .next _ => false
  | .refused _ => false

/-- The machine inside a DECODE that offers the bytes `bs` and `room` bytes of output space. -/
def offering (m : Mode) (bs : List Byte) (room : Nat) (r : Scratch) : State :=
  { State.reset with
    constructed := true, running := true, mode := m, scratch := r, inMem := .ofBytes bs
    cur := ⟨0, lowBits 64 bs.length, 0, 0, lowBits 64 room, 0⟩ }

/-- Scratch registers inside a fixed block. -/
def fixedBlock : Scratch := { Scratch.reset with last := .put true, tableSel := .put .fixed }

/-- Scratch registers after `n` code lengths of 257 + 1 are decoded, all of length `l`, with the code-length code of
vector TB-3 but for symbols 0 and 18 of length 1. -/
def lensRead (n : Nat) (l : BitVec 4) : Scratch :=
  { Scratch.reset with
    last := .put true, hlit := .put 257, hdist := .put 1, hclen := .put 19
    tblCL := .put ⟨[1] ++ List.replicate 17 0 ++ [1]⟩
    lens := .put (Vector.replicate 316 l), lensIndex := .put (BitVec.ofNat 9 n) }

/-! ### WellFormed refuses ill-formed terms -/

theorem test_wf_dynHeader : (Instr.dynHeader 30 0 0).wf = false ∧ (Instr.dynHeader 0 30 0).wf = false ∧
    (Instr.dynHeader 29 29 15).wf = true := by decide

theorem test_wf_tooManyHlit : (Instr.dynHeaderTooManyHlit 29 0 0).wf = false ∧
    (Instr.dynHeaderTooManyHlit 30 31 0).wf = true := by decide

theorem test_wf_tooManyHdist : (Instr.dynHeaderTooManyHdist 0 29 0).wf = false ∧
    (Instr.dynHeaderTooManyHdist 30 30 0).wf = false ∧ (Instr.dynHeaderTooManyHdist 29 30 0).wf = true := by decide

theorem test_wf_lenExtra : (Instr.lenExtra 6 0).wf = false ∧ (Instr.lenExtra 1 2).wf = false ∧
    (Instr.lenExtra 5 31).wf = true ∧ (Instr.lenExtra 0 0).wf = true := by decide

theorem test_wf_distExtra : (Instr.distExtra 14 0).wf = false ∧ (Instr.distExtra 3 8).wf = false ∧
    (Instr.distExtra 13 8191).wf = true := by decide

theorem test_wf_hostcmdReserved : (Instr.hostcmdReserved 2).wf = false ∧ (Instr.hostcmdReserved 3).wf = true ∧
    (Instr.hostcmdReserved 255).wf = true := by decide

/-! ### Decoding: a word of every constructor, from the encodings of `30_encoding.md` -/

/-- R93: bit 0 is `BFINAL`, bits 2..1 are `BTYPE`. -/
theorem test_decode_headers : decode (.field .hdr3 0b000) = .ok (.blockStored false) ∧
    decode (.field .hdr3 0b011) = .ok (.blockFixed true) ∧ decode (.field .hdr3 0b100) = .ok (.blockDynamic false) ∧
    decode (.field .hdr3 0b110) = .ok (.blockReserved false) ∧
    decode (.field .hdr3 8) = .error (.valueTooWide .hdr3 8) := by decide

/-- R94 and R95, with the word of vector BR-3. -/
theorem test_decode_stored : decode (.field .stored32 0xFFFA0005) = .ok (.storedLen 0x0005 0xFFFA) ∧
    decode (.field .storedData 0xFF) = .ok (.storedData 0xFF) := by decide

/-- R96, R107, with the counts of vectors DH-1 and DH-2. -/
theorem test_decode_dynHeader : decode (.field .dynhdr14 0b11101110111101) = .ok (.dynHeader 29 29 14) ∧
    decode (.field .dynhdr14 0b00000000011110) = .ok (.dynHeaderTooManyHlit 30 0 0) ∧
    decode (.field .dynhdr14 0b00001111000000) = .ok (.dynHeaderTooManyHdist 0 30 0) ∧
    decode (.field .clc3 0b111) = .ok (.clcEntry 7) := by decide

/-- R98, R206: the code-length symbols and the extra bits of the repeats. -/
theorem test_decode_codeLength : decode (.field .clsym 0) = .ok (.clLen 0) ∧
    decode (.field .clsym 16) = .ok .clRepeatPrev ∧ decode (.field .clsym 17) = .ok .clRepeatZeroShort ∧
    decode (.field .clsym 18) = .ok .clRepeatZeroLong ∧ decode (.noMatch .clsym) = .ok .clNoMatch ∧
    decode (.field .clExtra16 0b11) = .ok (.cl16Extra 3) ∧ decode (.field .clExtra17 0b111) = .ok (.cl17Extra 7) ∧
    decode (.field .clExtra18 0b1111111) = .ok (.cl18Extra 127) ∧
    decode (.field .clsym 19) = .error (.noSuchSymbol .clsym 19) := by decide

/-- R99: the literals, the end of block, and the symbols without a meaning (R104). -/
theorem test_decode_literals : decode (.field .llsym 97) = .ok (.lit 0x61) ∧
    decode (.field .llsym 256) = .ok .eob ∧ decode (.field .llsym 286) = .ok .llInvalid286 ∧
    decode (.field .llsym 287) = .ok .llInvalid287 ∧ decode (.noMatch .llsym) = .ok .llNoMatch ∧
    decode (.field .llsym 288) = .error (.noSuchSymbol .llsym 288) := by decide

/-- R99: the length symbols 257..285, in order. -/
theorem test_decode_lengths : decode (.field .llsym 257) = .ok .len257 ∧
    decode (.field .llsym 258) = .ok .len258 ∧
    decode (.field .llsym 259) = .ok .len259 ∧
    decode (.field .llsym 260) = .ok .len260 ∧
    decode (.field .llsym 261) = .ok .len261 ∧
    decode (.field .llsym 262) = .ok .len262 ∧
    decode (.field .llsym 263) = .ok .len263 ∧
    decode (.field .llsym 264) = .ok .len264 ∧
    decode (.field .llsym 265) = .ok .len265 ∧
    decode (.field .llsym 266) = .ok .len266 := by decide

theorem test_decode_lengths_middle : decode (.field .llsym 267) = .ok .len267 ∧
    decode (.field .llsym 268) = .ok .len268 ∧
    decode (.field .llsym 269) = .ok .len269 ∧
    decode (.field .llsym 270) = .ok .len270 ∧
    decode (.field .llsym 271) = .ok .len271 ∧
    decode (.field .llsym 272) = .ok .len272 ∧
    decode (.field .llsym 273) = .ok .len273 ∧
    decode (.field .llsym 274) = .ok .len274 ∧
    decode (.field .llsym 275) = .ok .len275 ∧
    decode (.field .llsym 276) = .ok .len276 := by decide

theorem test_decode_lengths_upper : decode (.field .llsym 277) = .ok .len277 ∧
    decode (.field .llsym 278) = .ok .len278 ∧
    decode (.field .llsym 279) = .ok .len279 ∧
    decode (.field .llsym 280) = .ok .len280 ∧
    decode (.field .llsym 281) = .ok .len281 ∧
    decode (.field .llsym 282) = .ok .len282 ∧
    decode (.field .llsym 283) = .ok .len283 ∧
    decode (.field .llsym 284) = .ok .len284 ∧
    decode (.field .llsym 285) = .ok .len285 := by decide

/-- R100: the distance symbols 0..29, in order, and those without a meaning (R105). -/
theorem test_decode_distances : decode (.field .dsym 0) = .ok .dist0 ∧
    decode (.field .dsym 1) = .ok .dist1 ∧
    decode (.field .dsym 2) = .ok .dist2 ∧
    decode (.field .dsym 3) = .ok .dist3 ∧
    decode (.field .dsym 4) = .ok .dist4 ∧
    decode (.field .dsym 5) = .ok .dist5 ∧
    decode (.field .dsym 6) = .ok .dist6 ∧
    decode (.field .dsym 7) = .ok .dist7 ∧
    decode (.field .dsym 8) = .ok .dist8 ∧
    decode (.field .dsym 9) = .ok .dist9 := by decide

theorem test_decode_distances_middle : decode (.field .dsym 10) = .ok .dist10 ∧
    decode (.field .dsym 11) = .ok .dist11 ∧
    decode (.field .dsym 12) = .ok .dist12 ∧
    decode (.field .dsym 13) = .ok .dist13 ∧
    decode (.field .dsym 14) = .ok .dist14 ∧
    decode (.field .dsym 15) = .ok .dist15 ∧
    decode (.field .dsym 16) = .ok .dist16 ∧
    decode (.field .dsym 17) = .ok .dist17 ∧
    decode (.field .dsym 18) = .ok .dist18 ∧
    decode (.field .dsym 19) = .ok .dist19 := by decide

theorem test_decode_distances_upper : decode (.field .dsym 20) = .ok .dist20 ∧
    decode (.field .dsym 21) = .ok .dist21 ∧
    decode (.field .dsym 22) = .ok .dist22 ∧
    decode (.field .dsym 23) = .ok .dist23 ∧
    decode (.field .dsym 24) = .ok .dist24 ∧
    decode (.field .dsym 25) = .ok .dist25 ∧
    decode (.field .dsym 26) = .ok .dist26 ∧
    decode (.field .dsym 27) = .ok .dist27 ∧
    decode (.field .dsym 28) = .ok .dist28 ∧
    decode (.field .dsym 29) = .ok .dist29 := by decide

theorem test_decode_distances_without_meaning : decode (.field .dsym 30) = .ok .dInvalid30 ∧
    decode (.field .dsym 31) = .ok .dInvalid31 ∧ decode (.noMatch .dsym) = .ok .dNoMatch := by decide

/-- R91, R99, R100: the extra bits of a length and of a distance. -/
theorem test_decode_extra : decode (.field (.lenExtra 5) 0b11111) = .ok (.lenExtra 5 31) ∧
    decode (.field (.lenExtra 6) 0) = .error (.valueTooWide (.lenExtra 6) 0) ∧
    decode (.field (.distExtra 13) 8191) = .ok (.distExtra 13 8191) ∧
    decode (.field (.distExtra 1) 2) = .error (.valueTooWide (.distExtra 1) 2) := by decide

/-- R280: the host commands by code. -/
theorem test_decode_host : decode (.host ⟨0, 15, false, DecodeArgs.none⟩) = .ok (.init 15) ∧
    decode (.host ⟨1, 0, true, DecodeArgs.none⟩) = .ok (.reset true) ∧
    decode (.host ⟨2, 0, false, DecodeArgs.none⟩) = .ok (.decode DecodeArgs.none) ∧
    decode (.host ⟨3, 0, false, DecodeArgs.none⟩) = .ok (.hostcmdReserved 3) ∧
    decode (.host ⟨255, 0, false, DecodeArgs.none⟩) = .ok (.hostcmdReserved 255) := by decide

/-- Words numbered as `spec/opcode_table.json` numbers them: the row with the most fixed bits (log entry 9). -/
theorem test_decodeTableWord : decodeTableWord 8 6 = some .dist6 ∧ decodeTableWord 8 2 = some (.decode DecodeArgs.none) ∧
    decodeTableWord 16 256 = some .eob ∧ decodeTableWord 16 285 = some .len285 ∧
    decodeTableWord 8 17 = some .clRepeatZeroShort ∧ decodeTableWord 8 15 = some .dist15 ∧
    decodeTableWord 16 29 = some .dist29 ∧ decodeTableWord 8 31 = some .dInvalid31 ∧
    decodeTableWord 32 0xFFFA0005 = some (.storedLen 0x0005 0xFFFA) := by decide

/-- Right after power-on, a placed word is fetched and run by the very next step (log entry 9). -/
theorem test_withFetchWord : nextIs (step (State.reset.withFetchWord 8 31)) (fun t =>
      t.mode == .error && t.status == .fault .invalidDistCode) ∧
    nextIs (step (State.reset.withFetchWord 16 256)) (fun t => t.mode == .header) ∧
    nextIs (step (State.reset.withFetchWord 16 285)) (fun t => t.scratch.length == .put 258) ∧
    nextIs (step (State.reset.withFetchWord 8 5)) (fun t => t.scratch.dist == .put 7) := by
  decide +kernel

/-! ### The order of bits -/

/-- Program P2 of `95_test_vectors.md`, bit by bit: the elements give the bytes `4B 4C 4A 06 22 00` (R63, R91, R92). -/
theorem test_streamBytes_P2 : streamBytes ⟨placedCL, fixedLL, fixedD⟩
      ([.field .hdr3 0b011] ++ bytesWords [0x61, 0x62, 0x63] ++ matchWords 3 3 ++ [.field .llsym 256]) =
    [0x4B, 0x4C, 0x4A, 0x06, 0x22, 0x00] := by decide +kernel

/-- Vector BR-1: after `4B` is pulled, `read(1)` and `read(2)` are both 1, and `BITBUF` is `0x09`. -/
theorem test_readBits : (pull (offering .header [0x4B] 0 .reset)).bind (fun s => (readBits 1 s).bind fun p =>
      (readBits 2 p.2).bind fun q => .ok (p.1, q.1, q.2.acc.buf, q.2.acc.cnt)) = .ok (1, 1, 0x09, 5) := by decide

/-- Vector BR-2: with `BITBUF = 0x09` and 5 bits held, the byte `4C` completes the codeword of 'a'. -/
theorem test_decodeSym : (match fetch { offering .llSym [0x4C] 0 fixedBlock with acc := ⟨0x09, 5⟩ } with
    | .word w t => w == .field .llsym 97 && t.acc == ⟨0x09, 5⟩ && t.cur == ⟨1, 0, 1, 0, 0, 0⟩
    | .suspend _ => false
    | .stop _ => false) = true := by decide +kernel

/-- Vector BR-4: two bytes of a stored length are kept and the DECODE suspends. -/
theorem test_storedLen_suspends : nextIs (step (offering .storedLen [0x05, 0x00] 0 { Scratch.reset with last := .put true }))
    (fun t => t.acc == ⟨0x0005, 16⟩ && t.mode == .storedLen && t.status == .ok && t.cur.totalIn == 2 && !t.running) := by
  decide

/-! ### BUILD: vectors TB-1 to TB-12 -/

theorem test_build_accepted : build .ll [1, 1] = .ok ⟨[1, 1]⟩ ∧ build .cl [1] = .ok ⟨[1]⟩ ∧
    build .cl (List.replicate 18 0 ++ [7]) = .ok ⟨List.replicate 18 0 ++ [7]⟩ ∧
    build .ll [1, 2, 3, 4, 5, 6, 7, 8, 9, 10, 11, 12, 13, 14, 15, 15] =
      .ok ⟨[1, 2, 3, 4, 5, 6, 7, 8, 9, 10, 11, 12, 13, 14, 15, 15]⟩ := by decide +kernel

theorem test_build_refused : build .d [1] = .error .incompleteLengths ∧ build .ll [0, 0, 0] = .error .incompleteLengths ∧
    build .cl (List.replicate 19 0) = .error .incompleteLengths ∧
    build .ll [1, 1, 1] = .error .overSubscribedLengths ∧ build .ll [2, 2, 2] = .error .incompleteLengths ∧
    build .cl [2, 2, 2] = .error .incompleteLengths ∧
    build .ll [1, 2, 3, 4, 5, 6, 7, 8, 9, 10, 11, 12, 13, 14, 15] = .error .incompleteLengths := by decide +kernel

/-- Vector TB-12. -/
theorem test_codes_TB12 : (Table.mk [3, 3, 3, 3, 3, 2, 4, 4]).codes = [(3, 0b010), (3, 0b011), (3, 0b100), (3, 0b101),
    (3, 0b110), (2, 0b00), (4, 0b1110), (4, 0b1111)] := by decide

/-! ### One step of each kind -/

/-- Step 1 of program P2: the header `011` leaves 5 bits, `BITBUF = 0x09`. -/
theorem test_blockFixed : nextIs (step (offering .header [0x4B] 0 .reset)) (fun t =>
    t.mode == .llSym && t.acc == ⟨0x09, 5⟩ && t.scratch.last == .put true && t.scratch.tableSel == .put .fixed) := by
  decide

/-- Step 1 of program P1: the header `001` drops the 5 bits of padding. -/
theorem test_blockStored : nextIs (step (offering .header [0x01] 0 .reset)) (fun t =>
    t.mode == .storedLen && t.acc == ⟨0, 0⟩ && t.scratch.last == .put true) := by decide

/-- The header of vector DH-4. -/
theorem test_blockDynamic : nextIs (step (offering .header [0x05] 0 .reset)) (fun t =>
    t.mode == .dynCounts && t.acc == ⟨0, 5⟩) := by decide

/-- Vector HS-2: the fault does not depend on `LAST`. -/
theorem test_blockReserved : nextIs (step (offering .header [0x06] 0 .reset)) (fun t =>
    t.mode == .error && t.status == .fault .invalidBlockType && t.acc.cnt == 5 && t.scratch.last == .put false) := by
  decide

/-- Vectors HS-3 and HS-4. -/
theorem test_storedLen : nextIs (exec (.storedLen 0x0005 0xFFFE) State.reset) (fun t =>
      t.status == .fault .invalidStoredBlockLengths && t.mode == .error) ∧
    nextIs (exec (.storedLen 0x0000 0xFFFF) { State.reset with scratch := fixedBlock }) (fun t =>
      t.status == .endOfStream && t.mode == .done) := by decide

/-- The last step of program P1: the last payload byte ends the stream. -/
theorem test_storedData : nextIs (step (offering .storedCopy [0x6F] 60
      { Scratch.reset with last := .put true, storedRemain := .put 1 })) (fun t =>
    t.mode == .done && t.status == .endOfStream && t.outMem == [(0, 0x6F)] && t.win.mem == [(0, 0x6F)] &&
      t.win.size == 1 && t.cur == ⟨1, 0, 1, 1, 59, 1⟩) := by decide

/-- Vectors DH-1, DH-2 and the highest legal counts of DH-3. -/
theorem test_dynCounts : nextIs (exec (.dynHeaderTooManyHlit 30 0 0) State.reset) (fun t =>
      t.status == .fault .tooManySymbols && t.scratch.hlit == .put 287) ∧
    nextIs (exec (.dynHeaderTooManyHdist 0 30 0) State.reset) (fun t =>
      t.status == .fault .tooManySymbols && t.scratch.hdist == .put 31) ∧
    nextIs (exec (.dynHeader 29 29 15) State.reset) (fun t => t.mode == .dynClc && t.scratch.hlit == .put 286 &&
      t.scratch.hdist == .put 30 && t.scratch.hclen == .put 19 && t.scratch.clcIndex == .put 0) := by decide

/-- The first code-length-code length is that of symbol 16 (R97), and the last one builds the table: vector L1-5. -/
theorem test_clcEntry : nextIs (exec (.clcEntry 2) { State.reset with scratch := { Scratch.reset with
        hclen := .put 4, clcIndex := .put 0, clcLens := .put (Vector.replicate 19 0) } }) (fun t =>
      t.mode == .dynClc && t.scratch.clcIndex == .put 1 &&
        t.scratch.clcLens == .put ((Vector.replicate 19 0).setIfInBounds 16 2)) ∧
    nextIs (exec (.clcEntry 1) { State.reset with scratch := { Scratch.reset with
        hclen := .put 4, clcIndex := .put 3
        clcLens := .put ((((Vector.replicate 19 0).setIfInBounds 16 1).setIfInBounds 17 1).setIfInBounds 18 1) } })
      (fun t => t.status == .fault .overSubscribedLengths && t.mode == .error) := by decide +kernel

/-- Vector DH-7: a repeat of the previous length with no length before it. -/
theorem test_clRepeatPrev : nextIs (exec .clRepeatPrev { State.reset with scratch := lensRead 0 0 }) (fun t =>
      t.status == .fault .invalidBitLengthRepeat) ∧
    nextIs (exec .clRepeatPrev { State.reset with scratch := lensRead 1 0 }) (fun t =>
      t.mode == .dynRepeat && t.scratch.repSym == .put 16) := by decide +kernel

/-- R205: the symbols 17 and 18 wait for their extra bits. -/
theorem test_clRepeatZero : nextIs (exec .clRepeatZeroShort State.reset) (fun t => t.scratch.repSym == .put 17) ∧
    nextIs (exec .clRepeatZeroLong State.reset) (fun t => t.scratch.repSym == .put 18 && t.mode == .dynRepeat) := by decide

/-- R203, R206: one length appended, and three copies of the length before. -/
theorem test_clLen : nextIs (exec (.clLen 7) { State.reset with scratch := lensRead 2 5 }) (fun t =>
      t.mode == .dynLens && t.scratch.lensIndex == .put 3 && t.scratch.lens.val[2] == 7 && t.scratch.lens.val[3] == 5) ∧
    nextIs (exec (.cl16Extra 0) { State.reset with scratch := lensRead 2 5 }) (fun t =>
      t.scratch.lensIndex == .put 5 && t.scratch.lens.val[4] == 5) := by decide +kernel

/-- R206: `3 + x` and `11 + x` lengths of 0. -/
theorem test_cl17_cl18_extra : nextIs (exec (.cl17Extra 7) { State.reset with scratch := lensRead 2 5 }) (fun t =>
      t.scratch.lensIndex == .put 12 && t.scratch.lens.val[11] == 0 && t.scratch.lens.val[12] == 5) ∧
    nextIs (exec (.cl18Extra 127) { State.reset with scratch := lensRead 2 5 }) (fun t =>
      t.scratch.lensIndex == .put 140 && t.scratch.lens.val[139] == 0 && t.scratch.lens.val[140] == 5) := by
  decide +kernel

/-- Vector DH-8: 138 + 138 lengths are more than 258. -/
theorem test_cl18_past_end : nextIs (exec (.cl18Extra 127) { State.reset with scratch := lensRead 138 0 }) (fun t =>
    t.status == .fault .invalidBitLengthRepeat && t.scratch.lensIndex == .put 138) := by decide +kernel

/-- The last length runs `FINISH_LENS`: with no code for symbol 256 the fault is `MISSING_EOB` (vector DH-9, D12). -/
theorem test_finishLens : nextIs (exec (.clLen 1) { State.reset with scratch := lensRead 257 0 }) (fun t =>
    t.status == .fault .missingEob && t.mode == .error && t.scratch.tblLL.written == false) := by decide +kernel

/-- Vector L1-3: the symbols and outcomes without a meaning. -/
theorem test_invalid : nextIs (exec .llInvalid286 State.reset) (fun t => t.status == .fault .invalidLenCode) ∧
    nextIs (exec .llInvalid287 State.reset) (fun t => t.status == .fault .invalidLenCode) ∧
    nextIs (exec .dInvalid30 State.reset) (fun t => t.status == .fault .invalidDistCode) ∧
    nextIs (exec .dInvalid31 State.reset) (fun t => t.status == .fault .invalidDistCode) ∧
    nextIs (exec .clNoMatch State.reset) (fun t => t.status == .fault .invalidCodeLengthSymbol) ∧
    nextIs (exec .llNoMatch State.reset) (fun t => t.status == .fault .invalidLenCode) ∧
    nextIs (exec .dNoMatch State.reset) (fun t => t.status == .fault .invalidDistCode) := by decide

/-- Vector HC-4: a literal is decoded ahead of output space and waits for it. -/
theorem test_lit : nextIs (exec (.lit 0x61) State.reset) (fun t => t.mode == .litEmit && t.scratch.litVal == .put 0x61) ∧
    nextIs (step (offering .litEmit [] 0 { fixedBlock with litVal := .put 0x61 })) (fun t =>
      t.mode == .litEmit && t.status == .ok && !t.running) := by decide

/-- Steps 3 and 13 of program P2: a literal is emitted, and the end of the last block ends the stream. -/
theorem test_litEmit_eob : nextIs (step (offering .litEmit [] 64 { fixedBlock with litVal := .put 0x61 })) (fun t =>
      t.mode == .llSym && t.outMem == [(0, 0x61)] && t.cur == ⟨0, 0, 0, 1, 63, 1⟩ && t.win.cursor == 1) ∧
    nextIs (exec .eob (offering .llSym [] 0 fixedBlock)) (fun t => t.mode == .done && t.status == .endOfStream) := by
  decide

/-- R99: base length and extra bits at the ends of the table (vectors SL-5, SL-6, SL-8). -/
theorem test_lengths : nextIs (exec .len257 State.reset) (fun t => t.mode == .distSym && t.scratch.length == .put 3) ∧
    nextIs (exec .len265 State.reset) (fun t => t.mode == .lenExtra && t.scratch.length == .put 11) ∧
    nextIs (exec .len284 State.reset) (fun t => t.mode == .lenExtra && t.scratch.length == .put 227) ∧
    nextIs (exec .len285 State.reset) (fun t => t.mode == .distSym && t.scratch.length == .put 258) ∧
    nextIs (exec (.lenExtra 5 31) { State.reset with scratch := { Scratch.reset with length := .put 227 } }) (fun t =>
      t.mode == .distSym && t.scratch.length == .put 258) := by decide

/-- R100: base distance and extra bits at the ends of the table, and the check of the distance (vectors L1-4, SL-15). -/
theorem test_distances : nextIs (exec .dist3 { State.reset with
        win := ⟨15, [], 0, 4⟩, scratch := { Scratch.reset with length := .put 3 } }) (fun t =>
      t.mode == .copy && t.scratch.dist == .put 4 && t.scratch.copyRemain == .put 3) ∧
    nextIs (exec .dist1 { State.reset with win := ⟨15, [], 0, 1⟩ }) (fun t => t.status == .fault .invalidDistance) ∧
    nextIs (exec .dist29 State.reset) (fun t => t.mode == .distExtra && t.scratch.dist == .put 24577) ∧
    nextIs (exec (.distExtra 13 8191) { State.reset with
        win := ⟨15, [], 0, 32768⟩, scratch := { Scratch.reset with length := .put 3, dist := .put 24577 } }) (fun t =>
      t.mode == .copy && t.scratch.dist == .put 32768) := by decide

/-- Vector SL-11, `W = 1`: each copied byte is read before the write that replaces it. -/
theorem test_copy : nextIs (step { offering .copy [] 8 { fixedBlock with dist := .put 1, copyRemain := .put 3 } with
      win := ⟨0, [(0, 0x62)], 0, 1⟩ }) (fun t =>
    t.mode == .copy && t.outMem == [(0, 0x62)] && t.win == ⟨0, [(0, 0x62)], 0, 1⟩ && t.scratch.copyRemain == .put 2) := by
  decide

/-- Vectors HC-10 and HC-11, and a reserved code (R280). -/
theorem test_host_refusals : exec (.reset true) State.reset = .refused .beforeInit ∧
    exec (.decode DecodeArgs.none) State.reset = .refused .beforeInit ∧
    exec (.init 16) State.reset = .refused (.windowBitsTooLarge 16) ∧
    exec (.hostcmdReserved 3) State.reset = .refused (.reservedCommand 3) := ⟨rfl, rfl, rfl, rfl⟩

/-- Vectors HC-1 and HC-2: in `DONE` and in `ERROR` a DECODE changes only `STATUS`. -/
theorem test_decode_terminal : nextIs (exec (.decode ⟨0, 2, 0, 0, ⟨0, [0x03, 0x00]⟩, ⟨100, []⟩⟩)
        { State.reset with constructed := true, mode := .done, status := .endOfStream }) (fun t =>
      t.status == .endOfStream && t.cur.availIn == 2 && !t.running) ∧
    nextIs (exec (.decode ⟨0, 2, 0, 0, ⟨0, [0x03, 0x00]⟩, ⟨100, []⟩⟩)
        { State.reset with constructed := true, mode := .error, status := .fault .invalidBlockType }) (fun t =>
      t.status == .fault .invalidBlockType && t.cur.availIn == 2 && !t.running) := by decide

/-! ### Other widths -/

/-- A machine of the least legal `CURSOR_BITS`, 16 (R7), one byte before its cursors wrap. -/
def narrow : State :=
  { offering .storedCopy [7] 1 { fixedBlock with storedRemain := .put 2 } with
    params := ⟨0, 0⟩, inMem := [(65535, 7)], cur := ⟨65535, 1, 65535, 65535, 1, 65535⟩ }

/-- R24, R26: the totals count modulo `2^CURSOR_BITS`. R21: `BITPOS` counts modulo `2^(CURSOR_BITS+3)`. -/
theorem test_cursors_wrap : nextIs (step narrow) (fun t => t.cur == ⟨0, 0, 0, 0, 0, 0⟩ && t.outMem == [(65535, 7)]) ∧
    bitPos { narrow with acc := ⟨0, 3⟩ } = 524277 ∧ bitPos { State.reset with acc := ⟨0, 1⟩ } = 2 ^ 67 - 1 := by
  decide

/-- A register takes the low `CURSOR_BITS` bits of what the host sends (log entry 8). -/
theorem test_receivedArgs : nextIs (exec (.decode ⟨65536, 65538, 0, 65536, ⟨0, [7, 8]⟩, ⟨2, []⟩⟩)
    { narrow with mode := .header }) (fun t => t.cur == ⟨0, 2, 65535, 0, 0, 65535⟩) := by decide

/-! ### Where the obligations' hypotheses are met -/

/-- The invariant, for a machine that offers some bytes in one mode with an empty accumulator and a cleared window. -/
theorem offering_inv {m : Mode} {bs : List Byte} {room : Nat} {r : Scratch} (hm : m ≠ .done ∧ m ≠ .error)
    (hr : (offering m bs room r).regsOk) : (offering m bs room r).Inv where
  inMem := Memory.wf_ofBytes bs
  outMem := by simp [offering, State.reset, Memory.wf]
  win := Window.ok_clear ⟨15, [], 0, 0⟩
  acc := ⟨by simp [offering, State.reset], by cases m <;> simp [offering, State.reset, State.heldOk]⟩
  regs := hr
  input := fun _ => offered_all .reference ⟨0, bs.length, 0, 0, ⟨0, bs⟩, ⟨0, []⟩⟩
    ⟨by simp [receivedArgs, lowBits]; exact Nat.mod_le .., by simp [receivedArgs, lowBits]⟩
  status := ⟨fun _ => ⟨rfl, hm.1, hm.2⟩, by cases m <;> first | rfl | simp at hm⟩
  cursors := ⟨Nat.two_pow_pos 64, lowBits_lt _ _, Nat.two_pow_pos 64, Nat.two_pow_pos 64, lowBits_lt _ _,
    Nat.two_pow_pos 64⟩

/-- No offered byte of the input lies where one of the output lies: for the arguments below, whose ranges touch. -/
def touching : DecodeArgs := ⟨1, 2, 1, 2, ⟨0, [7, 8, 9]⟩, ⟨2, [0, 0, 0]⟩⟩

/-- A session between commands. -/
def session (m : Mode) : State := { State.reset with constructed := true, mode := m }

/-- A state in which an error is sticky. -/
def faulted : State := { session .error with status := .fault .invalidBlockType }

theorem witness_DecodeEncode : (Instr.distExtra 13 8191).wf = true ∧ (Instr.hostcmdReserved 3).wf = true := by decide

theorem witness_EncodeDecode :
    (decode (.field .llsym 287) = .ok .llInvalid287 ∧ isElement .llInvalid287 = true) ∧
    (decode (.host ⟨255, 9, true, DecodeArgs.none⟩) = .ok (.hostcmdReserved 255) ∧
      isElement (.hostcmdReserved 255) = false) := by decide

/-- `wb` at both ends of its range, and just above it. -/
theorem witness_InitBuildsSession : nextIs (exec (.init 0) State.reset) (fun t => t.win.capacity == 1) ∧
    nextIs (exec (.init 15) faulted) (fun t => t.win.capacity == 32768 && t.mode == .header) ∧
    exec (.init 16) faulted = .refused (.windowBitsTooLarge 16) := ⟨by decide, by decide, rfl⟩

theorem witness_ResetStartsFreshStream : (session .done).constructed = true ∧
    nextIs (exec (.reset true) { session .done with win := ⟨0, [(0, 1)], 0, 1⟩ }) (fun t => t.win.size == 1) ∧
    nextIs (exec (.reset false) { session .done with win := ⟨0, [(0, 1)], 0, 1⟩ }) (fun t => t.win.size == 0) := by decide

/-- Before INIT; each region one byte short; and ranges with exactly one byte in common. -/
theorem witness_CommandRefusals : State.reset.constructed = false ∧
    (let a := receivedArgs .reference { touching with inRegion := ⟨0, [7, 8]⟩ };
      (session .header).constructed = true ∧ a.inRegion.bytes.length < a.nextIn + a.availIn) ∧
    (let a := receivedArgs .reference { touching with outRegion := ⟨2, [0, 0]⟩ };
      a.outRegion.bytes.length < a.nextOut + a.availOut) ∧
    (let a := receivedArgs .reference { touching with outRegion := ⟨1, [0, 0, 0]⟩ };
      regionsHold a ∧ 1 < a.availIn ∧ 0 < a.availOut ∧
        a.inRegion.base + a.nextIn + 1 = a.outRegion.base + a.nextOut + 0) := by decide

theorem witness_CommandCodes : (0 : Byte) = 0 ∧ 3 ≤ (3 : Byte).toNat ∧ 3 ≤ (255 : Byte).toNat := by decide

theorem touching_received : receivedArgs .reference touching = touching := by decide

theorem touching_disjoint : ¬ ∃ i j : Nat, i < touching.availIn ∧ j < touching.availOut ∧
    touching.inRegion.base + touching.nextIn + i = touching.outRegion.base + touching.nextOut + j := by
  rintro ⟨i, j, hi, hj, h⟩
  simp [touching] at *
  omega

/-- Regions exactly long enough, and ranges that touch without a byte in common. -/
theorem witness_DecodeStartsLoop : (session .header).constructed = true ∧ regionsHold (receivedArgs .reference touching) ∧
    (session .header).mode ≠ .done ∧ (session .header).mode ≠ .error ∧
    nextIs (exec (.decode touching) (session .header)) (fun t => t.running && t.cur.availIn == 2) := by decide

theorem witness_DecodeInTerminalModes : (session .done).constructed = true ∧ regionsHold (receivedArgs .reference touching) ∧
    (session .done).mode = .done ∧ faulted.mode = .error ∧ faulted.constructed = true := by decide

theorem witness_OfferedStream : nextIs (exec (.decode touching) (session .header)) (fun t =>
    t.cur.nextIn + t.cur.availIn ≤ 2 ^ t.params.cursorBits && t.upcoming == fieldBits 8 8 ++ fieldBits 8 9) := by decide

theorem witness_StepRunsDecodedInstruction :
    (∃ t, fetch (offering .header [0x06] 0 .reset) = .word (.field .hdr3 6) t ∧
      decode (.field .hdr3 6) = .ok (.blockReserved false)) ∧
    (∃ t, fetch (offering .header [] 0 .reset) = .suspend t) ∧
    (let s := { session .header with pending := [⟨1, 0, true, DecodeArgs.none⟩, ⟨2, 0, false, touching⟩] };
      s.running = false ∧ s.pending = ⟨1, 0, true, DecodeArgs.none⟩ :: [⟨2, 0, false, touching⟩] ∧
        decode (.host ⟨1, 0, true, DecodeArgs.none⟩) = .ok (.reset true)) ∧
    (session .header).pending = [] :=
  ⟨⟨_, rfl, rfl⟩, ⟨_, rfl⟩, ⟨rfl, rfl, rfl⟩, rfl⟩

theorem storedLen_inv (bs : List Byte) : (offering .storedLen bs 0 { Scratch.reset with last := .put true }).Inv :=
  offering_inv (by simp) rfl

/-- A field of 32 bits with exactly 32 to come, and with 24. -/
theorem witness_FieldElements :
    (let s := offering .storedLen [5, 0, 0xFA, 0xFF] 0 { Scratch.reset with last := .put true };
      s.Inv ∧ s.running = true ∧ s.fieldFormat = some .stored32 ∧ Format.stored32.width ≤ s.upcoming.length) ∧
    (let s := offering .storedLen [5, 0, 0xFA] 0 { Scratch.reset with last := .put true };
      s.Inv ∧ s.running = true ∧ s.fieldFormat = some .stored32 ∧ s.upcoming.length < Format.stored32.width) :=
  ⟨⟨storedLen_inv _, rfl, rfl, by decide⟩, ⟨storedLen_inv _, rfl, rfl, by decide⟩⟩

theorem llSym_inv (bs : List Byte) (room : Nat) : (offering .llSym bs room fixedBlock).Inv :=
  offering_inv (by simp) ⟨rfl, rfl, fun h => by simp [offering, fixedBlock, Scratch.reset] at h⟩

/-- Registers for reading a code-length symbol with a table whose one codeword is `0`. -/
def oneCodeRegs : Scratch :=
  { Scratch.reset with
    last := .put true, hlit := .put 257, hdist := .put 1, tblCL := .put ⟨1 :: List.replicate 18 0⟩
    lens := .put (Vector.replicate 316 0), lensIndex := .put 0 }

/-- A machine that reads a code-length symbol with those registers. -/
def oneCode (bs : List Byte) : State := offering .dynLens bs 0 oneCodeRegs

theorem oneCodeRegs_ok : lensOk oneCodeRegs := by
  refine ⟨rfl, ⟨rfl, rfl, by decide, by decide, by decide, by decide⟩, ⟨rfl, ?_, rfl⟩, rfl, rfl, by decide⟩
  exact (show build .cl (1 :: List.replicate 18 0) = .ok ⟨1 :: List.replicate 18 0⟩ by decide +kernel)

theorem oneCode_inv (bs : List Byte) : (oneCode bs).Inv := offering_inv (by simp) oneCodeRegs_ok

theorem oneCode_bits (sym : Nat) (h : (oneCode []).symbolTable.symbolBits sym ≠ []) :
    (oneCode []).symbolTable.symbolBits sym = [false] := by
  have h0 : (oneCode []).symbolTable.codes = (1, 0) :: List.replicate 18 (0, 0) := by decide
  revert h
  unfold Table.symbolBits
  rw [h0]
  rcases sym with _ | k
  · simp [codewordBits, fieldBits]
  · rw [List.getElem?_cons_succ, List.getElem?_replicate]
    by_cases hk : k < 18
    · rw [if_pos hk]; simp [codewordBits, fieldBits]
    · rw [if_neg hk]; simp

/-- The codeword that the stream goes on with; no codeword with `T.maxlen = 1` bits to come; and none with no bit. -/
theorem witness_SymbolElements :
    (let s := oneCode [0xFE];
      s.Inv ∧ s.running = true ∧ s.symbolFormat = some .clsym ∧ s.symbolTable.symbolBits 0 ≠ [] ∧
        s.symbolTable.symbolBits 0 <+: s.upcoming) ∧
    (let s := oneCode [0xFF];
      s.Inv ∧ s.running = true ∧ s.symbolFormat = some .clsym ∧
        (∀ sym, s.symbolTable.symbolBits sym ≠ [] → ¬ s.symbolTable.symbolBits sym <+: s.upcoming) ∧
        s.symbolTable.maxlen ≤ s.upcoming.length) ∧
    (let s := oneCode [];
      s.Inv ∧ s.running = true ∧ s.symbolFormat = some .clsym ∧
        (∀ sym, s.symbolTable.symbolBits sym ≠ [] → ¬ s.symbolTable.symbolBits sym <+: s.upcoming) ∧
        s.upcoming.length < s.symbolTable.maxlen) := by
  refine ⟨⟨oneCode_inv _, rfl, rfl, by decide, by decide⟩, ⟨oneCode_inv _, rfl, rfl, fun sym h => ?_, by decide⟩,
    ⟨oneCode_inv _, rfl, rfl, fun sym h => ?_, by decide⟩⟩
  · rw [show (oneCode [0xFF]).symbolTable = (oneCode []).symbolTable from rfl] at h ⊢
    rw [oneCode_bits sym h]; decide
  · rw [oneCode_bits sym h]; decide

theorem witness_SuspensionKeepsState :
    (offering .storedLen [5, 0] 0 { Scratch.reset with last := .put true }).Inv ∧
      ∃ t, fetch (offering .storedLen [5, 0] 0 { Scratch.reset with last := .put true }) = .suspend t ∧ t.acc.cnt = 16 :=
  ⟨storedLen_inv _, _, rfl, rfl⟩

/-- Vectors TB-7, TB-1, TB-2, TB-4, TB-6 and TB-9. -/
theorem witness_BuildPolicy :
    let K := fun len : List (BitVec 4) => (len.map fun L => if L = 0 then 0 else 2 ^ (15 - L.toNat)).sum;
    let nz := fun len : List (BitVec 4) => (len.filter fun L => L ≠ 0).length;
    2 ^ 15 < K [1, 1, 1] ∧ K [1, 1] = 2 ^ 15 ∧ (K [1] < 2 ^ 15 ∧ nz [1] = 1) ∧
      (K (List.replicate 19 0) < 2 ^ 15 ∧ nz (List.replicate 19 0) ≠ 1) ∧ (K [2, 2, 2] < 2 ^ 15 ∧ nz [2, 2, 2] ≠ 1) := by
  decide

/-- The table of vector TB-12. -/
def tb12 : Table := ⟨[3, 3, 3, 3, 3, 2, 4, 4]⟩

theorem witness_AcceptedCodesPrefixFree : build .d tb12.len = .ok tb12 ∧ tb12.symbolBits 7 ≠ [] ∧
    tb12.symbolBits 7 <+: tb12.symbolBits 7 := by decide +kernel

theorem witness_CanonicalCodewords : build .d tb12.len = .ok tb12 ∧ tb12.len[7]? = some 4 ∧ (4 : BitVec 4) ≠ 0 := by
  decide +kernel

theorem witness_CompleteTablesAlwaysMatch : TreeKind.d ≠ .cl ∧ build .d tb12.len = .ok tb12 ∧
    [true, true, true, true].length = tb12.maxlen := by decide +kernel

/-- A wrong complement, a length, and a length of 0 in a block that is not or is the last. -/
theorem witness_StoredLength : (0x0005 : BitVec 16) ≠ ~~~0xFFFE ∧ (0x0005 : BitVec 16) = ~~~0xFFFA ∧
    (0x0005 : BitVec 16) ≠ 0 ∧ (0 : BitVec 16) = ~~~0xFFFF ∧
    ({ Scratch.reset with last := .put false } : Scratch).last = .put false ∧ fixedBlock.last = .put true := by decide

theorem witness_StoredByte : (let r := { fixedBlock with storedRemain := .put 2 };
      r.storedRemain = .put 2 ∧ (2 : BitVec 16) ≠ 1) ∧
    (let r := { fixedBlock with storedRemain := .put 1, last := .put false };
      r.storedRemain = .put 1 ∧ r.last = .put false) ∧
    (let r := { fixedBlock with storedRemain := .put 1 };
      r.storedRemain = .put 1 ∧ r.last = .put true) := by decide

theorem witness_StoredCopyStep : (offering .storedCopy [] 1 fixedBlock).cur.availIn = 0 ∧
    (offering .storedCopy [7] 0 fixedBlock).cur.availOut = 0 ∧
    (let s := offering .storedCopy [7] 1 { fixedBlock with storedRemain := .put 1 };
      s.running = true ∧ s.mode = .storedCopy ∧ s.cur.availIn ≠ 0 ∧ s.cur.availOut ≠ 0 ∧
        Memory.read s.inMem s.cur.nextIn = some 7 ∧ s.scratch.storedRemain = .put 1 ∧
        s.scratch.last = .put true) := by decide

/-- The highest legal counts, and each count one above. -/
theorem witness_DynHeaderCounts : (29 : BitVec 5).toNat + 257 ≤ 286 ∧ (29 : BitVec 5).toNat + 1 ≤ 30 ∧
    286 < (30 : BitVec 5).toNat + 257 ∧ 30 < (30 : BitVec 5).toNat + 1 := by decide

/-- The first entry, and the last one with a table that is refused or accepted. -/
theorem witness_CodeLengthCodeEntry : clcOrder[(0 : BitVec 5).toNat]? = some 16 ∧ (0 : BitVec 5) + 1 ≠ 4 ∧
    clcOrder[(18 : BitVec 5).toNat]? = some 15 ∧ (18 : BitVec 5) + 1 = 19 ∧
    build .cl (((Vector.replicate 19 0).setIfInBounds 15 (0 : BitVec 3)).toList.map (·.setWidth 4)) =
      .error .incompleteLengths ∧
    build .cl (((Vector.replicate 19 0).setIfInBounds 15 (1 : BitVec 3)).toList.map (·.setWidth 4)) =
      .ok ⟨List.replicate 15 0 ++ [1, 0, 0, 0]⟩ := by decide +kernel

theorem witness_CodeLengthAppended : (let r := lensRead 256 0;
      r.lens.written ∧ r.lensIndex = .put 256 ∧ r.hlit = .put 257 ∧ r.hdist = .put 1 ∧
        (256 : BitVec 9).toNat + 1 ≠ (257 : BitVec 9).toNat + (1 : BitVec 6).toNat) ∧
    (let r := lensRead 257 0;
      r.lensIndex = .put 257 ∧ (257 : BitVec 9).toNat + 1 = (257 : BitVec 9).toNat + (1 : BitVec 6).toNat) := by
  decide +kernel

theorem witness_RepeatSymbols : (lensRead 0 0).lensIndex = .put 0 ∧ (lensRead 1 0).lensIndex = .put 1 ∧
    (1 : BitVec 9) ≠ 0 := by decide +kernel

/-- Each repeat, one length short of the end, at the end and past it. -/
theorem witness_RepeatExtras : (let r := lensRead 255 5;
      r.lens.written ∧ r.hlit = .put 257 ∧ r.hdist = .put 1 ∧ r.lens.val[(255 : BitVec 9).toNat - 1]? = some 5) ∧
    (257 + 1 < 256 + (3 + (0 : BitVec 2).toNat)) ∧ 255 + (3 + (0 : BitVec 3).toNat) = 257 + 1 ∧
    130 + (11 + (116 : BitVec 7).toNat) ≠ 257 + 1 ∧ 130 + (11 + (116 : BitVec 7).toNat) ≤ 257 + 1 := by decide +kernel

/-- Lengths of a complete literal/length code over 257 symbols, then of distance codes of length 1. -/
def goodLens : Vector (BitVec 4) 316 := Vector.ofFn fun i => if i.val < 255 then 8 else if i.val < 257 then 9 else 1

theorem witness_FinishLensOutcomes : (Vector.replicate 316 (0 : BitVec 4))[256] = 0 ∧
    ((Vector.replicate 316 (1 : BitVec 4))[256] ≠ 0 ∧
      build .ll ((Vector.replicate 316 (1 : BitVec 4)).toList.take 257) = .error .overSubscribedLengths) ∧
    (goodLens[256] ≠ 0 ∧ build .ll (goodLens.toList.take 257) = .ok ⟨goodLens.toList.take 257⟩ ∧
      build .d ((goodLens.toList.drop 257).take 1) = .error .incompleteLengths ∧
      build .d ((goodLens.toList.drop 257).take 2) = .ok ⟨[1, 1]⟩) := by decide +kernel

theorem witness_InvalidSymbols : (Instr.dNoMatch, StreamFault.invalidDistCode) ∈
    [(Instr.clNoMatch, StreamFault.invalidCodeLengthSymbol), (.dNoMatch, .invalidDistCode)] := by decide

theorem witness_LiteralAndEndOfBlock : fixedBlock.last = .put true ∧
    ({ fixedBlock with last := .put false } : Scratch).last = .put false := by decide

theorem witness_LengthSymbols : (Instr.len285, 285, 258, 0) ∈ [(Instr.len257, 257, 3, 0), (.len285, 285, 258, 0)] := by
  decide

theorem witness_LengthExtra : ({ fixedBlock with length := .put 227 } : Scratch).length = .put 227 := by decide

/-- A distance that reaches exactly the oldest byte, and one past it. -/
theorem witness_DistSymbolsWithoutExtra : (Instr.dist3, 3, 4) ∈ [(Instr.dist0, 0, 1), (.dist3, 3, 4)] ∧
    (⟨15, [], 0, 3⟩ : Window).size < 4 ∧ 4 ≤ (⟨15, [], 0, 4⟩ : Window).size ∧
    ({ fixedBlock with length := .put 3 } : Scratch).length = .put 3 := by decide

theorem witness_DistSymbolsWithExtra : (Instr.dist29, 29, 24577) ∈ [(Instr.dist4, 4, 5), (.dist29, 29, 24577)] := by decide

theorem witness_DistExtra : ({ fixedBlock with dist := .put 24577 } : Scratch).dist = .put 24577 ∧
    (⟨15, [], 0, 32767⟩ : Window).size < ((24577 : BitVec 16) + (8191 : BitVec 13).setWidth 16).toNat ∧
    ((24577 : BitVec 16) + (8191 : BitVec 13).setWidth 16).toNat ≤ (⟨15, [], 0, 32768⟩ : Window).size := by decide

theorem witness_LitEmitStep : (let s := offering .litEmit [] 0 { fixedBlock with litVal := .put 7 };
      s.running = true ∧ s.mode = .litEmit ∧ s.cur.availOut = 0) ∧
    (let s := offering .litEmit [] 1 { fixedBlock with litVal := .put 7 };
      s.cur.availOut ≠ 0 ∧ s.scratch.litVal = .put 7) := by decide

/-- The nearest byte and, with a full window, the one at the full distance `W`, which is the cursor's. -/
theorem witness_CopyStep : (let s := { offering .copy [] 1 { fixedBlock with dist := .put 2, copyRemain := .put 1 } with
        win := ⟨1, [(0, 7), (1, 8)], 0, 2⟩ };
      s.running = true ∧ s.mode = .copy ∧ s.cur.availOut ≠ 0 ∧ s.scratch.dist = .put 2 ∧ s.scratch.copyRemain = .put 1 ∧
        (2 : BitVec 16).toNat ≤ s.win.size ∧ s.win.cursor < s.win.capacity ∧ 0 < s.win.capacity ∧
        (0 + (2 : BitVec 16).toNat) % s.win.capacity = s.win.cursor ∧ Memory.read s.win.mem 0 = some 7) ∧
    (let s := { offering .copy [] 1 { fixedBlock with dist := .put 1, copyRemain := .put 258 } with
        win := ⟨1, [(0, 7), (1, 8)], 0, 2⟩ };
      s.win.cursor < s.win.capacity ∧ 1 < s.win.capacity ∧
        (1 + (1 : BitVec 16).toNat) % s.win.capacity = s.win.cursor ∧ Memory.read s.win.mem 1 = some 8) := by decide

theorem witness_BackReference : ([7, 8, 9].foldl Window.push ⟨1, [], 0, 0⟩).size = 2 ∧ 1 ≤ 2 ∧
    2 ≤ ([7, 8, 9].foldl Window.push (⟨1, [], 0, 0⟩ : Window)).size := by decide

/-- At power-on no register is written. The registers read before another one are written for it; indices and values are
just outside their ranges. -/
theorem witness_ModelFaults :
    noScratchValue State.reset.scratch ∧
    (let r := { Scratch.reset with clcIndex := .put 0, clcLens := .put (Vector.replicate 19 0) };
      r.clcIndex.written = true ∧ r.clcLens.written = true ∧ r.hclen.written = false) ∧
    (19 ≤ (19 : BitVec 5).toNat ∧ 316 ≤ (316 : BitVec 9).toNat) ∧
    (let r := lensRead 0 0;
      r.lens.written = true ∧ r.lensIndex.written = true ∧ r.hlit.written = true ∧ r.hdist.written = true ∧
        r.lensIndex.val = 0) ∧
    (let r := { lensRead 0 0 with hdist := .unwritten 0 };
      r.lens.written = true ∧ r.lensIndex.written = true ∧ r.hlit.written = true ∧ r.hdist.written = false) ∧
    1 ≤ ({ State.reset with win := ⟨0, [(0, 7)], 0, 1⟩ } : State).win.size ∧
    State.reset.acc.cnt.toNat < 1 := by
  unfold noScratchValue; decide +kernel

/-- The same for the checks that a step makes. -/
theorem witness_ModelFaults_of_a_step :
    (let s := { offering .storedCopy [7] 1 .reset with inMem := [] };
      s.running = true ∧ s.mode = .storedCopy ∧ s.cur.availIn ≠ 0 ∧ s.cur.availOut ≠ 0 ∧
        Memory.read s.inMem s.cur.nextIn = none) ∧
    (let s := offering .dynLens [7] 1 .reset;
      s.running = true ∧ s.mode = .dynLens ∧ s.scratch.tblCL.written = false) ∧
    (let s := offering .dynRepeat [7] 1 { Scratch.reset with repSym := .put 15 };
      s.running = true ∧ s.mode = .dynRepeat ∧ s.scratch.repSym.written = true ∧ s.scratch.repSym.val ≠ 16) ∧
    (let s := offering .llSym [7] 1 { Scratch.reset with tableSel := .put .dynamic };
      s.running = true ∧ s.mode = .llSym ∧ s.scratch.tableSel = .put .dynamic ∧ s.scratch.tblLL.written = false) ∧
    (let s := offering .distSym [7] 1 { Scratch.reset with tableSel := .put .dynamic };
      s.running = true ∧ s.mode = .distSym ∧ s.scratch.tableSel = .put .dynamic ∧ s.scratch.tblD.written = false) ∧
    ((256 : BitVec 9).toNat < 257 ∧ 285 < (286 : BitVec 9).toNat ∧ 29 < (30 : BitVec 9).toNat) ∧
    (let s := offering .copy [7] 1 { Scratch.reset with dist := .put 1 };
      s.running = true ∧ s.mode = .copy ∧ s.cur.availOut ≠ 0 ∧ s.scratch.dist.written = true ∧
        s.scratch.copyRemain.written = false ∧ s.win.size < s.scratch.dist.val.toNat) ∧
    faultIs (step (offering .litEmit [] 1 .reset)) (.unwrittenRegister .LIT_VAL) ∧
    faultIs (step (offering .distExtra [7] 1 { Scratch.reset with sym := .put 30 })) (.registerOutOfRange .SYM) ∧
    faultIs (step (offering .lenExtra [7] 1 { Scratch.reset with sym := .put 256 })) (.registerOutOfRange .SYM) ∧
    faultIs (step (offering .copy [7] 1 { Scratch.reset with dist := .put 0, copyRemain := .put 1 }))
      (.windowReadInvalid 0) := by
  decide +kernel

/-- A step of an idle machine and one inside a DECODE, at two pairs of widths. -/
theorem witness_ParametersFixed : nextIs (step narrow) (fun t => t.params.cursorBits == 16 && t.params.accBits == 32) ∧
    nextIs (step { session .header with params := ⟨0, 32⟩, pending := [⟨2, 0, false, touching⟩] }) (fun t =>
      t.running && t.params.cursorBits == 16 && t.params.accBits == 64) := by decide

theorem witness_OnlyInitChangesWindowBits :
    nextIs (step { session .header with pending := [⟨0, 3, false, DecodeArgs.none⟩] }) (fun t => t.win.windowBits == 3) ∧
    (session .header).win.windowBits ≠ 3 := by decide

theorem witness_OnlyHeadersWriteLast : nextIs (step (offering .header [0x07] 0 .reset)) (fun t =>
      t.scratch.last == .put true) ∧
    nextIs (step { session .header with scratch := fixedBlock, pending := [⟨1, 0, true, DecodeArgs.none⟩] }) (fun t =>
      t.scratch.last != fixedBlock.last && !t.scratch.last.written) := by decide

theorem witness_ErrorIsSticky : faulted.mode = .error ∧
    nextIs (step { faulted with pending := [⟨2, 0, false, touching⟩] }) (fun t => t.mode == .error) ∧
    nextIs (step { faulted with pending := [⟨0, 0, false, touching⟩] }) (fun t => t.mode == .header) := by decide

/-- A fault before any write, and one after `SYM` and `DIST` are written. -/
theorem witness_FaultChangesNothingElse : isElement .dNoMatch = true ∧
    nextIs (exec .dNoMatch State.reset) (fun t => t.mode == .error && t.scratch == State.reset.scratch) ∧
    isElement .dist3 = true ∧
    nextIs (exec .dist3 State.reset) (fun t => t.mode == .error && t.scratch.sym == .put 3) := by decide +kernel

/-- A step that writes a byte, one that has no output space, and one that writes none. -/
theorem witness_StepOutputFrame : (offering .litEmit [] 1 { fixedBlock with litVal := .put 7 }).running = true ∧
    nextIs (step (offering .litEmit [] 1 { fixedBlock with litVal := .put 7 })) (fun t => t.cur.totalOut == 1) ∧
    nextIs (step (offering .litEmit [] 0 { fixedBlock with litVal := .put 7 })) (fun t => t.cur.totalOut == 0) := by decide

/-- A DECODE of two steps: a stored byte, then a suspension. -/
def twoSteps : State := offering .storedCopy [7] 2 { fixedBlock with storedRemain := .put 2 }

theorem witness_DecodeWritesOnlyOffered : twoSteps.cursorsOk ∧ twoSteps.running = true ∧
    nextIs (runDecode 2 twoSteps) (fun t => t.outMem == [(0, 7)] && !t.running) := ⟨by unfold State.cursorsOk; decide, by decide⟩

/-- A step that writes a byte over another. -/
theorem witness_OutputNeverRead : twoSteps.running = true ∧
    nextIs (step { twoSteps with outMem := [(0, 9)] }) (fun t => t.outMem == [(0, 7)]) := by decide

theorem witness_DecodeAccounting : twoSteps.cursorsOk ∧ nextIs (runDecode 2 twoSteps) (fun t => t.cur == ⟨1, 0, 1, 1, 1, 1⟩) :=
  ⟨by unfold State.cursorsOk; decide, by decide⟩

theorem twoSteps_inv : twoSteps.Inv := offering_inv (by simp) ⟨rfl, rfl, by decide⟩

theorem witness_StepKeepsInvariant : twoSteps.Inv ∧ nextIs (step twoSteps) (fun t => t.running) :=
  ⟨twoSteps_inv, by decide⟩

theorem witness_RunningNeverStops : twoSteps.Inv ∧ twoSteps.running = true := ⟨twoSteps_inv, rfl⟩

theorem witness_ProgressConsumes : twoSteps.Inv ∧ twoSteps.running = true ∧ nextIs (step twoSteps) (fun t => t.running) :=
  ⟨twoSteps_inv, rfl, by decide⟩

theorem witness_DecodeTerminates : twoSteps.Inv ∧ twoSteps.running = true := ⟨twoSteps_inv, rfl⟩

theorem witness_DecodeReturns : twoSteps.Inv ∧ twoSteps.running = true ∧
    nextIs (runDecode 2 twoSteps) (fun t => !t.running) := ⟨twoSteps_inv, rfl, by decide⟩

/-- A stored block of two bytes of which the first DECODE is offered one. -/
def oneByte : State :=
  { twoSteps with inMem := .ofBytes [7, 8] }

theorem oneByte_inv : oneByte.Inv := by
  have h := twoSteps_inv
  exact ⟨Memory.wf_ofBytes _, h.outMem, h.win, h.acc, h.regs, fun _ k hk => by
    obtain rfl : k = 0 := by
      have : k < 1 := hk
      omega
    decide, h.status, h.cursors⟩

theorem witness_SplitIndependence : oneByte.Inv ∧ oneByte.running = true ∧
    nextIs (runDecode 2 oneByte) (fun t => !t.running && t.mode == .storedCopy) ∧
    nextIs (runDecode 2 (oneByte.offerMore 1 0)) (fun u => !u.running && u.mode == .done) :=
  ⟨oneByte_inv, rfl, by decide, by decide⟩

end Sys2Proof.Tests
end

section
/-! The dynamic header's counts (`43_dynamic_header.md`, R200; `30_encoding.md`, R107). -/

namespace Sys2Proof.Machine

/-! ### The counts as numbers -/

@[simp] theorem toNat_hlitOf (hlit5 : BitVec 5) : (hlitOf hlit5).toNat = hlit5.toNat + 257 := by
  rw [hlitOf]
  bv_omega

@[simp] theorem toNat_hdistOf (hdist5 : BitVec 5) : (hdistOf hdist5).toNat = hdist5.toNat + 1 := by
  rw [hdistOf]
  bv_omega

@[simp] theorem toNat_hclenOf (hclen4 : BitVec 4) : (hclenOf hclen4).toNat = hclen4.toNat + 4 := by
  rw [hclenOf]
  bv_omega

/-- The state in which the counts stand, in plain numbers. -/
theorem writeCounts_eq (hlit5 hdist5 : BitVec 5) (hclen4 : BitVec 4) (s : State) :
    writeCounts hlit5 hdist5 hclen4 s = { s with
      scratch := { s.scratch with
        hlit := .put (BitVec.ofNat 9 (hlit5.toNat + 257))
        hdist := .put (BitVec.ofNat 6 (hdist5.toNat + 1))
        hclen := .put (BitVec.ofNat 5 (hclen4.toNat + 4)) } } := by
  simp only [writeCounts, ← toNat_hlitOf, ← toNat_hdistOf, ← toNat_hclenOf, BitVec.ofNat_toNat, BitVec.setWidth_eq]

/-! ### The two outcomes of the check -/

section
variable {hlit5 hdist5 : BitVec 5}

theorem dynCounts_of_le (hl : hlit5.toNat + 257 ≤ 286) (hd : hdist5.toNat + 1 ≤ 30) (hclen4 : BitVec 4) (s : State) :
    dynCounts hlit5 hdist5 hclen4 s = goto .dynClc { writeCounts hlit5 hdist5 hclen4 s with
      scratch := { (writeCounts hlit5 hdist5 hclen4 s).scratch with
        clcIndex := .put 0, clcLens := .put (Vector.replicate 19 0) } } := by
  refine if_neg ?_
  rw [toNat_hlitOf, toNat_hdistOf]
  omega

theorem dynCounts_of_gt (h : 286 < hlit5.toNat + 257 ∨ 30 < hdist5.toNat + 1) (hclen4 : BitVec 4) (s : State) :
    dynCounts hlit5 hdist5 hclen4 s = raise .tooManySymbols (writeCounts hlit5 hdist5 hclen4 s) := by
  refine if_pos ?_
  rwa [toNat_hlitOf, toNat_hdistOf]

end

/-- The three rows a dynamic header can stand under have one meaning: each runs the check itself. -/
theorem exec_dynHeader_row {hlit5 hdist5 : BitVec 5} {hclen4 : BitVec 4} {i : Instr}
    (hi : i = .dynHeader hlit5 hdist5 hclen4 ∨ i = .dynHeaderTooManyHlit hlit5 hdist5 hclen4 ∨
      i = .dynHeaderTooManyHdist hlit5 hdist5 hclen4) (s : State) :
    exec i s = dynCounts hlit5 hdist5 hclen4 s := by
  obtain rfl | rfl | rfl := hi <;> rfl

/-- Settles O29: each row runs `dynCounts`, whose check passes or raises with the counts written (R200, R107). -/
theorem dynHeaderCounts : Obligations.DynHeaderCounts := by
  intro hlit5 hdist5 hclen4 i s hi
  rw [exec_dynHeader_row hi]
  constructor
  · intro hl hd
    rw [dynCounts_of_le hl hd, writeCounts_eq, goto]
  · intro h
    rw [dynCounts_of_gt h, writeCounts_eq, raise]

end Sys2Proof.Machine
end

section
/-! PROOFS. The Huffman tables (`41_huffman_tables.md`): what BUILD answers by the code space taken (R150, R151), and the
codewords of the two fixed tables (R101, R102). -/

namespace Sys2Proof.Machine

/-! ### BUILD by the code space taken -/

/-- BUILD with both of its tests as comparisons of the code space taken with the whole one (R150, R151). -/
theorem build_eq_ite_usedSpace (kind : TreeKind) (len : List (BitVec 4)) : build kind len =
    if 2 ^ 15 < usedSpace (Table.lens ⟨len⟩) 15 then .error .overSubscribedLengths
    else if usedSpace (Table.lens ⟨len⟩) 15 < 2 ^ 15 ∧ ¬(kind = .cl ∧ nonzeroCount (Table.lens ⟨len⟩) = 1) then
      .error .incompleteLengths
    else .ok ⟨len⟩ := by
  have hfree : 0 < codeSpaceLeft (Table.lens ⟨len⟩) 15 ↔ usedSpace (Table.lens ⟨len⟩) 15 < 2 ^ 15 := by
    rw [codeSpaceLeft_fifteen]
    omega
  simp only [build, overSubscribed_iff, hfree]

section
variable {kind : TreeKind} {len : List (BitVec 4)}

theorem build_of_gt (h : 2 ^ 15 < usedSpace (Table.lens ⟨len⟩) 15) :
    build kind len = .error .overSubscribedLengths := by
  rw [build_eq_ite_usedSpace, if_pos h]

theorem build_of_eq (h : usedSpace (Table.lens ⟨len⟩) 15 = 2 ^ 15) : build kind len = .ok ⟨len⟩ := by
  rw [build_eq_ite_usedSpace, if_neg h.not_gt, if_neg fun hc => hc.1.ne h]

theorem build_of_lt_of_single (h : usedSpace (Table.lens ⟨len⟩) 15 < 2 ^ 15) (hk : kind = .cl)
    (hnz : nonzeroCount (Table.lens ⟨len⟩) = 1) : build kind len = .ok ⟨len⟩ := by
  rw [build_eq_ite_usedSpace, if_neg h.not_gt, if_neg fun hc => hc.2 ⟨hk, hnz⟩]

theorem build_of_lt (h : usedSpace (Table.lens ⟨len⟩) 15 < 2 ^ 15)
    (hn : ¬(kind = .cl ∧ nonzeroCount (Table.lens ⟨len⟩) = 1)) : build kind len = .error .incompleteLengths := by
  rw [build_eq_ite_usedSpace, if_neg h.not_gt, if_pos ⟨h, hn⟩]

end

/-- Settles O20: the sum of the statement is `usedSpace` at length 15, with which BUILD compares the whole code space. -/
theorem buildPolicy : Obligations.BuildPolicy := by
  intro kind len
  simp only
  rw [← usedSpace_sum, ← nonzeroCount_eq]
  exact ⟨build_of_gt, build_of_eq, build_of_lt_of_single, fun h hn => build_of_lt h (not_and_or.2 hn)⟩

/-! ### Codewords of a run of equal lengths -/

/-- The codewords of a run of symbols with one code length are consecutive (R152): `p` is the first symbol of the run and
`c` the first codeword of its length that no symbol before the run has. -/
theorem Table.codes_getElem?_run {T : Table} (pre suf : List Nat) (p c : Nat) {n L : Nat}
    (hT : T.lens = pre ++ (List.replicate n L ++ suf)) (hL : L ≠ 0) (hp : pre.length = p)
    (hc : firstCode T.lens L + pre.count L = c) {s : Nat} (hps : p ≤ s) (hs : s < p + n) :
    T.codes[s]? = some (L, c + (s - p)) := by
  obtain ⟨i, rfl⟩ := Nat.exists_eq_add_of_le hps
  have hi : i < n := by omega
  subst hp
  have hlt : pre.length + i < T.len.length := by
    rw [← T.lens_length, hT]
    simp only [List.length_append, List.length_replicate]
    omega
  have hget : T.lens.getD (pre.length + i) 0 = L := by
    simp [hT, List.getElem?_append_right, List.getElem?_append_left, hi]
  have hrank : codeRank T.lens (pre.length + i) = pre.count L + i := by
    rw [codeRank, hget, hT, List.take_length_add_append, List.take_append_of_le_length (by simpa using hi.le)]
    simp [hi.le]
  rw [T.codes_getElem? _ hlt, hget, if_neg hL, hrank, ← hc, Nat.add_sub_cancel_left, Nat.add_assoc]

/-! ### The fixed tables -/

theorem fixedLL_lens : fixedLL.lens =
    List.replicate 144 8 ++ (List.replicate 112 9 ++ (List.replicate 24 7 ++ List.replicate 8 8)) := by
  simp only [Table.lens, fixedLL, List.map_append, List.map_replicate, List.append_assoc]
  rfl

theorem fixedD_lens : fixedD.lens = List.replicate 32 5 := by
  simp only [Table.lens, fixedD, List.map_replicate]
  rfl

/-- How many symbols of the fixed literal/length table have each code length (R101). -/
theorem lengthCount_fixedLL (L : Nat) :
    lengthCount fixedLL.lens L = if L = 7 then 24 else if L = 8 then 152 else if L = 9 then 112 else 0 := by
  obtain rfl | hL := eq_or_ne L 0
  · rfl
  · rw [lengthCount_eq_count _ hL, fixedLL_lens]
    simp only [List.count_append, List.count_replicate, beq_iff_eq]
    split_ifs <;> omega

/-- How many symbols of the fixed distance table have each code length (R102). -/
theorem lengthCount_fixedD (L : Nat) : lengthCount fixedD.lens L = if L = 5 then 32 else 0 := by
  obtain rfl | hL := eq_or_ne L 0
  · rfl
  · rw [lengthCount_eq_count _ hL, fixedD_lens]
    simp only [List.count_replicate, beq_iff_eq, eq_comm (a := 5)]

theorem firstCode_fixedLL :
    firstCode fixedLL.lens 7 = 0 ∧ firstCode fixedLL.lens 8 = 0x30 ∧ firstCode fixedLL.lens 9 = 0x190 := by
  simp [firstCode, lengthCount_fixedLL]

theorem firstCode_fixedD : firstCode fixedD.lens 5 = 0 := by
  simp [firstCode, lengthCount_fixedD]

theorem usedSpace_fixedLL : usedSpace fixedLL.lens 15 = 2 ^ 15 := by
  simp [usedSpace, firstCode, lengthCount_fixedLL]

theorem usedSpace_fixedD : usedSpace fixedD.lens 15 = 2 ^ 15 := by
  simp [usedSpace, firstCode, lengthCount_fixedD]

/-- The four runs of R101: each continues the codewords of its length from where the runs before it left them. -/
theorem fixedLL_codes_getElem? {s : Nat} (hs : s < 288) : fixedLL.codes[s]? = some (
    if s < 144 then (8, 0x30 + s)
    else if s < 256 then (9, 0x190 + (s - 144))
    else if s < 280 then (7, s - 256)
    else (8, 0xC0 + (s - 280))) := by
  obtain ⟨h7, h8, h9⟩ := firstCode_fixedLL
  split_ifs with h1 h2 h3
  · exact Table.codes_getElem?_run [] _ 0 0x30 (n := 144) fixedLL_lens (by decide) List.length_nil
      (by rw [h8, List.count_nil]) s.zero_le (by omega)
  · exact Table.codes_getElem?_run (List.replicate 144 8) _ 144 0x190 fixedLL_lens (by decide) List.length_replicate
      (by simp only [h9, List.count_replicate]; rfl) (by omega) (by omega)
  · rw [Table.codes_getElem?_run (List.replicate 144 8 ++ List.replicate 112 9) _ 256 0
      (by rw [List.append_assoc, fixedLL_lens]) (by decide)
      (by simp only [List.length_append, List.length_replicate])
      (by simp only [h7, List.count_append, List.count_replicate]; rfl) (by omega) (by omega), Nat.zero_add]
  · exact Table.codes_getElem?_run (List.replicate 144 8 ++ List.replicate 112 9 ++ List.replicate 24 7) [] 280 0xC0
      (by rw [List.append_nil, List.append_assoc, List.append_assoc, fixedLL_lens]) (by decide)
      (by simp only [List.length_append, List.length_replicate])
      (by simp only [h8, List.count_append, List.count_replicate]; rfl) (by omega) (by omega)

theorem fixedD_codes_getElem? {s : Nat} (hs : s < 32) : fixedD.codes[s]? = some (5, s) := by
  have hrun := Table.codes_getElem?_run [] [] 0 0 (by rw [fixedD_lens, List.append_nil, List.nil_append]) (by decide)
    List.length_nil (by rw [firstCode_fixedD, List.count_nil]) s.zero_le (by omega)
  rwa [Nat.zero_add] at hrun

/-- Settles O6: the codewords by their runs of equal lengths, and BUILD because each table takes the whole code space. -/
theorem fixedCodes : Obligations.FixedCodes := by
  refine ⟨fun s => fixedLL_codes_getElem?, ?_, fun s => fixedD_codes_getElem?, ?_, build_of_eq usedSpace_fixedLL,
    build_of_eq usedSpace_fixedD⟩
  · rw [fixedLL.codes_length, fixedLL]
    simp only [List.length_append, List.length_replicate]
  · rw [fixedD.codes_length, fixedD, List.length_replicate]

end Sys2Proof.Machine
end

section
/-! PROOFS. Block headers and stored blocks (`42_block_header_stored.md`): the four header rows (R181 to R184), and the
step STORED_COPY as a suspension or the run of one payload byte (R187). -/

namespace Sys2Proof.Machine

/-- Settles O24: each row writes `LAST` and then runs one shared operation, `goto` or `raise`; before it a stored block's
drops the bits of the partial byte, and a fixed one's selects its tables. -/
theorem blockHeaders : Obligations.BlockHeaders := by
  intro last s
  refine ⟨?_, ?_, ?_, ?_⟩
  · rw [exec, execBlockStored, goto, flushByte, dropBits, Accumulator.drop, writeLast]
  · rw [exec, execBlockFixed, goto, writeLast]
  · rw [exec, execBlockDynamic, goto, writeLast]
  · rw [exec, execBlockReserved, raise, writeLast]

/-! ### One payload byte of a stored block -/

section
variable {s : State} {n : BitVec 16}

/-- A payload byte that is not the last one: the copy goes on with the count one lower. -/
theorem exec_storedData_of_ne_one (h : s.scratch.storedRemain = .put n) (hn : n ≠ 1) (b : Byte) :
    exec (.storedData b) s =
      goto .storedCopy { emit b s with scratch := { s.scratch with storedRemain := .put (n - 1) } } := by
  rw [exec, execStoredData, h, readReg_put]
  exact if_neg (mt sub_eq_zero.1 hn)

/-- The last payload byte: the block ends with the count at 0. -/
theorem exec_storedData_of_one (h : s.scratch.storedRemain = .put 1) (b : Byte) :
    exec (.storedData b) s =
      endBlock { emit b s with scratch := { s.scratch with storedRemain := .put 0 } } := by
  rw [exec, execStoredData, h, readReg_put]
  rfl

end

/-- Every byte is a value of the format of a payload byte, and stands for itself (R95). -/
theorem decode_storedData (b : Byte) : decode (.field .storedData b.toNat) = .ok (.storedData b) := by
  have hb : b.toNat < 2 ^ Format.storedData.width := b.isLt
  rw [decode, decodeField, if_neg hb.not_ge, BitVec.ofNat_toNat, BitVec.setWidth_eq]

/-! ### The step STORED_COPY -/

/-- The state with the byte at the input cursor consumed (R23, R24): the accumulator is not touched. -/
def State.consumeIn (s : State) : State := { s with cur := s.cur.consume s.params }

section
variable {s : State}

theorem fetchStored_of_no_space (h : s.cur.availIn = 0 ∨ s.cur.availOut = 0) : fetchStored s = .suspend s := if_pos h

theorem fetchStored_of_read {b : Byte} (hi : s.cur.availIn ≠ 0) (ho : s.cur.availOut ≠ 0)
    (hb : Memory.read s.inMem s.cur.nextIn = some b) :
    fetchStored s = .word (.field .storedData b.toNat) s.consumeIn := by
  rw [fetchStored, if_neg (not_or.2 ⟨hi, ho⟩), readIn, hb, State.consumeIn]

theorem step_storedCopy (hr : s.running = true) (hm : s.mode = .storedCopy) : step s = runFetched (fetchStored s) := by
  rw [step_element hr (by rw [hm, Mode.readsElement]), fetch, hm]

theorem step_storedCopy_of_no_space (hr : s.running = true) (hm : s.mode = .storedCopy)
    (h : s.cur.availIn = 0 ∨ s.cur.availOut = 0) : step s = suspend s := by
  rw [step_storedCopy hr hm, fetchStored_of_no_space h, runFetched]

/-- Where there is space and a byte, the step is that byte's row, run with the byte consumed. -/
theorem step_storedCopy_of_read (hr : s.running = true) (hm : s.mode = .storedCopy) {b : Byte}
    (hi : s.cur.availIn ≠ 0) (ho : s.cur.availOut ≠ 0) (hb : Memory.read s.inMem s.cur.nextIn = some b) :
    step s = exec (.storedData b) s.consumeIn := by
  rw [step_storedCopy hr hm, fetchStored_of_read hi ho hb, runFetched, runWord, decode_storedData]

end

/-- Settles O27: without space the step suspends; otherwise it runs the byte's row, whose count decides between going on
and the end of the block, which reads `LAST`. -/
theorem storedCopyStep : Obligations.StoredCopyStep := by
  intro s hr hm
  refine ⟨step_storedCopy_of_no_space hr hm, fun b n hi ho hb hn => ?_⟩
  rw [step_storedCopy_of_read hr hm hi ho hb]
  refine ⟨fun h => ?_, fun h hl => ?_, fun h hl => ?_⟩
  · rw [exec_storedData_of_ne_one (s := s.consumeIn) hn h, goto, ← hm]
    rfl
  · subst h
    rw [exec_storedData_of_one (s := s.consumeIn) hn]
    exact endBlock_notLast hl
  · subst h
    rw [exec_storedData_of_one (s := s.consumeIn) hn]
    exact endBlock_last hl

end Sys2Proof.Machine
end

section
/-! PROOFS. The code-length symbols (`43_dynamic_header.md`): the repeats that wait for their extra bits (R204, R205), and
what `FINISH_LENS` does in each outcome of its check and its two builds (R207). -/

namespace Sys2Proof.Machine

/-! ### The repeat symbols -/

section
variable {s : State} {index : BitVec 9}

theorem exec_clRepeatPrev_of_zero (h : s.scratch.lensIndex = .put 0) :
    exec .clRepeatPrev s = raise .invalidBitLengthRepeat s := by
  rw [exec, execClRepeatPrev, h, readReg_put, if_pos rfl]

theorem exec_clRepeatPrev_of_ne_zero (h : s.scratch.lensIndex = .put index) (hi : index ≠ 0) :
    exec .clRepeatPrev s = startRepeat 16 s := by
  rw [exec, execClRepeatPrev, h, readReg_put, if_neg hi]

end

/-- Settles O32: every repeat runs `startRepeat` with its symbol, but a 16 that finds `LENS_INDEX` at 0 runs `raise`. -/
theorem repeatSymbols : Obligations.RepeatSymbols := by
  intro s
  refine ⟨fun index h => ⟨fun hi => ?_, fun hi => ?_⟩, ?_, ?_⟩
  · subst hi
    rw [exec_clRepeatPrev_of_zero h, raise]
  · rw [exec_clRepeatPrev_of_ne_zero h hi, startRepeat, goto]
  · rw [exec, execClRepeatZeroShort, startRepeat, goto]
  · rw [exec, execClRepeatZeroLong, startRepeat, goto]

/-! ### The four outcomes of `FINISH_LENS` -/

section
variable {lens : Vector (BitVec 4) 316} {hlit : BitVec 9} {hdist : BitVec 6} {e : StreamFault} {T U : Table}

theorem finishLens_of_no_eob (h : lens[256] = 0) (s : State) :
    finishLens lens hlit hdist s = raise .missingEob s := if_pos h

theorem finishLens_of_ll_error (h : lens[256] ≠ 0) (hT : build .ll (lensSlice lens 0 hlit.toNat) = .error e)
    (s : State) : finishLens lens hlit hdist s = raise e s := by
  rw [finishLens, if_neg h, hT]

theorem finishLens_of_d_error (h : lens[256] ≠ 0) (hT : build .ll (lensSlice lens 0 hlit.toNat) = .ok T)
    (hU : build .d (lensSlice lens hlit.toNat hdist.toNat) = .error e) (s : State) :
    finishLens lens hlit hdist s = raise e s := by
  simp only [finishLens, if_neg h, hT, hU]

theorem finishLens_of_ok (h : lens[256] ≠ 0) (hT : build .ll (lensSlice lens 0 hlit.toNat) = .ok T)
    (hU : build .d (lensSlice lens hlit.toNat hdist.toNat) = .ok U) (s : State) :
    finishLens lens hlit hdist s = goto .llSym { s with
      scratch := { s.scratch with tblLL := .put T, tblD := .put U, tableSel := .put .dynamic } } := by
  simp only [finishLens, if_neg h, hT, hU]

end

/-- Settles O34: the check and the two builds leave four outcomes, three of which run `raise` and one `goto`; the lengths
that the statement takes from the front of the array are the slice from index 0. -/
theorem finishLensOutcomes : Obligations.FinishLensOutcomes := by
  intro lens hlit hdist s
  refine ⟨fun h => ?_, fun h e hT => ?_, fun h T e hT hU => ?_, fun h T U hT hU => ?_⟩
  · rw [finishLens_of_no_eob h, raise]
  · rw [finishLens_of_ll_error h hT, raise]
  · rw [finishLens_of_d_error h hT hU, raise]
  · rw [finishLens_of_ok h hT hU, goto]

end Sys2Proof.Machine
end

section
/-! PROOFS. The symbol loop (`44_symbol_loop.md`): the literal and end-of-block rows (R231, R232), the length rows as the
decoder's symbols (R233), and the two steps that emit a byte without reading an element (R235, R241). -/

namespace Sys2Proof.Machine

/-- Settles O36: a literal's row runs `goto` with the literal written; the end-of-block row is the end of any block, which
reads `LAST`. -/
theorem literalAndEndOfBlock : Obligations.LiteralAndEndOfBlock := by
  intro s
  refine ⟨fun b => ?_, fun hl => ?_, fun hl => ?_⟩
  · rw [exec, execLit, goto]
  · rw [exec, execEob, endBlock_last hl, finish]
  · rw [exec, execEob, endBlock_notLast hl, goto]

/-! ### The length symbols -/

/-- What a length symbol decodes to runs `LENGTH_SYMBOL` of that symbol (R233). -/
theorem exec_of_decode_lengthSymbol {sym : Nat} {i : Instr} (hsym : isLengthSymbol sym)
    (hi : decode (.field .llsym sym) = .ok i) (s : State) : exec i s = lengthSymbol sym s := by
  obtain ⟨hlo, hhi⟩ := hsym
  interval_cases sym
  all_goals
    cases hi
    rfl

/-- An instruction with a length symbol, its base length and its count of extra bits, as R99 tabulates them. -/
abbrev IsLengthRow : Instr × Nat × Nat × Nat → Prop
  | (i, sym, base, extra) =>
    isLengthSymbol sym ∧ decode (.field .llsym sym) = .ok i ∧ lbase sym = base ∧ lextra sym = extra

/-- Settles O37: every row is a length symbol's with its entries of the two tables, so it runs `lengthSymbol`. -/
theorem lengthSymbols : Obligations.LengthSymbols := by
  intro i sym base extra s hi
  obtain ⟨hsym, hdecode, rfl, rfl⟩ := (show ∀ row ∈ _, IsLengthRow row by decide) _ hi
  rw [exec_of_decode_lengthSymbol hsym hdecode, lengthSymbol, goto]

/-! ### The steps LIT_EMIT and COPY -/

section
variable {s : State}

theorem stepLitEmit_of_no_space (h : s.cur.availOut = 0) : stepLitEmit s = suspend s := if_pos h

theorem stepLitEmit_of_space {b : Byte} (h : s.cur.availOut ≠ 0) (hb : s.scratch.litVal = .put b) :
    stepLitEmit s = goto .llSym (emit b s) := by
  rw [stepLitEmit, if_neg h, hb, readReg_put]

theorem stepCopy_of_no_space (h : s.cur.availOut = 0) : stepCopy s = suspend s := if_pos h

/-- With output space and a byte at distance `DIST`, the step emits that byte and counts it (R241). -/
theorem stepCopy_of_winBack {d : BitVec 16} {n : BitVec 9} {b : Byte} (h : s.cur.availOut ≠ 0)
    (hd : s.scratch.dist = .put d) (hn : s.scratch.copyRemain = .put n) (hb : winBack d.toNat s = .ok b) :
    stepCopy s = goto (if n - 1 = 0 then .llSym else .copy)
      { emit b s with scratch := { s.scratch with copyRemain := .put (n - 1) } } := by
  rw [stepCopy, if_neg h, hd, readReg_put, hn, readReg_put, hb]
  rfl

end

/-- Settles O42: the step is `stepLitEmit`, which suspends without space and emits the written `LIT_VAL` with it. -/
theorem litEmitStep : Obligations.LitEmitStep := by
  intro s hr hm
  rw [step_litEmit hr hm]
  refine ⟨stepLitEmit_of_no_space, fun b ho hb => ?_⟩
  rw [stepLitEmit_of_space ho hb, goto]

/-- Settles O43: the index `a` of the statement is `backIndex` at `DIST`, so the byte there is what `WinBack` reads before
the write. -/
theorem copyStep : Obligations.CopyStep := by
  intro s hr hm
  rw [step_copy hr hm]
  refine ⟨stepCopy_of_no_space, fun d n a b ho hd hn hd1 hdsize _ ha hindex hread => ?_⟩
  have hb : winBack d.toNat s = .ok b :=
    winBack_eq_ok.2 ⟨hd1, hdsize, by rw [Window.backIndex_of ha hindex, hread]⟩
  simp only [stepCopy_of_winBack ho hd hn hb, goto, sub_eq_zero]

end Sys2Proof.Machine
end

section
/-! PROOFS. The host commands (`45_host_commands.md`): the instruction of each command code (R280), and what INIT (R270),
RESET (R271) and a reserved command answer. -/

namespace Sys2Proof.Machine

/-! ### Command codes -/

section
variable {p : HostPacket}

theorem decodeHost_of_zero (h : p.code = 0) : decodeHost p = .init p.wb := by rw [decodeHost, h]; rfl

theorem decodeHost_of_one (h : p.code = 1) : decodeHost p = .reset p.keep := by rw [decodeHost, h]; rfl

theorem decodeHost_of_two (h : p.code = 2) : decodeHost p = .decode p.args := by rw [decodeHost, h]; rfl

theorem decodeHost_of_three_le (h : 3 ≤ p.code.toNat) : decodeHost p = .hostcmdReserved p.code := by
  unfold decodeHost
  split
  case h_4 => rfl
  all_goals omega

end

theorem exec_hostcmdReserved (code : Byte) (s : State) :
    exec (.hostcmdReserved code) s = .refused (.reservedCommand code) := rfl

/-- Settles O10: the decoder splits on the code, and the instruction of every other code is refused in every state. -/
theorem commandCodes : Obligations.CommandCodes := by
  intro p s
  exact ⟨fun h => congrArg _ (decodeHost_of_zero h), fun h => congrArg _ (decodeHost_of_one h),
    fun h => congrArg _ (decodeHost_of_two h),
    fun h => ⟨congrArg _ (decodeHost_of_three_le h), exec_hostcmdReserved p.code s⟩⟩

/-! ### INIT -/

section
variable {wb : Nat}

/-- The session that INIT builds: a fresh stream, a cleared window of the new capacity, and host cursors of free value. -/
theorem exec_init_of_le (h : wb ≤ 15) (s : State) :
    exec (.init wb) s = .next { freshStream s with
      constructed := true
      win := { s.win.clear with windowBits := BitVec.ofNat 4 wb }
      cur := .afterInit s.params s.freeCount
      freeCount := s.freeCount + 4 } := by
  rw [exec, execInit, if_neg (Nat.not_lt.2 h)]
  rfl

theorem exec_init_of_lt (h : 15 < wb) (s : State) : exec (.init wb) s = .refused (.windowBitsTooLarge wb) := by
  rw [exec, execInit, if_pos h]

end

/-- Settles O8: a `wb` up to 15 fits the four bits of `WINDOW_BITS`, and every other field is read off the state that INIT
builds. -/
theorem initBuildsSession : Obligations.InitBuildsSession := by
  refine ⟨fun wb s hwb => ⟨_, exec_init_of_le hwb s, ?_⟩, fun wb s hwb => exec_init_of_lt hwb s⟩
  have hbits : (BitVec.ofNat 4 wb).toNat = wb := Nat.mod_eq_of_lt (Nat.lt_succ_of_le hwb)
  exact ⟨rfl, rfl, hbits, congrArg (2 ^ ·) hbits, rfl, rfl, rfl, rfl, rfl, rfl, rfl, rfl,
    noScratchValue_clear s.scratch, rfl, rfl, rfl, rfl⟩

/-! ### RESET -/

/-- In a constructed session RESET starts a fresh stream and clears the window unless `keep` says otherwise. -/
theorem exec_reset_of_constructed {s : State} (h : s.constructed = true) (keep : Bool) :
    exec (.reset keep) s =
      .next { freshStream s with win := if keep then s.win else s.win.clear } := by
  rw [exec, execReset, if_neg (not_not.2 h)]
  cases keep <;> rfl

/-- Settles O9: the scratch of the fresh stream is the cleared one. -/
theorem resetStartsFreshStream : Obligations.ResetStartsFreshStream := by
  intro keep s hs
  refine ⟨s.scratch.clear, noScratchValue_clear s.scratch, ?_⟩
  rw [exec_reset_of_constructed hs, freshStream, Window.clear]

end Sys2Proof.Machine
end

section
/-! PROOFS. Exceptions (`60_exceptions.md`): a fault is sticky (R305), so that only INIT and RESET leave `ERROR`. -/

namespace Sys2Proof.Machine

/-- Inside a DECODE, a step in `ERROR` returns at once (R274). -/
theorem step_error {s : State} (hr : s.running = true) (hm : s.mode = .error) :
    step s = .next { s with running := false } := by
  rw [step, if_pos hr, stepRunning, hm, enterDecode, hm]

/-- Settles O48: inside a DECODE the step is the return at once, and between commands it is idle (the state is frozen), a
DECODE (which returns at once), or an INIT or RESET, the two that start a fresh stream. -/
theorem errorIsSticky : Obligations.ErrorIsSticky := by
  intro s t hm h
  cases hr : s.running with
  | true =>
    rw [step_error hr hm, Host.Outcome.next.injEq] at h
    subst h
    exact .inl ⟨rfl, hm, rfl, rfl, rfl, rfl, rfl, rfl⟩
  | false =>
    obtain ⟨-, rfl⟩ | ⟨p, rest, hp, hinit | hreset | hdecode⟩ := step_idle hr h
    · exact .inl ⟨hr, hm, rfl, rfl, rfl, rfl, rfl, rfl⟩
    · obtain ⟨hcode, -, _, -, rfl⟩ := hinit
      exact .inr ⟨rfl, p, rest, hp, .inl hcode, rfl⟩
    · obtain ⟨hcode, -, _, -, rfl⟩ := hreset
      exact .inr ⟨rfl, p, rest, hp, .inr hcode, rfl⟩
    · obtain ⟨-, -, -, -, ht, hreturn⟩ := hdecode
      have ⟨hrun, hstatus⟩ : t.running = false ∧ t.status = s.status := by simpa [hm] using hreturn
      rw [ht]
      exact .inl ⟨hrun, hm, hstatus, rfl, rfl, rfl, rfl, rfl⟩

end Sys2Proof.Machine
end

section
/-! PROOFS. Encoding (`30_encoding.md`): the decoder and the encoder undo each other (R93 to R100, R107, R280), which words
are decoded, and the operand tables (R97, R99, R100). -/

namespace Sys2Proof

/-! ### The fields of a packed word -/

/-- The two halves of a stored length header (R94). -/
theorem bitsOf_storedLen (len nlen : BitVec 16) :
    BitVec.ofNat 16 (bitsOf (len.toNat + 65536 * nlen.toNat) 15 0) = len ∧
      BitVec.ofNat 16 (bitsOf (len.toNat + 65536 * nlen.toNat) 31 16) = nlen := by
  have h1 := len.isLt
  have h2 := nlen.isLt
  constructor <;>
  · refine BitVec.eq_of_toNat_eq ?_
    simp only [BitVec.toNat_ofNat, bitsOf]
    omega

/-- The three counts of a dynamic header (R96). -/
theorem bitsOf_encodeDynhdr14 (a b : BitVec 5) (c : BitVec 4) :
    BitVec.ofNat 5 (bitsOf (encodeDynhdr14 a b c) 4 0) = a ∧ BitVec.ofNat 5 (bitsOf (encodeDynhdr14 a b c) 9 5) = b ∧
      BitVec.ofNat 4 (bitsOf (encodeDynhdr14 a b c) 13 10) = c := by
  have h1 := a.isLt
  have h2 := b.isLt
  have h3 := c.isLt
  refine ⟨?_, ?_, ?_⟩ <;>
  · refine BitVec.eq_of_toNat_eq ?_
    simp only [BitVec.toNat_ofNat, bitsOf, encodeDynhdr14]
    omega

/-- A packed dynamic header is read back under the row that its counts select (R107). -/
theorem decode_encodeDynhdr14 (a b : BitVec 5) (c : BitVec 4) :
    decode (.field .dynhdr14 (encodeDynhdr14 a b c)) = .ok (
      if 30 ≤ a.toNat then .dynHeaderTooManyHlit a b c
      else if 30 ≤ b.toNat then .dynHeaderTooManyHdist a b c else .dynHeader a b c) := by
  have hlt : encodeDynhdr14 a b c < 2 ^ Format.dynhdr14.width := by
    simp only [encodeDynhdr14, Format.width]
    omega
  obtain ⟨ha, hb, hc⟩ := bitsOf_encodeDynhdr14 a b c
  simp only [decode, decodeField, if_neg hlt.not_ge, decodeDynhdr14, ha, hb, hc]

/-- Settles O2: each row of the encoder, read back by its format; only the packed headers need their fields taken apart. -/
theorem decodeEncode : Obligations.DecodeEncode := by
  intro i hwf
  cases i with
  | blockStored last | blockFixed last | blockDynamic last | blockReserved last => cases last <;> rfl
  | storedLen len nlen =>
    have hlt : len.toNat + 65536 * nlen.toNat < 2 ^ Format.stored32.width := by
      simp only [Format.width]
      omega
    obtain ⟨h1, h2⟩ := bitsOf_storedLen len nlen
    simp only [encode, decode, decodeField, if_neg hlt.not_ge, h1, h2]
  | dynHeader a b c =>
    have ⟨ha, hb⟩ : a.toNat < 30 ∧ b.toNat < 30 := by simpa [Instr.wf] using hwf
    rw [encode, decode_encodeDynhdr14, if_neg ha.not_ge, if_neg hb.not_ge]
  | dynHeaderTooManyHlit a b c =>
    have ha : 30 ≤ a.toNat := by simpa [Instr.wf] using hwf
    rw [encode, decode_encodeDynhdr14, if_pos ha]
  | dynHeaderTooManyHdist a b c =>
    have ⟨ha, hb⟩ : a.toNat < 30 ∧ 30 ≤ b.toNat := by simpa [Instr.wf] using hwf
    rw [encode, decode_encodeDynhdr14, if_neg ha.not_ge, if_pos hb]
  | storedData x | clcEntry x | cl16Extra x | cl17Extra x | cl18Extra x =>
    simp only [encode, decode, decodeField, Format.width, if_neg x.isLt.not_ge, BitVec.ofNat_toNat, BitVec.setWidth_eq]
  | clLen x =>
    simp only [encode, decode, decodeField, Format.width, decodeClsym, if_neg (show ¬ 2 ^ 5 ≤ x.toNat by omega),
      if_pos (show x.toNat ≤ 15 by omega), BitVec.ofNat_toNat, BitVec.setWidth_eq]
  | lit b =>
    simp only [encode, decode, decodeField, Format.width, decodeLlsym, if_neg (show ¬ 2 ^ 9 ≤ b.toNat by omega),
      if_pos (show b.toNat ≤ 255 by omega), BitVec.ofNat_toNat, BitVec.setWidth_eq]
  | lenExtra n x =>
    have ⟨hn, hx⟩ : n ≤ 5 ∧ x.toNat < 2 ^ n := by simpa [Instr.wf] using hwf
    simp only [encode, decode, decodeField, Format.width, if_neg hx.not_ge, if_pos hn, BitVec.ofNat_toNat, BitVec.setWidth_eq]
  | distExtra n x =>
    have ⟨hn, hx⟩ : n ≤ 13 ∧ x.toNat < 2 ^ n := by simpa [Instr.wf] using hwf
    simp only [encode, decode, decodeField, Format.width, if_neg hx.not_ge, if_pos hn, BitVec.ofNat_toNat, BitVec.setWidth_eq]
  | hostcmdReserved code =>
    have hc : 3 ≤ code.toNat := by simpa [Instr.wf] using hwf
    exact congrArg _ (Machine.decodeHost_of_three_le hc)
  | _ => rfl

/-! ### The other direction -/

theorem encode_decodeHdr3 : ∀ v < 8, (decodeHdr3 v).wf = true ∧ encode (decodeHdr3 v) = .field .hdr3 v := by decide

theorem encode_decodeDynhdr14 {v : Nat} (hv : v < 2 ^ 14) :
    (decodeDynhdr14 v).wf = true ∧ encode (decodeDynhdr14 v) = .field .dynhdr14 v := by
  have hpack : encodeDynhdr14 (.ofNat 5 (bitsOf v 4 0)) (.ofNat 5 (bitsOf v 9 5)) (.ofNat 4 (bitsOf v 13 10)) = v := by
    simp only [encodeDynhdr14, bitsOf, BitVec.toNat_ofNat]
    omega
  unfold decodeDynhdr14
  dsimp only
  split
  case isTrue ha => exact ⟨decide_eq_true ha, congrArg _ hpack⟩
  case isFalse ha =>
    split
    case isTrue hb => exact ⟨by simp only [Instr.wf, Nat.not_le.1 ha, hb]; rfl, congrArg _ hpack⟩
    case isFalse hb => exact ⟨by simp only [Instr.wf, Nat.not_le.1 ha, Nat.not_le.1 hb]; rfl, congrArg _ hpack⟩

theorem encode_of_decodeClsym {s : Nat} {i : Instr} (h : decodeClsym s = .ok i) :
    i.wf = true ∧ encode i = .field .clsym s := by
  unfold decodeClsym at h
  split at h
  case isTrue hs =>
    cases h
    exact ⟨rfl, congrArg _ (Nat.mod_eq_of_lt (by omega))⟩
  case isFalse =>
    split at h <;> cases h <;> exact ⟨rfl, rfl⟩

theorem encode_of_decodeLlsym {s : Nat} {i : Instr} (h : decodeLlsym s = .ok i) :
    i.wf = true ∧ encode i = .field .llsym s := by
  unfold decodeLlsym at h
  split at h
  case isTrue hs =>
    cases h
    exact ⟨rfl, congrArg _ (Nat.mod_eq_of_lt (by omega))⟩
  case isFalse =>
    split at h <;> cases h <;> exact ⟨rfl, rfl⟩

theorem encode_of_decodeDsym {s : Nat} {i : Instr} (h : decodeDsym s = .ok i) :
    i.wf = true ∧ encode i = .field .dsym s := by
  unfold decodeDsym at h
  split at h <;> cases h <;> exact ⟨rfl, rfl⟩

/-- The value of an element is the word of what it decodes to (R109). -/
theorem encode_of_decodeField {f : Format} {v : Nat} {i : Instr} (h : decodeField f v = .ok i) :
    i.wf = true ∧ encode i = .field f v := by
  unfold decodeField at h
  split at h
  case isTrue => cases h
  case isFalse hv =>
    rw [Nat.not_le] at hv
    cases f with
    | hdr3 =>
      cases h
      exact encode_decodeHdr3 v hv
    | dynhdr14 =>
      cases h
      exact encode_decodeDynhdr14 hv
    | clsym => exact encode_of_decodeClsym h
    | llsym => exact encode_of_decodeLlsym h
    | dsym => exact encode_of_decodeDsym h
    | stored32 =>
      cases h
      refine ⟨rfl, congrArg (InstrWord.field .stored32) ?_⟩
      simp only [BitVec.toNat_ofNat, bitsOf, Format.width] at hv ⊢
      omega
    | storedData | clc3 | clExtra16 | clExtra17 | clExtra18 =>
      cases h
      exact ⟨rfl, congrArg _ (Nat.mod_eq_of_lt hv)⟩
    | lenExtra n | distExtra n =>
      dsimp only at h
      split at h
      case isFalse => cases h
      case isTrue hn =>
        cases h
        have hmod := Nat.mod_eq_of_lt (hv.trans_le (Nat.pow_le_pow_right two_pos hn))
        rw [← BitVec.toNat_ofNat] at hmod
        exact ⟨by simpa only [Instr.wf, hmod, Bool.and_eq_true, decide_eq_true_eq] using ⟨hn, hv⟩, congrArg _ hmod⟩

theorem encode_of_decodeNoMatch {f : Format} {i : Instr} (h : decodeNoMatch f = .ok i) :
    i.wf = true ∧ encode i = .noMatch f := by
  cases f <;> cases h <;> exact ⟨rfl, rfl⟩

/-- A command is one of the three of R280, or has a code of the reserved row. -/
theorem hostCode_cases (p : HostPacket) : p.code = 0 ∨ p.code = 1 ∨ p.code = 2 ∨ 3 ≤ p.code.toNat := by bv_omega

/-- What a command decodes to is well formed, and no element of the stream (R280). -/
theorem decodeHost_wf (p : HostPacket) : (decodeHost p).wf = true ∧ Machine.isElement (decodeHost p) = false := by
  obtain h | h | h | h := hostCode_cases p
  · rw [Machine.decodeHost_of_zero h]
    exact ⟨rfl, rfl⟩
  · rw [Machine.decodeHost_of_one h]
    exact ⟨rfl, rfl⟩
  · rw [Machine.decodeHost_of_two h]
    exact ⟨rfl, rfl⟩
  · rw [Machine.decodeHost_of_three_le h]
    exact ⟨decide_eq_true h, rfl⟩

/-- Settles O3: by what the word is, the value of an element, an INVALID or a command. -/
theorem encodeDecode : Obligations.EncodeDecode := by
  intro w i h
  cases w with
  | field f v =>
    obtain ⟨hwf, he⟩ := encode_of_decodeField h
    exact ⟨hwf, fun _ => he, fun hn => by simp [Machine.isElement, he] at hn⟩
  | noMatch f =>
    obtain ⟨hwf, he⟩ := encode_of_decodeNoMatch h
    exact ⟨hwf, fun _ => he, fun hn => by simp [Machine.isElement, he] at hn⟩
  | host p =>
    cases h
    obtain ⟨hwf, hn⟩ := decodeHost_wf p
    exact ⟨hwf, fun he => absurd (hn.symm.trans he) (by decide), fun _ => ⟨p, rfl⟩⟩

/-! ### Which words are decoded -/

theorem exists_decodeClsym_iff (s : Nat) : (∃ i, decodeClsym s = .ok i) ↔ s ≤ 18 := by
  constructor
  · rintro ⟨i, h⟩
    unfold decodeClsym at h
    split at h
    · omega
    · split at h
      case h_4 => cases h
      all_goals omega
  · intro hs
    interval_cases s <;> exact ⟨_, rfl⟩

theorem exists_decodeLlsym_iff (s : Nat) : (∃ i, decodeLlsym s = .ok i) ↔ s ≤ 287 := by
  constructor
  · rintro ⟨i, h⟩
    unfold decodeLlsym at h
    split at h
    · omega
    · split at h
      case h_33 => cases h
      all_goals omega
  · intro hs
    obtain hgt | hlit := Nat.lt_or_ge 255 s
    · interval_cases s <;> exact ⟨_, rfl⟩
    · exact ⟨_, if_pos hlit⟩

theorem exists_decodeDsym {s : Nat} (hs : s < 32) : ∃ i, decodeDsym s = .ok i := by
  interval_cases s <;> exact ⟨_, rfl⟩

/-- Settles O4: a value too wide is no word; of the others each format decodes all, but a symbol format only those of its
alphabet, and an extra-bit format only up to its alphabet's widest field. -/
theorem decodableWords : Obligations.DecodableWords := by
  intro f v
  simp only [decode, decodeField]
  split
  case isTrue hv => exact ⟨fun ⟨_, h⟩ => (nomatch h), fun h => absurd h.1 hv.not_gt⟩
  case isFalse hv =>
    rw [Nat.not_le] at hv
    cases f with
    | clsym => simpa [hv] using exists_decodeClsym_iff v
    | llsym => simpa [hv] using exists_decodeLlsym_iff v
    | dsym => simpa [hv] using exists_decodeDsym hv
    | lenExtra n | distExtra n =>
      dsimp only
      split <;> simp [*]
    | _ => simp [hv]

/-! ### The tables of the spec -/

/-- Settles O1: the decoder evaluates on each of the words. -/
theorem wordsDecode : Obligations.WordsDecode := by
  unfold Obligations.WordsDecode
  decide

/-- Settles O5: the claims about a range of symbols are checked for each symbol of the range. -/
theorem operandTables : Obligations.OperandTables := by
  refine ⟨rfl, ⟨rfl, rfl⟩, fun s h1 h2 => ?_, fun s h1 h2 => ?_, rfl, rfl, ⟨rfl, rfl⟩, fun s h => ?_, fun s h => ?_, rfl⟩
  all_goals
    interval_cases s
    all_goals rfl

end Sys2Proof
end

section
/-! PROOFS. The bit reader and the symbol decoder (`40_bit_reader.md`, `41_huffman_tables.md` section 2) as readers of the
stream to come: a field and a symbol take exactly their bits from it, and a suspension takes none (R10, R91, R92, R160). -/

namespace Sys2Proof.Machine

/-! ### Held bits are the first of the stream -/

theorem cnt_le_upcoming (s : State) : s.acc.cnt.toNat ≤ s.upcoming.length := by
  rw [upcoming_length]
  exact Nat.le_add_right ..

theorem upcoming_take_of_le {s : State} {n : Nat} (h : n ≤ s.acc.cnt.toNat) :
    s.upcoming.take n = s.heldBits.take n := by
  rw [State.upcoming, List.take_append_of_le_length (by rwa [heldBits_length])]

theorem upcoming_length_of_availIn_zero {s : State} (h : s.cur.availIn = 0) :
    s.upcoming.length = s.acc.cnt.toNat := by
  rw [upcoming_length, h]
  rfl

/-! ### Fields -/

/-- What the mode's field needs to be pulled fits the accumulator (R137). -/
theorem field_pulls_le {s : State} {f : Format} (hI : s.Inv) (hf : s.fieldFormat = some f) :
    f.width ≤ 32 ∧ s.acc.cnt.toNat + 8 * pullsNeeded f.width s ≤ 32 := by
  have hh := heldOk_field hI hf
  unfold pullsNeeded
  omega

/-- Settles O17: with enough bits to come `ensure` can make its pulls, which leave the stream as it is, and `read` takes the
first bits of it; with fewer it pulls every offered byte and stops. -/
theorem fieldElements : Obligations.FieldElements := by
  intro s f hI hr hf
  obtain ⟨hheld, -⟩ := heldOk_field hI hf
  obtain ⟨hw, hpulls⟩ := field_pulls_le hI hf
  rw [fetch_field hI.regs hf]
  obtain ⟨u, hp, hu, he⟩ | ⟨j, u, hj, hp, h0, he⟩ := fetchField_total (f := f) hw (hI.input hr)
  · have hup := (hp.upcoming hI.acc.1 hpulls).2
    refine ⟨fun _ => ⟨dropBits f.width u, ?_, hp.readsTo.trans (readsTo_dropBits u _), ?_, ?_⟩, fun hlt => ?_⟩
    · rw [he, peek_eq_bitsValue u _ hu, ← upcoming_take_of_le hu, hup]
    · rw [upcoming_dropBits u _ hu, hup]
    · rw [dropBits_acc, Accumulator.drop_cnt_toNat _ _ hu]
      obtain ⟨-, -, hlt | hsame⟩ := ensure_cnt hw hp
      · omega
      · rw [hsame] at hu ⊢
        omega
    · have hle := cnt_le_upcoming u
      rw [hup] at hle
      omega
  · have hup := (hp.upcoming hI.acc.1 (by omega)).2
    refine ⟨fun hle => ?_, fun _ => ⟨u, he, hp.readsTo, hup, h0⟩⟩
    have hlen := upcoming_length_of_availIn_zero h0
    rw [hup, hp.cnt_toNat (by omega)] at hlen
    unfold pullsNeeded at hj
    omega

/-! ### Symbols -/

/-- A whole codeword at the head of the stream is the match, once it is held. -/
theorem prefixFree.codeword_not_held {T : Table} {u : State} (hT : prefixFree T) (hnone : T.matchHeld u.acc = none)
    {sym : Nat} (hne : T.symbolBits sym ≠ []) (hp : T.symbolBits sym <+: u.upcoming) :
    u.acc.cnt.toNat < (T.symbolBits sym).length := by
  by_contra hle
  rw [hT.match_of_prefix hne hp (Nat.not_lt.1 hle)] at hnone
  cases hnone

/-- Settles O18: `decode_sym` answers in three ways, each after pulls that leave the stream as it is. A match is the one
codeword that begins the stream; without a match no codeword of the stream's head is wholly held. -/
theorem symbolElements : Obligations.SymbolElements := by
  intro s f hI hr hf
  have hheld := heldOk_symbol hI hf
  have hT := symbolTable_prefixFree hI.regs hf
  rw [fetch_symbol hI.regs hf]
  generalize s.symbolTable = T at *
  have hmax := T.maxlen_le
  obtain ⟨sym, j, u, L, hp, hm, he, -, hcnt, h32, hj⟩ | ⟨j, u, hp, hm, hle, he, -, hcnt, h32⟩ |
    ⟨j, u, hp, hm, h0, hlt, he, -, hcnt⟩ :=
      fetchSym_total (T := T) (f := f) (hI.input hr) (by omega) hI.acc.1
  · have hup := (hp.upcoming hI.acc.1 (by omega)).2
    obtain ⟨hne, hpre, hlen⟩ := prefix_of_match hm
    have hL := (Table.matchHeld_eq_some hm).2.1
    rw [hup] at hpre
    refine ⟨fun sym' hne' hpre' => ?_, fun hno => absurd hpre (hno sym hne)⟩
    obtain rfl := hT.unique hne hne' hpre hpre'
    refine ⟨dropBits L u, he, hp.readsTo.trans (readsTo_dropBits u L), ?_, ?_⟩
    · rw [upcoming_dropBits u L hL, hup, hlen]
    · rw [dropBits_acc, Accumulator.drop_cnt_toNat _ _ hL]
      obtain rfl | hj0 := eq_or_ne j 0
      · cases hp
        obtain hle | ⟨-, hnone⟩ := hheld
        · omega
        · rw [hnone] at hm
          cases hm
      · have := hj hj0
        omega
  · have hup := (hp.upcoming hI.acc.1 (by omega)).2
    refine ⟨fun sym hne hpre => ?_, fun _ => ⟨fun _ => ⟨u, he, hp.readsTo, hup⟩, fun hlt => ?_⟩⟩
    · have h1 := hT.codeword_not_held hm hne (by rwa [hup])
      have h2 := symbolBits_length_le hne
      omega
    · have h1 := cnt_le_upcoming u
      rw [hup] at h1
      omega
  · have hup := (hp.upcoming hI.acc.1 (by omega)).2
    have hlen := upcoming_length_of_availIn_zero h0
    rw [hup] at hlen
    refine ⟨fun sym hne hpre => ?_, fun _ => ⟨fun hle => ?_, fun _ => ⟨u, he, hp.readsTo, hup, h0⟩⟩⟩
    · have h1 := hT.codeword_not_held hm hne (by rwa [hup])
      have h2 := hpre.length_le
      omega
    · omega

/-! ### Suspensions -/

/-- A mode that reads neither a field nor a symbol and suspends has pulled nothing: a stored copy without input or output
space, or a mode that reads no element. -/
theorem fetch_suspend_other {s t : State} (hf : s.fieldFormat = none) (hs : s.symbolFormat = none)
    (h : fetch s = .suspend t) : t = s ∧ (s.mode.readsElement = true → s.cur.availIn = 0 ∨ s.cur.availOut = 0) := by
  unfold fetch at h
  cases hm : s.mode with
  | storedCopy =>
    simp only [hm, fetchStored] at h
    split at h
    case isTrue h0 =>
      cases h
      exact ⟨rfl, fun _ => h0⟩
    case isFalse => split at h <;> cases h
  | litEmit | copy | done | error =>
    rw [hm] at h
    cases h
    exact ⟨rfl, fun hr => by cases hr⟩
  | dynRepeat =>
    simp only [State.fieldFormat, hm] at hf
    split at hf
    case isTrue => cases hf
    case isFalse => split at hf <;> cases hf
  | dynLens | llSym | distSym => simp [State.symbolFormat, hm] at hs
  | _ => simp [State.fieldFormat, hm] at hf

/-- In a mode that reads no field at most 32 bits are held (R137). -/
theorem cnt_le_of_no_field {s : State} (hI : s.Inv) (hf : s.fieldFormat = none) : s.acc.cnt.toNat ≤ 32 := by
  have hheld := hI.acc.2
  have hmax := s.symbolTable.maxlen_le
  unfold State.heldOk at hheld
  dsimp only at hheld
  split at hheld
  case h_11 hm => simp [State.fieldFormat, hm] at hf
  all_goals omega

/-- A suspension is some pulls, all kept (R10); and a mode that reads an element has then no input or no output space
left. -/
theorem fetch_suspend_pulled {s t : State} (hI : s.Inv) (h : fetch s = .suspend t) :
    (∃ k, Pulled s k t ∧ s.acc.cnt.toNat + 8 * k ≤ 32) ∧
      (s.mode.readsElement = true → t.cur.availIn = 0 ∨ t.cur.availOut = 0) := by
  cases hf : s.fieldFormat with
  | some f =>
    rw [fetch_field hI.regs hf] at h
    obtain ⟨h0, j, hj, hp⟩ := fetchField_eq_suspend h
    have := field_pulls_le hI hf
    exact ⟨⟨j, hp, by omega⟩, fun _ => .inl h0⟩
  | none =>
    cases hs : s.symbolFormat with
    | some f =>
      rw [fetch_symbol hI.regs hs] at h
      have hheld := heldOk_symbol hI hs
      have hmax := s.symbolTable.maxlen_le
      obtain ⟨j, hp, -, h0, hlt, hcnt, -⟩ := fetchSym_eq_suspend (by omega) hI.acc.1 h
      exact ⟨⟨j, hp, by omega⟩, fun _ => .inl h0⟩
    | none =>
      obtain ⟨rfl, hspace⟩ := fetch_suspend_other hf hs h
      exact ⟨⟨0, .refl t, cnt_le_of_no_field hI hf⟩, hspace⟩

/-- Settles O19: the state of a suspension is reached by pulls alone. -/
theorem suspensionKeepsState : Obligations.SuspensionKeepsState := by
  intro s t hI h
  obtain ⟨⟨k, hp, hk⟩, -⟩ := fetch_suspend_pulled hI h
  obtain ⟨hin, -, htotal, -⟩ := hI.cursors
  refine ⟨hp.readsTo, (hp.upcoming hI.acc.1 hk).2, k, hp.availIn.symm, hp.cnt_toNat (by omega), ?_, ?_⟩
  · rw [hp.nextIn, advance_eq_mod hin]
  · rw [hp.totalIn, advance_eq_mod htotal]

end Sys2Proof.Machine
end

section
/-! PROOFS. The codewords of an accepted table (`41_huffman_tables.md`): prefix-free (R110), canonical (R152), and complete
in a literal/length or distance table (R162). -/

namespace Sys2Proof.Machine

/-- Settles O21: in a table that is not over-subscribed at most one codeword begins a sequence of bits, here the longer
codeword itself. -/
theorem acceptedCodesPrefixFree : Obligations.AcceptedCodesPrefixFree := by
  intro kind T s t hT hs ht h
  exact (acceptedTable.prefixFree hT).unique hs ht h List.prefix_rfl

/-! ### Canonical codewords -/

/-- `count[L]` of R152 over the code lengths as they stand in the table. -/
theorem lengthCount_lens (T : Table) (L : Nat) :
    lengthCount T.lens L = (T.len.filter fun x => L ≠ 0 ∧ x.toNat = L).length := by
  obtain rfl | hL := eq_or_ne L 0
  · simp [lengthCount]
  · rw [lengthCount, if_neg hL, Table.lens, List.countP_map, List.countP_eq_length_filter]
    congr 2
    funext x
    simp [hL, beq_eq_decide]

theorem Table.lens_getD {T : Table} {s : Nat} {x : BitVec 4} (h : T.len[s]? = some x) :
    T.lens.getD s 0 = x.toNat := by
  simp [Table.lens, h]

/-- How many symbols before `s` have its code length, counted in the table. -/
theorem codeRank_lens {T : Table} {s : Nat} {x : BitVec 4} (h : T.len[s]? = some x) :
    codeRank T.lens s = ((T.len.take s).filter fun y => y = x).length := by
  rw [codeRank, Table.lens_getD h, Table.lens, ← List.map_take, List.count, List.countP_map,
    List.countP_eq_length_filter]
  congr 2
  funext y
  simp [BitVec.toNat_eq, beq_eq_decide]

/-- Settles O22: `next` is `firstCode`, whose recurrence is that of R152, and a codeword is it plus the symbol's rank among
those of its length. -/
theorem canonicalCodewords : Obligations.CanonicalCodewords := by
  intro kind T hT
  refine ⟨firstCode T.lens, rfl, fun L => by rw [firstCode, lengthCount_lens], fun s x hx hx0 => ?_⟩
  have hL : x.toNat ≠ 0 := fun h => hx0 (BitVec.eq_of_toNat_eq h)
  have hs : s < T.len.length := (List.getElem?_eq_some_iff.1 hx).1
  have hcode := T.codes_getElem? s hs
  rw [Table.lens_getD hx, if_neg hL, codeRank_lens hx] at hcode
  exact ⟨hcode, ((acceptedTable.prefixFree hT).code_lt hcode hL).2⟩

/-! ### Complete tables -/

theorem fieldBits_bitsValue (l : List Bool) : fieldBits l.length (bitsValue l) = l := by
  induction l with
  | nil => rfl
  | cons b l ih =>
    have h2 : (b.toNat + 2 * bitsValue l) / 2 = bitsValue l := by
      have := b.toNat_lt
      omega
    rw [List.length_cons, bitsValue, fieldBits, h2, ih]
    cases b <;> simp

/-- Any bits are the codeword, most significant first, of the value they have in that order. -/
theorem codewordBits_bitsValue_reverse (l : List Bool) : codewordBits l.length (bitsValue l.reverse) = l := by
  have h := fieldBits_bitsValue l.reverse
  rw [List.length_reverse] at h
  rw [codewordBits, h, List.reverse_reverse]

/-- An accepted literal/length or distance table leaves no code space free (R150, R151). -/
theorem codeSpaceLeft_of_accepted {kind : TreeKind} {T : Table} (hk : kind ≠ .cl) (hT : build kind T.len = .ok T) :
    codeSpaceLeft T.lens 15 = 0 := by
  obtain ⟨-, hover, hle | ⟨hcl, -⟩⟩ := build_eq_ok.1 hT
  · have hle : codeSpaceLeft T.lens 15 ≤ 0 := hle
    have h := not_overSubscribed (lens := T.lens) hover (L := 15) (by decide) (by decide)
    rw [codeSpaceLeft_eq] at hle ⊢
    omega
  · exact absurd hcl hk

/-- Settles O23: the pattern, padded to 15 bits, lies in the subtree of some codeword; that is no longer than `T.maxlen`, so
it begins the pattern itself. -/
theorem completeTablesAlwaysMatch : Obligations.CompleteTablesAlwaysMatch := by
  intro kind T bits hk hT hlen
  have hmax := T.maxlen_le
  have hpad : (bits ++ List.replicate (15 - T.maxlen) false).length = 15 := by
    rw [List.length_append, List.length_replicate]
    omega
  generalize hl : bits ++ List.replicate (15 - T.maxlen) false = l at hpad
  have hlt := bitsValue_lt l.reverse
  have hword := codewordBits_bitsValue_reverse l
  rw [List.length_reverse, hpad] at hlt
  rw [hpad] at hword
  obtain ⟨s, L, hL1, hL15, hs⟩ := Table.complete_covers (codeSpaceLeft_of_accepted hk hT) hlt
  have hLmax : L ≤ bits.length := by
    rw [hlen]
    exact Table.le_maxlen (Table.codes_eq hs (by omega)).2.2.1
  have hbits : T.symbolBits s = bits.take L := by
    rw [symbolBits_of hs, ← codewordBits_take hL15, hword, ← hl, List.take_append_of_le_length hLmax]
  refine ⟨s, fun hnil => ?_, hbits ▸ List.take_prefix L bits⟩
  have hlength := congrArg List.length (hbits.symm.trans hnil)
  rw [List.length_take, List.length_nil] at hlength
  omega

end Sys2Proof.Machine
end

section
/-! PROOFS. The output side of memory (`20_memory.md` section 4): what `emit` writes (R66), one stored byte's frame (R187),
and the window as the history of the output (R67, R69). -/

namespace Sys2Proof.Machine

/-- Settles O28: both memories read after the write, the cursors one byte on, and everything else as it was. -/
theorem emitWrites : Obligations.EmitWrites := by
  intro b s
  exact ⟨fun a => Memory.read_write .., fun a => Memory.read_write .., rfl, rfl, rfl, rfl, rfl⟩

/-! ### One stored byte -/

/-- Of memory, a stored byte's row writes what `emit` writes (R66, R187). -/
theorem exec_storedData_memory {b : Byte} {s t : State} (h : exec (.storedData b) s = .next t) :
    t.outMem = Memory.write s.outMem s.cur.nextOut b ∧ t.win = s.win.push b ∧ t.inMem = s.inMem := by
  obtain ⟨-, ⟨b', hb, -, ht⟩ | ⟨hne, -⟩⟩ := exec_element rfl h
  · cases hb
    rw [ht]
    exact ⟨rfl, rfl, rfl⟩
  · exact absurd rfl (hne b)

/-- Settles O26: the count decides between going on and the end of the block, and the memories are those of `emit`. -/
theorem storedByte : Obligations.StoredByte := by
  intro b s n hn
  refine ⟨fun h => ?_, fun h hl => ?_, fun h hl => ?_, fun t ht => ?_⟩
  · rw [exec_storedData_of_ne_one hn h, goto]
  · subst h
    rw [exec_storedData_of_one hn]
    exact endBlock_notLast hl
  · subst h
    rw [exec_storedData_of_one hn]
    exact endBlock_last hl
  · obtain ⟨hout, hwin, hin⟩ := exec_storedData_memory ht
    rw [hout, hwin]
    exact ⟨Memory.read_write_self .., fun a => Memory.read_write_of_ne _ _, Memory.read_write_self ..,
      fun a => Memory.read_write_of_ne _ _, hin⟩

/-! ### The window after a sequence of bytes -/

/-- The window after the bytes `bs` are emitted into a cleared window of `2^wb` bytes. -/
def windowAfter (wb : BitVec 4) (bs : List Byte) : Window := bs.foldl Window.push ⟨wb, [], 0, 0⟩

theorem windowAfter_concat (wb : BitVec 4) (bs : List Byte) (b : Byte) :
    windowAfter wb (bs ++ [b]) = (windowAfter wb bs).push b := by
  rw [windowAfter, List.foldl_append]
  rfl

theorem windowAfter_spec (wb : BitVec 4) (bs : List Byte) :
    (windowAfter wb bs).capacity = 2 ^ wb.toNat ∧ (windowAfter wb bs).cursor < (windowAfter wb bs).capacity ∧
      (windowAfter wb bs).size = min bs.length (2 ^ wb.toNat) := by
  induction bs using List.reverseRecOn with
  | nil => exact ⟨rfl, Nat.two_pow_pos _, (Nat.zero_min _).symm⟩
  | append_singleton bs b ih =>
    obtain ⟨hcap, -, hsize⟩ := ih
    rw [windowAfter_concat, Window.push_capacity, Window.push_cursor, Window.push_size, hsize, hcap,
      List.length_append, List.length_singleton]
    exact ⟨rfl, Nat.mod_lt _ (Nat.two_pow_pos _), by omega⟩

/-- The byte at distance `d` is the `d`-th most recent: the last one emitted stands at distance 1, and every older one has
moved one further back (R69). -/
theorem read_windowAfter (wb : BitVec 4) (bs : List Byte) {d : Nat} (hd : 1 ≤ d) (hsize : d ≤ (windowAfter wb bs).size) :
    Memory.read (windowAfter wb bs).mem ((windowAfter wb bs).backIndex d) = bs[bs.length - d]? := by
  induction bs using List.reverseRecOn generalizing d with
  | nil => exact absurd (hd.trans hsize : 1 ≤ 0) (by decide)
  | append_singleton bs b ih =>
    obtain ⟨hcap, hcursor, hlen⟩ := windowAfter_spec wb bs
    rw [windowAfter_concat] at hsize ⊢
    rw [Window.push_size] at hsize
    rw [List.length_append, List.length_singleton]
    obtain rfl | ⟨e, he, rfl⟩ : d = 1 ∨ ∃ e, 1 ≤ e ∧ d = e + 1 := by
      obtain rfl | h := eq_or_ne d 1
      · exact .inl rfl
      · exact .inr ⟨d - 1, by omega, by omega⟩
    · rw [Window.read_push_one _ _ hcursor, Nat.add_sub_cancel, List.getElem?_append_right le_rfl, Nat.sub_self]
      rfl
    · rw [Window.read_push_succ _ _ e he (by omega) hcursor, ih he (by omega), Nat.add_sub_add_right,
        List.getElem?_append_left (by omega)]

/-- Settles O44: by the last byte emitted. -/
theorem backReference : Obligations.BackReference := by
  intro wb bs
  exact ⟨(windowAfter_spec wb bs).2.2, fun d hd hsize => read_windowAfter wb bs hd hsize⟩

end Sys2Proof.Machine
end

section
/-! PROOFS. The invariant of the machine (`10_state.md`, `40_bit_reader.md` R137): every step keeps it, and from a state with
it no step stops (R44, R61, R68). -/

namespace Sys2Proof.Machine

/-! ### A step between commands -/

/-- A machine at the start of a stream has the invariant, once its memories, its window and its cursors are in order: no
register is read there, and no bit is held. -/
theorem State.Inv.of_fresh {s : State} (hr : s.running = false) (hm : s.mode = .header) (hs : s.status = .ok)
    (ha : s.acc = ⟨0, 0⟩) (hin : Memory.wf s.inMem) (hout : Memory.wf s.outMem) (hw : s.win.ok)
    (hc : s.cursorsOk) : s.Inv where
  inMem := hin
  outMem := hout
  win := hw
  acc := by simp [State.accOk, State.heldOk, hm, ha]
  regs := by simp [State.regsOk, hm]
  input := fun h => by simp [hr] at h
  status := by simp [State.statusOk, hr, hm, hs]
  cursors := hc

/-- Settles O7: power-on is the start of a stream with nothing offered. -/
theorem powerOn : Obligations.PowerOn := by
  refine ⟨rfl, rfl, rfl, rfl, rfl, rfl, rfl, by simp [noScratchValue, State.reset, Scratch.reset], rfl, rfl, rfl, rfl, rfl,
    rfl, rfl, rfl, rfl, ?_⟩
  have hpos := Nat.two_pow_pos State.reset.params.cursorBits
  exact .of_fresh rfl rfl rfl rfl .nil .nil (Window.ok_clear ⟨15, [], 0, 0⟩) ⟨hpos, hpos, hpos, hpos, hpos, hpos⟩

/-- A command keeps the invariant: INIT and RESET start a fresh stream, and a DECODE offers regions that hold the offered
bytes (R270 to R274). -/
theorem inv_of_step_idle {s t : State} (hI : s.Inv) (hr : s.running = false) (h : step s = .next t) : t.Inv := by
  have hcur := step_cursorsOk hI.cursors h
  obtain ⟨-, rfl⟩ | ⟨p, rest, -, hinit | hreset | hdecode⟩ := step_idle hr h
  · exact hI
  · obtain ⟨-, -, r, -, rfl⟩ := hinit
    exact .of_fresh rfl rfl rfl rfl hI.inMem hI.outMem (Window.ok_clear ⟨BitVec.ofNat 4 p.wb, [], 0, 0⟩) hcur
  · obtain ⟨-, -, r, -, rfl⟩ := hreset
    refine .of_fresh rfl rfl rfl rfl hI.inMem hI.outMem ?_ hcur
    dsimp only
    split
    · exact hI.win
    · exact Window.ok_clear s.win
  · obtain ⟨-, hcon, hregions, -, ht, hmode⟩ := hdecode
    have hst := hI.status.2
    have hoffers := offered_all s.params p.args hregions
    rw [ht] at hcur ⊢
    refine ⟨Memory.wf_ofBytes _, Memory.wf_ofBytes _, hI.win, hI.acc, hI.regs.congr rfl rfl rfl, fun _ => hoffers, ?_,
      hcur⟩
    obtain ⟨hm, hrun, hs⟩ | ⟨hm, hrun, hs⟩ | ⟨hd, he, -, hs⟩ := hmode
    · exact ⟨fun h => by simp [hrun] at h, by simp [hm, hs]⟩
    · exact ⟨fun h => by simp [hrun] at h, by simpa [hm, hs] using hst⟩
    · exact ⟨fun _ => ⟨hcon, hd, he⟩, by rw [hs]; exact hst⟩

/-! ### Every step -/

/-- Settles O54: inside a DECODE the step's next state is in order part by part; between commands by the command. -/
theorem stepKeepsInvariant : Obligations.StepKeepsInvariant := by
  intro s t hI h
  cases hr : s.running with
  | false => exact inv_of_step_idle hI hr h
  | true =>
    obtain ⟨u, hu, hregs, hacc, hwin, hout, hin⟩ := step_next hI hr
    cases h.symm.trans hu
    obtain ⟨hstatus, hoffers, -⟩ := step_status hI hr h
    exact ⟨hin ▸ hI.inMem, hout, hwin, hacc, hregs, fun _ => hoffers, hstatus, step_cursorsOk hI.cursors h⟩

/-! ### No step stops -/

/-- A host command is run or refused, and is never a fault of the model (R270 to R280). -/
theorem exec_decodeHost_ne_fault (p : HostPacket) (s : State) (f : Fault) : exec (decodeHost p) s ≠ .fault f := by
  obtain h | h | h | h := hostCode_cases p
  · rw [decodeHost_of_zero h, exec, execInit]
    split <;> nofun
  · rw [decodeHost_of_one h, exec, execReset]
    split <;> nofun
  · rw [decodeHost_of_two h, exec, execDecode]
    split
    · nofun
    · split
      · nofun
      · split
        · nofun
        · unfold enterDecode
          split <;> nofun
  · rw [decodeHost_of_three_le h, exec_hostcmdReserved]
    nofun

theorem stepIdle_ne_fault (s : State) (f : Fault) : stepIdle s ≠ .fault f := by
  unfold stepIdle
  split
  · nofun
  · exact exec_decodeHost_ne_fault _ _ f

/-- Settles O55: inside a DECODE the step answers a next state; between commands it is no fault. -/
theorem runningNeverStops : Obligations.RunningNeverStops := by
  intro s hI
  refine ⟨fun hr => ?_, fun f => ?_⟩
  · obtain ⟨t, ht, -⟩ := step_next hI hr
    exact ⟨t, ht⟩
  · cases hr : s.running with
    | true =>
      obtain ⟨t, ht, -⟩ := step_next hI hr
      rw [ht]
      nofun
    | false =>
      rw [step, hr]
      exact stepIdle_ne_fault s f

end Sys2Proof.Machine
end

section
/-! PROOFS. A run of steps inside a DECODE (`45_host_commands.md` section 2): progress and termination (R278), how it
returns (R273, R282), and that it does not depend on how the stream is split (R279). -/

namespace Sys2Proof.Machine

/-! ### Progress -/

/-- The outcome INVALID ends the DECODE with a fault (R208, R234, R238). -/
theorem running_of_noMatch {f : Format} {i : Instr} {u t : State} (hd : decode (.noMatch f) = .ok i)
    (h : exec i u = .next t) : t.running = false := by
  cases f <;> cases hd <;> cases h <;> rfl

/-- An element's instruction takes no more bits and no input; a stored byte takes one byte of output space, and no other
element any. -/
theorem exec_upcoming_availOut {i : Instr} {u t : State} (hi : isElement i = true) (h : exec i u = .next t) :
    t.upcoming.length ≤ u.upcoming.length ∧ t.cur.availOut ≤ u.cur.availOut := by
  have hcnt := exec_acc_le hi h
  have hcur : t.cur.availIn = u.cur.availIn ∧ t.cur.availOut ≤ u.cur.availOut := by
    obtain ⟨-, ⟨b, -, -, ht⟩ | ⟨-, ht, -⟩⟩ := exec_element hi h
    · rw [ht]
      exact ⟨rfl, Nat.sub_le ..⟩
    · rw [ht]
      exact ⟨rfl, le_rfl⟩
  rw [upcoming_length, upcoming_length, hcur.1]
  exact ⟨Nat.add_le_add_right hcnt _, hcur.2⟩

/-- A byte emitted uses up output space and none of the stream to come (R66). -/
theorem emit_progress {s t : State} (b : Byte) (h0 : s.cur.availOut ≠ 0) (hup : t.upcoming = (emit b s).upcoming)
    (hout : t.cur = (emit b s).cur) : t.upcoming.length + t.cur.availOut < s.upcoming.length + s.cur.availOut ∧
      t.upcoming.length ≤ s.upcoming.length ∧ t.cur.availOut ≤ s.cur.availOut := by
  have hlt : (emit b s).cur.availOut = s.cur.availOut - 1 := rfl
  rw [hup, hout, emit_up, hlt]
  omega

/-- Settles O56: a step that goes on has run an element, whose fetch consumed at least a bit, or has emitted a byte in
`LIT_EMIT` or `COPY`; the other ways a step can end return. -/
theorem progressConsumes : Obligations.ProgressConsumes := by
  intro s t hI hr h htr
  obtain ⟨-, u, -, -, rfl⟩ | ⟨-, w, u, i, f, hf, -, hd, -, -, hi, he⟩ | ⟨-, -, rfl⟩ | ⟨-, h0, -, rfl⟩ |
    ⟨-, h0, -, -, b, -, rfl⟩ | ⟨-, rfl⟩ | ⟨-, rfl⟩ := step_running hr h
  · cases htr
  · obtain ⟨hreads, hle, ⟨f', rfl⟩ | hlt⟩ := fetch_consumes hI hf
    · rw [running_of_noMatch hd he] at htr
      cases htr
    · obtain ⟨hup, hout⟩ := exec_upcoming_availOut hi he
      have hcur : u.cur.availOut = s.cur.availOut := by rw [hreads]
      omega
  · cases htr
  · exact emit_progress s.scratch.litVal.val h0 rfl rfl
  · exact emit_progress b h0 rfl rfl
  · cases htr
  · cases htr

/-! ### `runDecode`, from its first step -/

theorem runDecode_of_not_running {s : State} (hr : s.running = false) (k : Nat) : runDecode k s = .next s := by
  cases k with
  | zero => rfl
  | succ k => rw [runDecode, hr]; rfl

theorem runDecode_of_step {s u : State} (hr : s.running = true) (h : step s = .next u) (k : Nat) :
    runDecode (k + 1) s = runDecode k u := by
  rw [runDecode, if_pos hr, h]

/-- A run that has returned took at least one step. -/
theorem runDecode_first {k : Nat} {s t : State} (hr : s.running = true) (h : runDecode k s = .next t)
    (ht : t.running = false) : ∃ j u, k = j + 1 ∧ step s = .next u ∧ runDecode j u = .next t := by
  cases k with
  | zero =>
    cases h
    exact absurd (hr.symm.trans ht) (by decide)
  | succ k =>
    obtain ⟨hn, -⟩ | ⟨-, u, hu, h⟩ := runDecode_succ h
    · exact absurd (hr.symm.trans hn) (by decide)
    · exact ⟨k, u, rfl, hu, h⟩

/-! ### Termination -/

/-- A DECODE with fewer than `k` bits to come and bytes of output space returns within `k` steps: each step that goes on
lowers their number (R278). -/
theorem runDecode_returns {k : Nat} {s : State} (hI : s.Inv) (hr : s.running = true)
    (hk : s.upcoming.length + s.cur.availOut < k) : ∃ t, runDecode k s = .next t ∧ t.running = false := by
  induction k generalizing s with
  | zero => cases hk
  | succ k ih =>
    obtain ⟨u, hu⟩ := (runningNeverStops s hI).1 hr
    rw [runDecode_of_step hr hu]
    cases hur : u.running with
    | false => exact ⟨u, runDecode_of_not_running hur k, hur⟩
    | true =>
      obtain ⟨hlt, -⟩ := progressConsumes s u hI hr hu hur
      exact ih (stepKeepsInvariant s u hI hu) hur (by omega)

/-- Settles O57: the bits to come are those held and those of the offered bytes. -/
theorem decodeTerminates : Obligations.DecodeTerminates := by
  intro s hI hr
  refine runDecode_returns hI hr ?_
  rw [upcoming_length]
  omega

/-! ### How a DECODE returns -/

/-- The states in which a DECODE has returned: finished, faulted, or suspended with no input or no output space left
(R273, R282). -/
def Returned (t : State) : Prop :=
  (t.mode = .done ∧ t.status = .endOfStream) ∨ (t.mode = .error ∧ ∃ e, t.status = .fault e) ∨
    (t.mode ≠ .done ∧ t.mode ≠ .error ∧ t.status = .ok ∧ (t.cur.availIn = 0 ∨ t.cur.availOut = 0))

theorem returned_of_step {s t : State} (hI : s.Inv) (hr : s.running = true) (h : step s = .next t)
    (ht : t.running = false) : Returned t := by
  obtain ⟨hm, u, hf, ⟨k, hreads, -⟩, rfl⟩ | ⟨-, w, u, i, f, -, ⟨k, hreads, -⟩, -, -, -, hi, he⟩ | ⟨hm, h0, rfl⟩ |
    ⟨-, -, -, rfl⟩ | ⟨-, -, -, -, b, -, rfl⟩ | ⟨hm, -⟩ | ⟨hm, -⟩ := step_running hr h
  · have hmode : u.mode = s.mode := by rw [hreads]
    have hspace := (fetch_suspend_pulled hI hf).2 hm
    refine .inr (.inr ⟨?_, ?_, rfl, hspace⟩) <;>
    · show u.mode ≠ _
      rw [hmode]
      exact fun he => by simp [he, Mode.readsElement] at hm
  · obtain ⟨hgo, -, -, -⟩ | ⟨-, hd, hs⟩ | ⟨-, he, hs, -⟩ := (exec_element hi he).1
    · have hrun : u.running = s.running := by rw [hreads]
      rw [ht, hrun, hr] at hgo
      cases hgo
    · exact .inl ⟨hd, hs⟩
    · exact .inr (.inl ⟨he, hs⟩)
  · refine .inr (.inr ⟨?_, ?_, rfl, .inr h0⟩) <;>
    · show s.mode ≠ _
      obtain hm | hm := hm <;> simp [hm]
  · exact absurd (hr.symm.trans ht) (by decide)
  · exact absurd (hr.symm.trans ht) (by decide)
  · exact absurd hm (hI.status.1 hr).2.1
  · exact absurd hm (hI.status.1 hr).2.2

/-- Settles O58: by the last step of the run. -/
theorem decodeReturns : Obligations.DecodeReturns := by
  intro k
  induction k with
  | zero =>
    intro s t _ hr h ht
    cases h
    exact absurd (hr.symm.trans ht) (by decide)
  | succ k ih =>
    intro s t hI hr h ht
    obtain ⟨_, u, hk, hu, h⟩ := runDecode_first hr h ht
    cases hk
    cases hur : u.running with
    | true => exact ih u t (stepKeepsInvariant s u hI hu) hur h ht
    | false =>
      rw [runDecode_of_not_running hur] at h
      cases h
      exact returned_of_step hI hr hu ht

/-! ### Independence of how the stream is split -/

/-- Two running states with the same first step run alike. -/
theorem runDecode_congr {s t : State} (hs : s.running = true) (ht : t.running = true) (h : step s = step t) {k : Nat}
    (hk : k ≠ 0) : runDecode k s = runDecode k t := by
  obtain ⟨k, rfl⟩ := Nat.exists_eq_succ_of_ne_zero hk
  rw [runDecode, runDecode, if_pos hs, if_pos ht, h]

/-- Settles O59: as long as the short run goes on, the long one takes the same steps with more offered; where the short one
suspends, taking it up again is the long run's next step. -/
theorem splitIndependence : Obligations.SplitIndependence := by
  intro j
  induction j with
  | zero =>
    intro k m p s t u _ hr h ht
    cases h
    exact absurd (hr.symm.trans ht) (by decide)
  | succ j ih =>
    intro k m p s t u hI hr h ht hnd hne hmore hu
    obtain ⟨_, v, hj, hv, h⟩ := runDecode_first hr h ht
    cases hj
    obtain ⟨hgoes, hsuspends⟩ := step_more (m := m) (p := p) hI hr hv
    obtain ⟨i, w, rfl, hw, hrest⟩ := runDecode_first (s := s.offerMore m p) hr hmore hu
    cases hvr : v.running with
    | true =>
      cases hw.symm.trans (hgoes hvr)
      exact ih i m p v t u (stepKeepsInvariant s v hI hv) hvr h ht hnd hne hrest hu
    | false =>
      rw [runDecode_of_not_running hvr] at h
      cases h
      refine ⟨i + 1, ?_⟩
      have hsame : step (s.offerMore m p) = step (t.offerMore m p).resume := hsuspends hvr hnd hne
      rw [← hmore]
      exact runDecode_congr (t := s.offerMore m p) rfl hr hsame.symm i.succ_ne_zero

end Sys2Proof.Machine
end

section
/-! PROOFS. What a step changes and what it leaves as it is: the output side of a step and of a run (R60, R62, R77, R276,
R277), the registers that only one rule writes (R7, R28, R42), and what a fault leaves (R303). -/

namespace Sys2Proof.Machine

/-! ### The output side of one step -/

/-- A step that writes no byte: neither memory, nor the window, nor an output cursor changes. -/
def KeepsOutput (s t : State) : Prop :=
  t.outMem = s.outMem ∧ t.win = s.win ∧ t.cur.nextOut = s.cur.nextOut ∧ t.cur.availOut = s.cur.availOut ∧
    t.cur.totalOut = s.cur.totalOut

/-- A step that writes the byte `b`: at `NEXT_OUT` and in the window, with output space (R66). -/
def Emits (b : Byte) (s t : State) : Prop :=
  s.cur.availOut ≠ 0 ∧ t.outMem = Memory.write s.outMem s.cur.nextOut b ∧ t.win = s.win.push b ∧
    t.cur.nextOut = advance s.params s.cur.nextOut 1 ∧ t.cur.availOut = s.cur.availOut - 1 ∧
    t.cur.totalOut = advance s.params s.cur.totalOut 1

theorem State.readsTo.keepsOutput {s u : State} (h : s.readsTo u) : u.inMem = s.inMem ∧ KeepsOutput s u := by
  rw [h]
  exact ⟨rfl, rfl, rfl, rfl, rfl, rfl⟩

/-- On the output side a step inside a DECODE writes no byte, or one (R62, R244). -/
theorem step_output {s t : State} (hr : s.running = true) (h : step s = .next t) :
    t.inMem = s.inMem ∧ (KeepsOutput s t ∨ ∃ b, Emits b s t) := by
  obtain ⟨-, u, -, ⟨k, hu, -⟩, rfl⟩ | ⟨-, w, u, i, f, hf, ⟨k, hu, -⟩, hd, hfm, hw, hi, he⟩ | ⟨-, -, rfl⟩ |
    ⟨-, h0, -, rfl⟩ | ⟨-, h0, -, -, b, -, rfl⟩ | ⟨-, rfl⟩ | ⟨-, rfl⟩ := step_running hr h
  · obtain ⟨hin, hout⟩ := hu.keepsOutput
    exact ⟨hin, .inl hout⟩
  · obtain ⟨hin, hmem, hwin, hnext, havail, htotal⟩ := hu.keepsOutput
    obtain ⟨-, ⟨b, rfl, -, ht⟩ | ⟨-, ht, -⟩⟩ := exec_element hi he
    · rw [ht]
      refine ⟨hin, .inr ⟨b, storedData_availOut hf hfm hw hd, ?_, ?_, ?_, ?_, ?_⟩⟩
      · rw [← hmem, ← hnext]
        rfl
      · rw [← hwin]
        rfl
      · rw [← hnext, ← hu.params_eq]
        rfl
      · rw [← havail]
        rfl
      · rw [← htotal, ← hu.params_eq]
        rfl
    · rw [ht]
      exact ⟨hin, .inl ⟨hmem, hwin, hnext, havail, htotal⟩⟩
  · exact ⟨rfl, .inl ⟨rfl, rfl, rfl, rfl, rfl⟩⟩
  · exact ⟨rfl, .inr ⟨_, h0, rfl, rfl, rfl, rfl, rfl⟩⟩
  · exact ⟨rfl, .inr ⟨b, h0, rfl, rfl, rfl, rfl, rfl⟩⟩
  · exact ⟨rfl, .inl ⟨rfl, rfl, rfl, rfl, rfl⟩⟩
  · exact ⟨rfl, .inl ⟨rfl, rfl, rfl, rfl, rfl⟩⟩

/-- Settles O50: `TOTAL_OUT` tells the two kinds of steps apart, since a cursor that moves one byte on changes. -/
theorem stepOutputFrame : Obligations.StepOutputFrame := by
  intro s t hr h
  obtain ⟨hin, ⟨hmem, hwin, -, -, htotal⟩ | ⟨b, h0, hmem, -, -, -, htotal⟩⟩ := step_output hr h
  · exact ⟨hin, fun a _ => by rw [hmem], fun _ => hmem, fun _ => ⟨hmem, hwin⟩, .inl htotal⟩
  · refine ⟨hin, fun a ha => ?_, fun hz => absurd hz h0, fun hsame => ?_, .inr htotal⟩
    · rw [hmem, Memory.read_write_of_ne _ _ ha]
    · exact absurd (htotal.symm.trans hsame) (advance_one_ne _ _)

/-! ### The output side of a run -/

/-- A run writes no index but those of the offered range, as the cursor reaches them. -/
theorem runDecode_output {k : Nat} {s t : State} (h : runDecode k s = .next t) :
    s.running = true → t.inMem = s.inMem ∧ ∀ a, (∀ j, j < s.cur.availOut → a ≠ advance s.params s.cur.nextOut j) →
      Memory.read t.outMem a = Memory.read s.outMem a := by
  induction k generalizing s with
  | zero =>
    cases h
    exact fun _ => ⟨rfl, fun _ _ => rfl⟩
  | succ k ih =>
    intro hr
    obtain ⟨hn, -⟩ | ⟨-, u, hu, h⟩ := runDecode_succ h
    · exact absurd (hr.symm.trans hn) (by decide)
    have hrest : t.inMem = u.inMem ∧ ∀ a, (∀ j, j < u.cur.availOut → a ≠ advance u.params u.cur.nextOut j) →
        Memory.read t.outMem a = Memory.read u.outMem a := by
      cases hur : u.running with
      | true => exact ih h hur
      | false =>
        rw [runDecode_of_not_running hur] at h
        cases h
        exact ⟨rfl, fun _ _ => rfl⟩
    obtain ⟨hin, hread⟩ := hrest
    rw [step_params hu] at hread
    obtain ⟨hin', ⟨hmem, -, hnext, havail, -⟩ | ⟨b, h0, hmem, -, hnext, havail, -⟩⟩ := step_output hr hu
    · rw [hnext, havail, hmem] at hread
      exact ⟨hin.trans hin', hread⟩
    · refine ⟨hin.trans hin', fun a ha => ?_⟩
      rw [hread a fun j hj => ?_, hmem, Memory.read_write_of_ne]
      · exact ha 0 (by omega)
      · rw [hnext, advance_advance]
        exact ha (1 + j) (by omega)

/-- Settles O51: the indices of the range are the cursor's, each modulo its register. -/
theorem decodeWritesOnlyOffered : Obligations.DecodeWritesOnlyOffered := by
  intro k s t hc hr h
  obtain ⟨hin, hread⟩ := runDecode_output h hr
  obtain ⟨-, -, -, hnext, -⟩ := hc
  exact ⟨hin, fun a ha => hread a fun j hj => by rw [advance_eq_mod hnext]; exact ha j hj⟩

/-! ### The accounting of a run -/

theorem Cursors.moved_moved (p : Config.Params) (c : Cursors) (m n m' n' : Nat) :
    (c.moved p m n).moved p m' n' = c.moved p (m + m') (n + n') := by
  simp only [Cursors.moved, advance_advance, Nat.sub_sub]

/-- A run moves the cursors by what it consumed and produced, never more than was offered (R276). -/
theorem runDecode_cur {k : Nat} {s t : State} (h : runDecode k s = .next t) :
    ∃ m n, m ≤ s.cur.availIn ∧ n ≤ s.cur.availOut ∧ t.cur = s.cur.moved s.params m n := by
  induction k generalizing s with
  | zero =>
    cases h
    exact ⟨0, 0, Nat.zero_le _, Nat.zero_le _, rfl⟩
  | succ k ih =>
    obtain ⟨-, rfl⟩ | ⟨hr, u, hu, h⟩ := runDecode_succ h
    · exact ⟨0, 0, Nat.zero_le _, Nat.zero_le _, rfl⟩
    · obtain ⟨m, n, hm, hn, -, hcur⟩ := step_cur hr hu
      obtain ⟨m', n', hm', hn', hcur'⟩ := ih h
      rw [hcur] at hm' hn'
      refine ⟨m + m', n + n', ?_, ?_, by rw [hcur', hcur, step_params hu, Cursors.moved_moved]⟩
      · exact Nat.add_le_of_le_sub' hm hm'
      · exact Nat.add_le_of_le_sub' hn hn'

/-- Settles O53: of cursors that fit their registers, moving is adding modulo `2^CURSOR_BITS`. -/
theorem decodeAccounting : Obligations.DecodeAccounting := by
  intro k s t hc _ h
  obtain ⟨m, n, hm, hn, hcur⟩ := runDecode_cur h
  obtain ⟨h1, -, h3, h4, -, h6⟩ := hc
  refine ⟨m, n, hm, hn, ?_⟩
  rw [hcur, Cursors.moved, advance_eq_mod h1, advance_eq_mod h3, advance_eq_mod h4, advance_eq_mod h6]

/-! ### The output region is never read -/

/-- Of two output regions `m` and `n`, after a step `m'` and `n'`: every index either keeps its byte in both, or holds the
same in both. -/
def SameWrites (m m' n n' : Memory) : Prop :=
  ∀ a, (Memory.read m' a = Memory.read m a ∧ Memory.read n' a = Memory.read n a) ∨ Memory.read m' a = Memory.read n' a

theorem SameWrites.refl (m n : Memory) : SameWrites m m n n := fun _ => .inl ⟨rfl, rfl⟩

theorem SameWrites.write (m n : Memory) (x : Nat) (b : Byte) :
    SameWrites m (Memory.write m x b) n (Memory.write n x b) := by
  intro a
  obtain rfl | ha := eq_or_ne a x
  · exact .inr (by rw [Memory.read_write_self, Memory.read_write_self])
  · exact .inl ⟨Memory.read_write_of_ne _ _ ha, Memory.read_write_of_ne _ _ ha⟩

/-- An element that has been fetched runs the same with another output region; a stored byte is written to both. -/
theorem exec_withOutMem {i : Instr} {u t : State} (hi : isElement i = true) (h : exec i u = .next t) (m : Memory) :
    ∃ m', exec i (withOutMem m u) = .next (withOutMem m' t) ∧ SameWrites m m' u.outMem t.outMem := by
  obtain ⟨-, ⟨b, rfl, -, ht⟩ | ⟨hne, ht, -⟩⟩ := exec_element hi h
  · have hrun := withOutput_stored u.cur m b u
    have hcur : t.cur = u.cur.produce u.params := by rw [ht]; rfl
    have hout : t.outMem = Memory.write u.outMem u.cur.nextOut b := by rw [ht]; rfl
    rw [h, mapNext, ← hcur] at hrun
    exact ⟨_, hrun, hout ▸ .write m u.outMem u.cur.nextOut b⟩
  · have hrun := withOutput_exec u.cur m i u hi hne
    have hcur : t.cur = u.cur := by rw [ht]
    have hout : t.outMem = u.outMem := by rw [ht]
    have hkeep : withOutput u.cur m t = withOutMem m t := by rw [← hcur]; rfl
    rw [h, mapNext, hkeep] at hrun
    exact ⟨m, hrun, hout ▸ .refl m u.outMem⟩

/-- Inside a DECODE, a step in `DONE` returns at once (R274). -/
theorem step_done {s : State} (hr : s.running = true) (hm : s.mode = .done) :
    step s = .next { s with status := .endOfStream, running := false } := by
  rw [step, if_pos hr, stepRunning, hm, enterDecode, hm]

theorem step_withOutMem {s t : State} (hr : s.running = true) (h : step s = .next t) (m : Memory) :
    ∃ m', step (withOutMem m s) = .next (withOutMem m' t) ∧ SameWrites m m' s.outMem t.outMem := by
  obtain ⟨hm, u, hf, ⟨k, hu, -⟩, rfl⟩ | ⟨hm, w, u, i, f, hf, ⟨k, hu, -⟩, hd, -, -, hi, he⟩ | ⟨hm, h0, rfl⟩ |
    ⟨hm, h0, hw, rfl⟩ | ⟨hm, h0, hd, hc, b, hb, rfl⟩ | ⟨hm, rfl⟩ | ⟨hm, rfl⟩ := step_running hr h
  · refine ⟨m, ?_, hu.keepsOutput.2.1.symm ▸ .refl m s.outMem⟩
    rw [step_element (s := withOutMem m s) hr hm, withOutMem_fetch, hf]
    rfl
  · obtain ⟨m', hrun, hsame⟩ := exec_withOutMem hi he m
    refine ⟨m', ?_, hu.keepsOutput.2.1 ▸ hsame⟩
    rw [step_element (s := withOutMem m s) hr hm, withOutMem_fetch, hf, Fetched.mapState, runFetched, runWord, hd]
    exact hrun
  · refine ⟨m, ?_, .refl m s.outMem⟩
    obtain hm | hm := hm
    · exact (step_litEmit (s := withOutMem m s) hr hm).trans (stepLitEmit_of_no_space h0)
    · exact (step_copy (s := withOutMem m s) hr hm).trans (stepCopy_of_no_space h0)
  · exact ⟨_, (step_litEmit (s := withOutMem m s) hr hm).trans (stepLitEmit_of_space h0 (Reg.eq_put hw)),
      .write m s.outMem s.cur.nextOut s.scratch.litVal.val⟩
  · exact ⟨_, (step_copy (s := withOutMem m s) hr hm).trans
      (stepCopy_of_winBack (s := withOutMem m s) h0 (Reg.eq_put hd) (Reg.eq_put hc) hb),
      .write m s.outMem s.cur.nextOut b⟩
  · exact ⟨m, step_done (s := withOutMem m s) hr hm, .refl m s.outMem⟩
  · exact ⟨m, step_error (s := withOutMem m s) hr hm, .refl m s.outMem⟩

/-- Settles O52: the fetch, the element's instruction and the two emitting steps each run the same with another region. -/
theorem outputNeverRead : Obligations.OutputNeverRead := fun _ _ m hr h => step_withOutMem hr h m

/-! ### Registers that only one rule writes -/

/-- Settles O46: a step inside a DECODE leaves the window as it is or pushes a byte; of the commands RESET and DECODE keep
the capacity. -/
theorem onlyInitChangesWindowBits : Obligations.OnlyInitChangesWindowBits := by
  intro s t h hne
  cases hr : s.running with
  | true =>
    obtain ⟨-, ⟨-, hwin, -⟩ | ⟨b, -, -, hwin, -⟩⟩ := step_output hr h
    · exact absurd (congrArg Window.windowBits hwin) hne
    · exact absurd (congrArg Window.windowBits hwin) hne
  | false =>
    obtain ⟨-, rfl⟩ | ⟨p, rest, hp, ⟨hcode, -⟩ | ⟨-, -, r, -, rfl⟩ | ⟨-, -, -, -, ht, -⟩⟩ := step_idle hr h
    · exact absurd rfl hne
    · exact ⟨rfl, p, rest, hp, hcode⟩
    · refine absurd ?_ hne
      dsimp only
      split <;> rfl
    · rw [ht] at hne
      exact absurd rfl hne

/-- A block header is read in the mode `HEADER` (R29, R93). -/
theorem format_of_header {f : Format} {w : InstrWord} {i : Instr} {last : Bool}
    (hw : (∃ v, w = .field f v) ∨ w = .noMatch f) (hd : decode w = .ok i)
    (hi : i = .blockStored last ∨ i = .blockFixed last ∨ i = .blockDynamic last ∨ i = .blockReserved last) :
    f = .hdr3 := by
  obtain ⟨-, ⟨hf, -⟩ | ⟨-, len, nlen, rfl⟩ | ⟨-, b, rfl⟩ | ⟨hne, -⟩⟩ := decode_format hw hd
  · exact hf
  · simp at hi
  · simp at hi
  · obtain ⟨h1, h2, h3, h4⟩ := hne last
    tauto

/-- Settles O47: of the elements only a header writes `LAST`, of the commands only INIT and RESET, which clear it. -/
theorem onlyHeadersWriteLast : Obligations.OnlyHeadersWriteLast := by
  intro s t h hne
  cases hr : s.running with
  | true =>
    refine .inl ⟨rfl, ?_⟩
    obtain ⟨-, u, -, ⟨k, hu, -⟩, rfl⟩ | ⟨-, w, u, i, f, -, ⟨k, hu, -⟩, hd, hfm, hw, hi, he⟩ | ⟨-, -, rfl⟩ |
      ⟨-, -, -, rfl⟩ | ⟨-, -, -, -, b, -, rfl⟩ | ⟨-, rfl⟩ | ⟨-, rfl⟩ := step_running hr h
    · exact absurd (by rw [hu]) hne
    · have hscratch : u.scratch = s.scratch := by rw [hu]
      rw [← hscratch] at hne
      obtain ⟨-, ⟨b, -, hlast, -⟩ | ⟨-, -, hlast | ⟨last, hhdr⟩⟩⟩ := exec_element hi he
      · exact absurd hlast hne
      · exact absurd hlast hne
      · rw [← hfm, format_of_header hw hd hhdr]
        rfl
    all_goals exact absurd rfl hne
  | false =>
    refine .inr ⟨rfl, ?_⟩
    obtain ⟨-, rfl⟩ | ⟨p, rest, hp, ⟨hcode, -, r, hr, rfl⟩ | ⟨hcode, -, r, hr, rfl⟩ | ⟨-, -, -, -, ht, -⟩⟩ :=
      step_idle hr h
    · exact absurd rfl hne
    · exact ⟨p, rest, hp, .inl hcode, hr.1⟩
    · exact ⟨p, rest, hp, .inr hcode, hr.1⟩
    · rw [ht] at hne
      exact absurd rfl hne

/-- Settles O60: `Params` counts the bits above the least legal widths, so that it has exactly the legal ones. -/
theorem parametersFixed : Obligations.ParametersFixed :=
  ⟨fun _ _ => step_params, fun _ => ⟨Nat.le_add_right .., Nat.le_add_right ..⟩,
    fun c a hc ha => ⟨⟨c - 16, a - 32⟩, Nat.add_sub_cancel' hc, Nat.add_sub_cancel' ha⟩⟩

end Sys2Proof.Machine
end

section
/-! PROOFS. Exceptions (`60_exceptions.md`): a fault writes `MODE` and `STATUS`, ends the DECODE, and leaves what its own
rule had written (R303). -/

namespace Sys2Proof.Machine

/-! ### The scratch registers at a fault -/

/-- A result that, where it stands in `ERROR`, has scratch registers of which `P` holds. -/
def RaisesWith (P : Scratch → Prop) (r : Result) : Prop := ∀ t, r = .next t → t.mode = .error → P t.scratch

section
variable {P : Scratch → Prop}

theorem RaisesWith.raise {e : StreamFault} {u : State} (h : P u.scratch) : RaisesWith P (raise e u) := by
  intro t ht _
  cases ht
  exact h

theorem RaisesWith.goto {m : Mode} {u : State} (hm : m ≠ .error) : RaisesWith P (goto m u) := by
  intro t ht he
  cases ht
  exact absurd he hm

theorem RaisesWith.fault {f : Fault} : RaisesWith P (.fault f) := fun _ ht => nomatch ht

theorem RaisesWith.readReg {α : Type} {name : RegName} {r : Reg α} {k : α → Result} (h : ∀ v, RaisesWith P (k v)) :
    RaisesWith P (readReg name r k) := fun t ht => h r.val t (readReg_eq_next.1 ht).2

theorem RaisesWith.endBlock {u : State} : RaisesWith P (endBlock u) := by
  refine .readReg fun last => ?_
  split
  · intro t ht he
    cases ht
    cases he
  · exact .goto (by decide)

theorem RaisesWith.dynCounts {a b : BitVec 5} {c : BitVec 4} {s : State} (h : P (writeCounts a b c s).scratch) :
    RaisesWith P (dynCounts a b c s) := by
  unfold Machine.dynCounts
  dsimp only
  split
  · exact .raise h
  · exact .goto (by decide)

theorem RaisesWith.buildCL {lens : Vector (BitVec 3) 19} {u : State} (h : P u.scratch) :
    RaisesWith P (buildCL lens u) := by
  unfold Machine.buildCL
  split
  · exact .raise h
  · exact .goto (by decide)

theorem RaisesWith.clcEntry {len : BitVec 3} {s : State}
    (h : ∀ lens index, P { s.scratch with clcLens := lens, clcIndex := index }) :
    RaisesWith P (execClcEntry len s) := by
  refine .readReg fun index => .readReg fun lens => .readReg fun hclen => ?_
  split
  · exact .fault
  · dsimp only
    split
    · exact .buildCL (h _ _)
    · exact .goto (by decide)

theorem RaisesWith.finishLens {lens : Vector (BitVec 4) 316} {hlit : BitVec 9} {hdist : BitVec 6} {u : State}
    (h : P u.scratch) : RaisesWith P (finishLens lens hlit hdist u) := by
  unfold Machine.finishLens
  split
  · exact .raise h
  · split
    · exact .raise h
    · split
      · exact .raise h
      · exact .goto (by decide)

theorem RaisesWith.appendLens {n : Nat} {val : BitVec 4} {lens : Vector (BitVec 4) 316} {index hlit : BitVec 9}
    {hdist : BitVec 6} {s : State} (h : ∀ lens index, P { s.scratch with lens := lens, lensIndex := index }) :
    RaisesWith P (appendLens n val lens index hlit hdist s) := by
  unfold Machine.appendLens
  split
  · exact .fault
  · dsimp only
    split
    · exact .finishLens (h _ _)
    · exact .goto (by decide)

theorem RaisesWith.repeatLens {n : Nat} {val : Vector (BitVec 4) 316 → BitVec 9 → Except Fault (BitVec 4)} {s : State}
    (h : ∀ lens index, P { s.scratch with lens := lens, lensIndex := index }) :
    RaisesWith P (repeatLens n val s) := by
  refine .readReg fun lens => .readReg fun index => .readReg fun hlit => .readReg fun hdist => ?_
  split
  · exact .fault
  · split
    · exact .raise (h s.scratch.lens s.scratch.lensIndex)
    · exact .appendLens h

theorem RaisesWith.checkDist {dist : BitVec 16} {u : State} (h : P u.scratch) : RaisesWith P (checkDist dist u) := by
  unfold Machine.checkDist
  split
  · exact .raise h
  · exact .readReg fun _ => .goto (by decide)

theorem RaisesWith.distSymbol {n : Nat} {s : State} (h : ∀ sym dist, P { s.scratch with sym := sym, dist := dist }) :
    RaisesWith P (distSymbol n s) := by
  unfold Machine.distSymbol
  dsimp only
  split
  · exact .goto (by decide)
  · exact .checkDist (h _ _)

/-- A distance symbol with extra bits raises nothing: its distance is not complete (R237). -/
theorem RaisesWith.distSymbol_extra {sym : Nat} {s : State} (h : 0 < dextra sym) :
    RaisesWith P (Machine.distSymbol sym s) := by
  unfold Machine.distSymbol
  dsimp only
  rw [if_pos h]
  exact .goto (by decide)

end

/-- A stored byte raises nothing (R187). -/
theorem RaisesWith.storedData {P : Scratch → Prop} {b : Byte} {s : State} : RaisesWith P (execStoredData b s) := by
  refine .readReg fun n => ?_
  dsimp only
  split
  · exact .endBlock
  · exact .goto (by decide)

/-! ### By instruction -/

/-- What the scratch registers are after the fault of an instruction that found `r`: `r'` is `r` but for the registers that
the instruction's rule writes before it raises (R184, R200, R201, R203, R206, R237, R239). -/
def FaultScratch (i : Instr) (r r' : Scratch) : Prop :=
  r' = r ∨
    (∃ last, i = .blockReserved last ∧ r' = { r with last := .put last }) ∨
    (∃ a b c, (i = .dynHeader a b c ∨ i = .dynHeaderTooManyHlit a b c ∨ i = .dynHeaderTooManyHdist a b c) ∧
      r' = { r with hlit := r'.hlit, hdist := r'.hdist, hclen := r'.hclen }) ∨
    (∃ x, i = .clcEntry x ∧ r' = { r with clcLens := r'.clcLens, clcIndex := r'.clcIndex }) ∨
    (((∃ x, i = .clLen x) ∨ (∃ x, i = .cl16Extra x) ∨ (∃ x, i = .cl17Extra x) ∨ (∃ x, i = .cl18Extra x)) ∧
      r' = { r with lens := r'.lens, lensIndex := r'.lensIndex }) ∨
    ((i = .dist0 ∨ i = .dist1 ∨ i = .dist2 ∨ i = .dist3) ∧ r' = { r with sym := r'.sym, dist := r'.dist }) ∨
    (∃ n y, i = .distExtra n y ∧ r' = { r with dist := r'.dist })

theorem exec_raisesWith (i : Instr) (s : State) (hi : isElement i = true) :
    RaisesWith (FaultScratch i s.scratch) (exec i s) := by
  cases i with
  | init | reset | decode | hostcmdReserved => simp [isElement, encode] at hi
  | blockStored | blockFixed | blockDynamic => exact .goto (by decide)
  | blockReserved last => exact .raise (.inr (.inl ⟨last, rfl, rfl⟩))
  | storedLen len nlen =>
    rw [exec, execStoredLen]
    split
    · exact .raise (.inl rfl)
    · dsimp only
      split
      · exact .endBlock
      · exact .goto (by decide)
  | storedData b => exact .storedData
  | dynHeader a b c => exact .dynCounts (.inr (.inr (.inl ⟨a, b, c, .inl rfl, rfl⟩)))
  | dynHeaderTooManyHlit a b c => exact .dynCounts (.inr (.inr (.inl ⟨a, b, c, .inr (.inl rfl), rfl⟩)))
  | dynHeaderTooManyHdist a b c => exact .dynCounts (.inr (.inr (.inl ⟨a, b, c, .inr (.inr rfl), rfl⟩)))
  | clcEntry x => exact .clcEntry fun _ _ => .inr (.inr (.inr (.inl ⟨x, rfl, rfl⟩)))
  | clLen x =>
    rw [exec, execClLen]
    refine .readReg fun _ => .readReg fun _ => .readReg fun _ => .readReg fun _ => .appendLens fun _ _ => ?_
    exact .inr (.inr (.inr (.inr (.inl ⟨.inl ⟨x, rfl⟩, rfl⟩))))
  | cl16Extra x =>
    rw [exec, execCl16Extra]
    exact .repeatLens fun _ _ => .inr (.inr (.inr (.inr (.inl ⟨.inr (.inl ⟨x, rfl⟩), rfl⟩))))
  | cl17Extra x =>
    rw [exec, execCl17Extra]
    exact .repeatLens fun _ _ => .inr (.inr (.inr (.inr (.inl ⟨.inr (.inr (.inl ⟨x, rfl⟩)), rfl⟩))))
  | cl18Extra x =>
    rw [exec, execCl18Extra]
    exact .repeatLens fun _ _ => .inr (.inr (.inr (.inr (.inl ⟨.inr (.inr (.inr ⟨x, rfl⟩)), rfl⟩))))
  | clRepeatPrev =>
    rw [exec, execClRepeatPrev]
    refine .readReg fun _ => ?_
    split
    · exact .raise (.inl rfl)
    · exact .goto (by decide)
  | clRepeatZeroShort | clRepeatZeroLong | lit => exact .goto (by decide)
  | eob => exact .endBlock
  | lenExtra n x => exact .readReg fun _ => .goto (by decide)
  | distExtra n y =>
    exact .readReg fun _ => .checkDist (.inr (.inr (.inr (.inr (.inr (.inr ⟨n, y, rfl, rfl⟩))))))
  | clNoMatch | llNoMatch | dNoMatch | llInvalid286 | llInvalid287 | dInvalid30 | dInvalid31 => exact .raise (.inl rfl)
  | dist0 =>
    rw [exec, execDist0]
    exact .distSymbol fun _ _ => .inr (.inr (.inr (.inr (.inr (.inl ⟨.inl rfl, rfl⟩)))))
  | dist1 =>
    rw [exec, execDist1]
    exact .distSymbol fun _ _ => .inr (.inr (.inr (.inr (.inr (.inl ⟨.inr (.inl rfl), rfl⟩)))))
  | dist2 =>
    rw [exec, execDist2]
    exact .distSymbol fun _ _ => .inr (.inr (.inr (.inr (.inr (.inl ⟨.inr (.inr (.inl rfl)), rfl⟩)))))
  | dist3 =>
    rw [exec, execDist3]
    exact .distSymbol fun _ _ => .inr (.inr (.inr (.inr (.inr (.inl ⟨.inr (.inr (.inr rfl)), rfl⟩)))))
  | dist4 | dist5 | dist6 | dist7 | dist8 | dist9 | dist10 | dist11 | dist12 | dist13 | dist14 | dist15 | dist16
  | dist17 | dist18 | dist19 | dist20 | dist21 | dist22 | dist23 | dist24 | dist25 | dist26 | dist27 | dist28
  | dist29 =>
    simp only [exec, execDist4, execDist5, execDist6, execDist7, execDist8, execDist9, execDist10, execDist11, execDist12,
      execDist13, execDist14, execDist15, execDist16, execDist17, execDist18, execDist19, execDist20, execDist21,
      execDist22, execDist23, execDist24, execDist25, execDist26, execDist27, execDist28, execDist29]
    exact .distSymbol_extra (by decide)
  | len257 | len258 | len259 | len260 | len261 | len262 | len263 | len264 | len265 | len266 | len267 | len268
  | len269 | len270 | len271 | len272 | len273 | len274 | len275 | len276 | len277 | len278 | len279 | len280
  | len281 | len282 | len283 | len284 | len285 => exact .goto (by decide)

/-- Settles O49: the rest of the state by what an element can change at all, and the scratch registers by instruction. -/
theorem faultChangesNothingElse : Obligations.FaultChangesNothingElse := by
  intro i s t hi h he
  refine ⟨?_, exec_raisesWith i s hi t h he⟩
  obtain ⟨hend, ⟨b, rfl, -⟩ | ⟨-, ht, -⟩⟩ := exec_element hi h
  · exact (RaisesWith.storedData (P := fun _ => False) t h he).elim
  · cases hend with
    | goesOn _ _ hne => exact absurd he hne
    | finished _ hd => exact absurd (hd.symm.trans he) (by decide)
    | raised hrun _ hs hacc =>
      obtain ⟨e, hs⟩ := hs
      refine ⟨e, ?_⟩
      rw [hacc, hrun, he, hs] at ht
      exact ht

end Sys2Proof.Machine
end

section
/-! PROOFS. DECODE as a command (`45_host_commands.md`, R272 to R274, R283, R334): what it checks, what it takes from the
host, and the stream that it offers (R23, R63); and the host-visible registers (R21, R22, R300). -/

namespace Sys2Proof.Machine

/-! ### The checks and the entry -/

/-- Two offered ranges overlap where some byte of the host's memory is in both (R334(b)). -/
theorem rangesOverlap_iff (a : DecodeArgs) : rangesOverlap a ↔ ∃ i j : Nat, i < a.availIn ∧ j < a.availOut ∧
    a.inRegion.base + a.nextIn + i = a.outRegion.base + a.nextOut + j := by
  constructor
  · rintro ⟨hin, hout, h1, h2⟩
    obtain hle | hge := Nat.le_total (a.inRegion.base + a.nextIn) (a.outRegion.base + a.nextOut)
    · exact ⟨a.outRegion.base + a.nextOut - (a.inRegion.base + a.nextIn), 0, by omega, by omega, by omega⟩
    · exact ⟨0, a.inRegion.base + a.nextIn - (a.outRegion.base + a.nextOut), by omega, by omega, by omega⟩
  · rintro ⟨i, j, hi, hj, he⟩
    unfold rangesOverlap
    omega

section
variable {a : DecodeArgs} {s : State}

theorem exec_decode_of_not_constructed (h : s.constructed = false) : exec (.decode a) s = .refused .beforeInit := by
  rw [exec, execDecode, if_pos (by simp [h])]

theorem exec_decode_of_short (h : s.constructed = true) (hr : ¬ regionsHold (receivedArgs s.params a)) :
    exec (.decode a) s = .refused .regionTooShort := by
  rw [exec, execDecode, if_neg (not_not.2 h), if_pos hr]

theorem exec_decode_of_overlap (h : s.constructed = true) (hr : regionsHold (receivedArgs s.params a))
    (ho : rangesOverlap (receivedArgs s.params a)) : exec (.decode a) s = .refused .rangesOverlap := by
  rw [exec, execDecode, if_neg (not_not.2 h), if_neg (not_not.2 hr), if_pos ho]

theorem exec_decode_of_checked (h : s.constructed = true) (hr : regionsHold (receivedArgs s.params a))
    (ho : ¬ rangesOverlap (receivedArgs s.params a)) :
    exec (.decode a) s = enterDecode (offer (receivedArgs s.params a) s) := by
  rw [exec, execDecode, if_neg (not_not.2 h), if_neg (not_not.2 hr), if_neg ho]

/-- A DECODE that is not refused has passed its three checks. -/
theorem exec_decode_eq_next {t : State} (h : exec (.decode a) s = .next t) :
    regionsHold (receivedArgs s.params a) ∧ enterDecode (offer (receivedArgs s.params a) s) = .next t := by
  cases hc : s.constructed with
  | false =>
    rw [exec_decode_of_not_constructed hc] at h
    cases h
  | true =>
    by_cases hr : regionsHold (receivedArgs s.params a)
    · by_cases ho : rangesOverlap (receivedArgs s.params a)
      · rw [exec_decode_of_overlap hc hr ho] at h
        cases h
      · exact ⟨hr, exec_decode_of_checked hc hr ho ▸ h⟩
    · rw [exec_decode_of_short hc hr] at h
      cases h

theorem enterDecode_of_not_terminal (hd : s.mode ≠ .done) (he : s.mode ≠ .error) :
    enterDecode s = .next { s with running := true } := by
  unfold enterDecode
  split
  case h_1 hm => exact absurd hm hd
  case h_2 hm => exact absurd hm he
  all_goals rfl

theorem enterDecode_done (h : s.mode = .done) :
    enterDecode s = .next { s with status := .endOfStream, running := false } := by
  rw [enterDecode, h]

theorem enterDecode_error (h : s.mode = .error) : enterDecode s = .next { s with running := false } := by
  rw [enterDecode, h]

/-- Entering the loop writes `STATUS` and whether a DECODE is in progress, and nothing else (R273, R274). -/
theorem enterDecode_eq_next {t : State} (h : enterDecode s = .next t) :
    t = { s with status := t.status, running := t.running } := by
  unfold enterDecode at h
  split at h <;> cases h <;> rfl

end

/-- Settles O11: past the checks DECODE enters the loop with what the host wrote. -/
theorem decodeStartsLoop : Obligations.DecodeStartsLoop := by
  intro a s hc b hr ho hd he
  rw [exec_decode_of_checked hc hr (mt (rangesOverlap_iff b).1 ho),
    enterDecode_of_not_terminal (s := offer b s) hd he]
  rfl

/-- Settles O12: past the checks DECODE returns at once in the two terminal modes. -/
theorem decodeInTerminalModes : Obligations.DecodeInTerminalModes := by
  intro a s hc b hr ho
  rw [exec_decode_of_checked hc hr (mt (rangesOverlap_iff b).1 ho)]
  exact ⟨fun hm => enterDecode_done (s := offer b s) hm, fun hm => enterDecode_error (s := offer b s) hm⟩

theorem exec_reset_of_not_constructed {s : State} (h : s.constructed = false) (keep : Bool) :
    exec (.reset keep) s = .refused .beforeInit := by
  rw [exec, execReset, if_pos (by simp [h])]

/-- Settles O13: the checks in their order. -/
theorem commandRefusals : Obligations.CommandRefusals := by
  refine ⟨fun s hc => ⟨exec_reset_of_not_constructed hc, fun a => exec_decode_of_not_constructed hc⟩, fun a s hc => ?_⟩
  refine ⟨fun hshort => exec_decode_of_short hc ?_, fun hr ho => exec_decode_of_overlap hc hr ((rangesOverlap_iff _).2 ho)⟩
  unfold regionsHold
  omega

/-! ### The offered stream -/

/-- The bytes offered are those the host's region holds from `NEXT_IN` on, where no index wraps. -/
theorem offeredBytes_eq {s : State} {bs : List Byte} (hmem : s.inMem = .ofBytes bs)
    (hlen : s.cur.nextIn + s.cur.availIn ≤ bs.length) (hfit : s.cur.nextIn + s.cur.availIn ≤ 2 ^ s.params.cursorBits) :
    s.offeredBytes = (bs.drop s.cur.nextIn).take s.cur.availIn := by
  refine List.ext_getElem (by simp [State.offeredBytes]; omega) fun k h1 _ => ?_
  have hk : k < s.cur.availIn := by simpa [State.offeredBytes] using h1
  have hindex : advance s.params s.cur.nextIn k = s.cur.nextIn + k := by
    rw [advance_eq_mod (by omega), Nat.mod_eq_of_lt (by omega)]
  have hget : bs[s.cur.nextIn + k]? = some (bs[s.cur.nextIn + k]'(by omega)) := List.getElem?_eq_getElem _
  simp [State.offeredBytes, hmem, hindex, hget]

/-- Settles O14: the accumulator is as it was, and the offered bytes are the region's. -/
theorem offeredStream : Obligations.OfferedStream := by
  intro a s t hfit h
  obtain ⟨hregions, henter⟩ := exec_decode_eq_next h
  have ht := enterDecode_eq_next henter
  have hheld : t.heldBits = s.heldBits := by rw [ht]; rfl
  have hmem : t.inMem = .ofBytes a.inRegion.bytes := by rw [ht]; rfl
  have hlen : t.cur.nextIn + t.cur.availIn ≤ a.inRegion.bytes.length := by rw [ht]; exact hregions.1
  rw [State.upcoming, hheld, offeredBytes_eq hmem hlen hfit]

/-! ### The host-visible registers -/

/-- `BITPOS` is below its modulus, and with `BITCNT` it is the number of bits of the bytes consumed (R21). -/
theorem bitPos_spec (s : State) : bitPos s < 2 ^ (s.params.cursorBits + 3) ∧
    (bitPos s + s.acc.cnt.toNat) % 2 ^ (s.params.cursorBits + 3) =
      8 * s.cur.totalIn % 2 ^ (s.params.cursorBits + 3) := by
  have hcnt : s.acc.cnt.toNat ≤ 2 ^ (s.params.cursorBits + 3) := by
    have h1 := s.acc.cnt.isLt
    have h2 : 2 ^ 6 ≤ 2 ^ (s.params.cursorBits + 3) :=
      Nat.pow_le_pow_right (by decide) (by unfold Config.Params.cursorBits; omega)
    omega
  refine ⟨Nat.mod_lt _ (Nat.two_pow_pos _), ?_⟩
  rw [bitPos, Nat.mod_add_mod, Nat.add_assoc, Nat.sub_add_cancel hcnt, Nat.add_mod_right]

/-- Settles O15: the register file and the status codes by their tables, and `BITPOS` by its congruence. -/
theorem hostRegisters : Obligations.HostRegisters := by
  refine ⟨fun s => ⟨rfl, rfl, rfl, rfl, rfl, rfl, rfl, rfl, fun i hi => ?_⟩, rfl, rfl, rfl, rfl, rfl, rfl, rfl, rfl, rfl, rfl,
    rfl, rfl, rfl, bitPos_spec⟩
  unfold hostRegister
  split
  case h_9 => rfl
  all_goals omega

/-! ### The step and its instruction -/

/-- Settles O16: the four ways a step begins. -/
theorem stepRunsDecodedInstruction : Obligations.StepRunsDecodedInstruction := by
  refine ⟨fun s t w i hr hm hf hd => ?_, fun s t hr hm hf => ?_, fun s p rest i hr hp hd => ?_, fun s hr hp => ?_⟩
  · rw [step_element hr hm, hf, runFetched, runWord, hd]
  · rw [step_element hr hm, hf, runFetched, suspend]
  · rw [step, if_neg (by simp [hr]), stepIdle, hp]
    simp only [runWord, hd]
  · rw [step, if_neg (by simp [hr]), stepIdle, hp]

end Sys2Proof.Machine
end

section
/-! PROOFS. The elements' instructions, each as an equation for its next state: stored lengths (R185), code lengths (R201 to
R206), the symbols without a meaning (R208, R234, R238), and lengths and distances (R236 to R240). -/

namespace Sys2Proof.Machine

/-! ### The stored length header -/

section
variable {len nlen : BitVec 16}

theorem exec_storedLen_of_ne (h : len ≠ ~~~nlen) (s : State) :
    exec (.storedLen len nlen) s = raise .invalidStoredBlockLengths s := by
  rw [exec, execStoredLen, if_pos h]

/-- A length with its complement is kept in `STORED_REMAIN`, and the bits held are dropped (R185). -/
theorem exec_storedLen_of_eq (h : len = ~~~nlen) (s : State) : exec (.storedLen len nlen) s =
    if len = 0 then endBlock { flush s with scratch := { s.scratch with storedRemain := .put len } }
    else goto .storedCopy { flush s with scratch := { s.scratch with storedRemain := .put len } } := by
  rw [exec, execStoredLen, if_neg (not_not.2 h)]
  rfl

end

/-- Settles O25: the complement check, and then the length, decide the outcome. -/
theorem storedLength : Obligations.StoredLength := by
  intro len nlen s
  refine ⟨fun hne => ?_, fun heq h0 => ?_, fun heq h0 hl => ?_, fun heq h0 hl => ?_⟩
  · rw [exec_storedLen_of_ne hne, raise]
  · rw [exec_storedLen_of_eq heq, if_neg h0]
    rfl
  · rw [exec_storedLen_of_eq heq, if_pos h0, h0]
    exact endBlock_notLast hl
  · rw [exec_storedLen_of_eq heq, if_pos h0, h0]
    exact endBlock_last hl

/-! ### Code-length-code lengths -/

/-- One code-length-code length with its registers written (R201). -/
theorem exec_clcEntry_of_put {len : BitVec 3} {s : State} {lens : Vector (BitVec 3) 19} {index hclen : BitVec 5}
    {sym : Nat} (hlens : s.scratch.clcLens = .put lens) (hindex : s.scratch.clcIndex = .put index)
    (hhclen : s.scratch.hclen = .put hclen) (hsym : clcOrder[index.toNat]? = some sym) :
    exec (.clcEntry len) s =
      if index + 1 = hclen then buildCL (lens.setIfInBounds sym len) { s with scratch := { s.scratch with
        clcLens := .put (lens.setIfInBounds sym len), clcIndex := .put (index + 1) } }
      else goto .dynClc { s with scratch := { s.scratch with
        clcLens := .put (lens.setIfInBounds sym len), clcIndex := .put (index + 1) } } := by
  rw [exec, execClcEntry, hindex, readReg_put, hlens, readReg_put, hhclen, readReg_put, hsym]

section
variable {lens : Vector (BitVec 3) 19}

theorem buildCL_of_error {e : StreamFault} (h : build .cl (clcLensList lens) = .error e) (s : State) :
    buildCL lens s = raise e s := by
  rw [buildCL, h]

theorem buildCL_of_ok {T : Table} (h : build .cl (clcLensList lens) = .ok T) (s : State) :
    buildCL lens s = goto .dynLens { s with scratch := { s.scratch with
      tblCL := .put T, lensIndex := .put 0, lens := .put (Vector.replicate 316 0) } } := by
  rw [buildCL, h]

end

/-- Settles O30: the index decides whether the table is built, and BUILD what then happens. -/
theorem codeLengthCodeEntry : Obligations.CodeLengthCodeEntry := by
  intro len s lens index hclen sym hlens hindex hhclen hsym lens'
  rw [exec_clcEntry_of_put hlens hindex hhclen hsym]
  refine ⟨fun hne => ?_, fun heq e he => ?_, fun heq T hT => ?_⟩
  · rw [if_neg hne, goto]
  · rw [if_pos heq, buildCL_of_error he, raise]
  · rw [if_pos heq, buildCL_of_ok hT, goto]

/-! ### Code lengths -/

section
variable {s : State} {lens : Vector (BitVec 4) 316} {index hlit : BitVec 9} {hdist : BitVec 6}

/-- A code-length symbol 0..15 with its registers written appends one length (R203). -/
theorem exec_clLen_of_put (hlens : s.scratch.lens = .put lens) (hindex : s.scratch.lensIndex = .put index)
    (hhlit : s.scratch.hlit = .put hlit) (hhdist : s.scratch.hdist = .put hdist) (len : BitVec 4) :
    exec (.clLen len) s = appendLens 1 len lens index hlit hdist s := by
  rw [exec, execClLen, hlens, readReg_put, hindex, readReg_put, hhlit, readReg_put, hhdist, readReg_put]

/-- A repeat with its registers written and its value found: past the last length it raises, and otherwise its lengths are
appended (R206). -/
theorem repeatLens_of_put (hlens : s.scratch.lens = .put lens) (hindex : s.scratch.lensIndex = .put index)
    (hhlit : s.scratch.hlit = .put hlit) (hhdist : s.scratch.hdist = .put hdist) {n : Nat} {v : BitVec 4}
    {val : Vector (BitVec 4) 316 → BitVec 9 → Except Fault (BitVec 4)} (hval : val lens index = .ok v) :
    repeatLens n val s =
      if hlit.toNat + hdist.toNat < index.toNat + n then raise .invalidBitLengthRepeat s
      else appendLens n v lens index hlit hdist s := by
  rw [repeatLens, hlens, readReg_put, hindex, readReg_put, hhlit, readReg_put, hhdist, readReg_put, hval]

/-- The lengths before a repeat give it a value to copy (R206). -/
theorem previousLen_of_pos {v : BitVec 4} (h : 1 ≤ index.toNat) (hv : lens[index.toNat - 1]? = some v) :
    previousLen lens index = .ok v := by
  rw [previousLen, if_neg (by rintro rfl; cases h), hv]

/-- Appending lengths inside the array: on to the next symbol, or to `FINISH_LENS` at the last (R203, R206). -/
theorem appendLens_of_fill {n : Nat} {val : BitVec 4} {lens' : Vector (BitVec 4) 316}
    (hfill : fillLens lens index.toNat n val = .ok lens') (hfit : index.toNat + n < 2 ^ 9) :
    appendLens n val lens index hlit hdist s =
      if index.toNat + n = hlit.toNat + hdist.toNat then finishLens lens' hlit hdist { s with
        scratch := { s.scratch with lens := .put lens', lensIndex := .put (BitVec.ofNat 9 (index.toNat + n)) } }
      else goto .dynLens { s with
        scratch := { s.scratch with lens := .put lens', lensIndex := .put (BitVec.ofNat 9 (index.toNat + n)) } } := by
  have hindex : index + BitVec.ofNat 9 n = BitVec.ofNat 9 (index.toNat + n) := by bv_omega
  have hnat : (BitVec.ofNat 9 (index.toNat + n)).toNat = index.toNat + n := Nat.mod_eq_of_lt hfit
  simp only [appendLens, hfill, hindex, hnat]

end

/-- Settles O31: one length appended, at an index inside the array. -/
theorem codeLengthAppended : Obligations.CodeLengthAppended := by
  intro len s lens index hlit hdist hlens hindex hhlit hhdist hlt lens'
  have hnext : BitVec.ofNat 9 (index.toNat + 1) = index + 1 := by bv_omega
  rw [exec_clLen_of_put hlens hindex hhlit hhdist, appendLens_of_fill (fillLens_one lens _ len hlt) (by omega), hnext]
  refine ⟨fun hne => ?_, fun heq => ?_⟩
  · rw [if_neg hne, goto]
  · rw [if_pos heq]

/-- The three repeats as one operation: how many copies, and of what (R206). -/
theorem exec_repeat {i : Instr} {n : Nat} {v : BitVec 4} {lens : Vector (BitVec 4) 316} {index : BitVec 9}
    (hi : (∃ x : BitVec 2, i = .cl16Extra x ∧ n = 3 + x.toNat ∧ 1 ≤ index.toNat ∧ lens[index.toNat - 1]? = some v) ∨
      (∃ x : BitVec 3, i = .cl17Extra x ∧ n = 3 + x.toNat ∧ v = 0) ∨
      (∃ x : BitVec 7, i = .cl18Extra x ∧ n = 11 + x.toNat ∧ v = 0)) :
    ∃ val, val lens index = .ok v ∧ ∀ s, exec i s = repeatLens n val s := by
  obtain ⟨x, rfl, rfl, hpos, hv⟩ | ⟨x, rfl, rfl, rfl⟩ | ⟨x, rfl, rfl, rfl⟩ := hi
  · exact ⟨previousLen, previousLen_of_pos hpos hv, fun s => by rw [exec, execCl16Extra]⟩
  · exact ⟨fun _ _ => .ok 0, rfl, fun s => by rw [exec, execCl17Extra]⟩
  · exact ⟨fun _ _ => .ok 0, rfl, fun s => by rw [exec, execCl18Extra]⟩

/-- Filling inside the array, and what each element is then (R206). -/
theorem exists_fillLens (lens : Vector (BitVec 4) 316) {start n : Nat} (h : start + n ≤ 316) (val : BitVec 4) :
    ∃ lens', fillLens lens start n val = .ok lens' ∧
      ∀ (j : Nat) (hj : j < 316), lens'[j] = if start ≤ j ∧ j < start + n then val else lens[j] :=
  ⟨_, if_pos h, fun j hj => by rw [Vector.getElem_ofFn]; rfl⟩

/-- Settles O33: the three repeats are `repeatLens` at their count and value. -/
theorem repeatExtras : Obligations.RepeatExtras := by
  intro i n v s lens index hlit hdist hlens hindex hhlit hhdist hmax hi
  obtain ⟨val, hval, hexec⟩ := exec_repeat hi
  rw [hexec, repeatLens_of_put hlens hindex hhlit hhdist hval]
  refine ⟨fun hgt => ?_, fun hle => ?_⟩
  · rw [if_pos hgt, raise]
  · obtain ⟨lens', hfill, hget⟩ := exists_fillLens lens (start := index.toNat) (n := n) (by omega) v
    rw [if_neg (by omega), appendLens_of_fill hfill (by omega)]
    refine ⟨lens', hget, fun hne => ?_, fun heq => ?_⟩
    · rw [if_neg hne, goto]
    · rw [if_pos heq]

/-! ### Symbols without a meaning -/

/-- Settles O35: each row of the list runs `raise` with its fault. -/
theorem invalidSymbols : Obligations.InvalidSymbols := by
  intro i e s hi
  simp only [List.mem_cons, Prod.mk.injEq, List.not_mem_nil, or_false] at hi
  obtain ⟨rfl, rfl⟩ | ⟨rfl, rfl⟩ | ⟨rfl, rfl⟩ | ⟨rfl, rfl⟩ | ⟨rfl, rfl⟩ | ⟨rfl, rfl⟩ | ⟨rfl, rfl⟩ := hi <;> rfl

/-! ### Lengths and distances -/

/-- Settles O38: `LENGTH` is written, so the row reads it and adds. -/
theorem lengthExtra : Obligations.LengthExtra := by
  intro n x s l hl
  rw [exec, execLenExtra, hl, readReg_put, goto, addLengthExtra]

section
variable {dist : BitVec 16} {s : State}

theorem checkDist_of_lt (h : s.win.size < dist.toNat) : checkDist dist s = raise .invalidDistance s := by
  rw [checkDist, if_pos h]

theorem checkDist_of_le (h : dist.toNat ≤ s.win.size) {l : BitVec 9} (hl : s.scratch.length = .put l) :
    checkDist dist s = goto .copy { s with scratch := { s.scratch with copyRemain := .put l } } := by
  rw [checkDist, if_neg h.not_gt, hl, readReg_put]

end

/-- What a distance symbol decodes to runs the rule of that symbol (R237). -/
theorem exec_of_decode_distSymbol {sym : Nat} {i : Instr} (hsym : isDistSymbol sym)
    (hi : decode (.field .dsym sym) = .ok i) (s : State) : exec i s = distSymbol sym s := by
  interval_cases sym
  all_goals
    cases hi
    rfl

/-- An instruction with a distance symbol and its base distance, as R100 tabulates them. -/
abbrev IsDistRow (extra : Bool) : Instr × Nat × Nat → Prop
  | (i, sym, base) =>
    isDistSymbol sym ∧ decode (.field .dsym sym) = .ok i ∧ dbase sym = base ∧ base < 2 ^ 16 ∧ decide (0 < dextra sym) = extra

theorem distSymbol_of_extra {sym : Nat} (h : 0 < dextra sym) (s : State) : distSymbol sym s =
    goto .distExtra { s with scratch := { s.scratch with
      sym := .put (BitVec.ofNat 9 sym), dist := .put (BitVec.ofNat 16 (dbase sym)) } } := by
  rw [distSymbol, if_pos h]

theorem distSymbol_of_no_extra {sym : Nat} (h : ¬ 0 < dextra sym) (s : State) : distSymbol sym s =
    checkDist (BitVec.ofNat 16 (dbase sym)) { s with scratch := { s.scratch with
      sym := .put (BitVec.ofNat 9 sym), dist := .put (BitVec.ofNat 16 (dbase sym)) } } := by
  rw [distSymbol, if_neg h]

/-- Settles O39: without extra bits the base distance is the whole distance, and is checked. -/
theorem distSymbolsWithoutExtra : Obligations.DistSymbolsWithoutExtra := by
  intro i sym base s hi
  obtain ⟨hsym, hdecode, rfl, hfit, hextra⟩ := (show ∀ row ∈ _, IsDistRow false row by decide) _ hi
  have hnat : (BitVec.ofNat 16 (dbase sym)).toNat = dbase sym := Nat.mod_eq_of_lt hfit
  rw [exec_of_decode_distSymbol hsym hdecode, distSymbol_of_no_extra (of_decide_eq_false hextra)]
  refine ⟨fun hlt => ?_, fun l hle hl => ?_⟩
  · exact checkDist_of_lt (hnat.symm ▸ hlt)
  · exact checkDist_of_le (hnat.symm ▸ hle) hl

/-- Settles O40: with extra bits the base distance waits for them. -/
theorem distSymbolsWithExtra : Obligations.DistSymbolsWithExtra := by
  intro i sym base s hi
  obtain ⟨hsym, hdecode, rfl, -, hextra⟩ := (show ∀ row ∈ _, IsDistRow true row by decide) _ hi
  rw [exec_of_decode_distSymbol hsym hdecode, distSymbol_of_extra (of_decide_eq_true hextra), goto]

theorem exec_distExtra_of_put {s : State} {d : BitVec 16} (hd : s.scratch.dist = .put d) (n : Nat) (y : BitVec 13) :
    exec (.distExtra n y) s = checkDist (d + y.setWidth 16)
      { s with scratch := { s.scratch with dist := .put (d + y.setWidth 16) } } := by
  rw [exec, execDistExtra, hd, readReg_put]
  rfl

/-- Settles O41: the sum is written to `DIST` and checked. -/
theorem distExtra : Obligations.DistExtra := by
  intro n y s d hd
  rw [exec_distExtra_of_put hd]
  refine ⟨fun hlt => checkDist_of_lt hlt, fun l hle hl => ?_⟩
  refine checkDist_of_le ?_ ?_
  · exact hle
  · exact hl

end Sys2Proof.Machine
end

section
/-! PROOFS. The checks of the model (R44, R68, R133; log entries 6 and 19): in a state that breaks the invariant a read of a
register or a byte without a value, and an index out of range, stop the machine. -/

namespace Sys2Proof.Machine

/-! ### Checks of an instruction -/

/-- The instructions that write code lengths read `LENS`, `LENS_INDEX`, `HLIT` and `HDIST`, in that order (R203, R206). -/
theorem exec_lens_reads {i : Instr}
    (hi : (∃ x, i = .clLen x) ∨ (∃ x, i = .cl16Extra x) ∨ (∃ x, i = .cl17Extra x) ∨ (∃ x, i = .cl18Extra x)) (s : State) :
    ∃ k : Vector (BitVec 4) 316 → BitVec 9 → BitVec 9 → BitVec 6 → Result,
      exec i s = readReg .LENS s.scratch.lens fun lens => readReg .LENS_INDEX s.scratch.lensIndex fun index =>
        readReg .HLIT s.scratch.hlit fun hlit => readReg .HDIST s.scratch.hdist fun hdist => k lens index hlit hdist := by
  obtain ⟨x, rfl⟩ | ⟨x, rfl⟩ | ⟨x, rfl⟩ | ⟨x, rfl⟩ := hi
  · exact ⟨_, by rw [exec, execClLen]⟩
  · exact ⟨_, by rw [exec, execCl16Extra, repeatLens]⟩
  · exact ⟨_, by rw [exec, execCl17Extra, repeatLens]⟩
  · exact ⟨_, by rw [exec, execCl18Extra, repeatLens]⟩

section
variable {s : State} {i : Instr}

theorem lens_faults
    (hi : (∃ x, i = .clLen x) ∨ (∃ x, i = .cl16Extra x) ∨ (∃ x, i = .cl17Extra x) ∨ (∃ x, i = .cl18Extra x)) :
    (s.scratch.lens.written = false → exec i s = .fault (.unwrittenRegister .LENS)) ∧
    (s.scratch.lens.written = true → s.scratch.lensIndex.written = false →
      exec i s = .fault (.unwrittenRegister .LENS_INDEX)) ∧
    (s.scratch.lens.written = true → s.scratch.lensIndex.written = true → s.scratch.hlit.written = false →
      exec i s = .fault (.unwrittenRegister .HLIT)) ∧
    (s.scratch.lens.written = true → s.scratch.lensIndex.written = true → s.scratch.hlit.written = true →
      s.scratch.hdist.written = false → exec i s = .fault (.unwrittenRegister .HDIST)) := by
  obtain ⟨k, hk⟩ := exec_lens_reads hi s
  rw [hk]
  refine ⟨fun h1 => ?_, fun h1 h2 => ?_, fun h1 h2 h3 => ?_, fun h1 h2 h3 h4 => ?_⟩
  · rw [readReg_unwritten _ _ _ h1]
  · rw [readReg_written _ _ _ h1, readReg_unwritten _ _ _ h2]
  · rw [readReg_written _ _ _ h1, readReg_written _ _ _ h2, readReg_unwritten _ _ _ h3]
  · rw [readReg_written _ _ _ h1, readReg_written _ _ _ h2, readReg_written _ _ _ h3, readReg_unwritten _ _ _ h4]

theorem clcEntry_faults (x : BitVec 3) :
    (s.scratch.clcIndex.written = false → exec (.clcEntry x) s = .fault (.unwrittenRegister .CLC_INDEX)) ∧
    (s.scratch.clcIndex.written = true → s.scratch.clcLens.written = false →
      exec (.clcEntry x) s = .fault (.unwrittenRegister .CLC_LENS)) ∧
    (s.scratch.clcIndex.written = true → s.scratch.clcLens.written = true → s.scratch.hclen.written = false →
      exec (.clcEntry x) s = .fault (.unwrittenRegister .HCLEN)) ∧
    (s.scratch.clcIndex.written = true → s.scratch.clcLens.written = true → s.scratch.hclen.written = true →
      19 ≤ s.scratch.clcIndex.val.toNat →
      exec (.clcEntry x) s = .fault (.arrayIndexInvalid .CLC_LENS s.scratch.clcIndex.val.toNat)) := by
  rw [exec, execClcEntry]
  refine ⟨fun h1 => ?_, fun h1 h2 => ?_, fun h1 h2 h3 => ?_, fun h1 h2 h3 hindex => ?_⟩
  · rw [readReg_unwritten _ _ _ h1]
  · rw [readReg_written _ _ _ h1, readReg_unwritten _ _ _ h2]
  · rw [readReg_written _ _ _ h1, readReg_written _ _ _ h2, readReg_unwritten _ _ _ h3]
  · rw [readReg_written _ _ _ h1, readReg_written _ _ _ h2, readReg_written _ _ _ h3,
      List.getElem?_eq_none (by simpa [clcOrder] using hindex)]

/-- An index outside `LENS` (R36, log entry 19). -/
theorem lens_index_faults (h1 : s.scratch.lens.written = true) (h2 : s.scratch.lensIndex.written = true)
    (h3 : s.scratch.hlit.written = true) (h4 : s.scratch.hdist.written = true) :
    (∀ x, 316 ≤ s.scratch.lensIndex.val.toNat →
      exec (.clLen x) s = .fault (.arrayIndexInvalid .LENS s.scratch.lensIndex.val.toNat)) ∧
    ∀ x, s.scratch.lensIndex.val = 0 → exec (.cl16Extra x) s = .fault (.arrayIndexInvalid .LENS 0) := by
  refine ⟨fun x hindex => ?_, fun x hindex => ?_⟩
  · rw [exec_clLen_of_put (Reg.eq_put h1) (Reg.eq_put h2) (Reg.eq_put h3) (Reg.eq_put h4), appendLens, fillLens,
      if_neg (by omega)]
    rfl
  · rw [exec, execCl16Extra, repeatLens, readReg_written _ _ _ h1, readReg_written _ _ _ h2, readReg_written _ _ _ h3,
      readReg_written _ _ _ h4, previousLen, if_pos hindex]

/-- A distance within the window needs `LENGTH` for the copy (R240). -/
theorem dist0_fault (hsize : 1 ≤ s.win.size) (h : s.scratch.length.written = false) :
    exec .dist0 s = .fault (.unwrittenRegister .LENGTH) := by
  rw [exec_of_decode_distSymbol (sym := 0) (by decide) rfl, distSymbol_of_no_extra (by decide)]
  exact (if_neg (Nat.not_lt.2 hsize)).trans (readReg_unwritten _ _ _ h)

end

/-! ### Checks of a step inside a DECODE -/

theorem fetchReg_unwritten {α : Type} (name : RegName) (r : Reg α) (k : α → Fetched) (h : r.written = false) :
    fetchReg name r k = .stop (.unwrittenRegister name) := by
  rw [fetchReg, if_neg (by simp [h])]

section
variable {s : State} (hr : s.running = true)
include hr

/-- A fetch that stops is a step that stops. -/
theorem step_of_fetch_stop {f : Fault} (hm : s.mode.readsElement = true) (hf : fetch s = .stop f) :
    step s = .fault f := by
  rw [step_element hr hm, hf, runFetched]

theorem storedCopy_fault (hm : s.mode = .storedCopy) (hin : s.cur.availIn ≠ 0) (hout : s.cur.availOut ≠ 0)
    (hb : Memory.read s.inMem s.cur.nextIn = none) : step s = .fault (.absentInputByte s.cur.nextIn) := by
  rw [step_storedCopy hr hm, fetchStored, if_neg (not_or.2 ⟨hin, hout⟩), readIn, hb, runFetched]

theorem dynLens_fault (hm : s.mode = .dynLens) (h : s.scratch.tblCL.written = false) :
    step s = .fault (.unwrittenRegister .TBL_CL) := by
  refine step_of_fetch_stop hr (by rw [hm]; rfl) ?_
  rw [fetch, hm]
  exact fetchReg_unwritten _ _ _ h

theorem dynRepeat_faults (hm : s.mode = .dynRepeat) :
    (s.scratch.repSym.written = false → step s = .fault (.unwrittenRegister .REP_SYM)) ∧
    (s.scratch.repSym.written = true → s.scratch.repSym.val ≠ 16 → s.scratch.repSym.val ≠ 17 →
      s.scratch.repSym.val ≠ 18 → step s = .fault (.registerOutOfRange .REP_SYM)) := by
  have hread : s.mode.readsElement = true := by rw [hm]; rfl
  have hf : fetch s = fetchRepeat s := by rw [fetch, hm]
  refine ⟨fun h => step_of_fetch_stop hr hread ?_, fun h h16 h17 h18 => step_of_fetch_stop hr hread ?_⟩
  · rw [hf]
    exact fetchReg_unwritten _ _ _ h
  · rw [hf, fetchRepeat, fetchReg_written _ _ _ h]
    split
    case h_1 heq => exact absurd (BitVec.eq_of_toNat_eq heq) h16
    case h_2 heq => exact absurd (BitVec.eq_of_toNat_eq heq) h17
    case h_3 heq => exact absurd (BitVec.eq_of_toNat_eq heq) h18
    case h_4 => rfl

theorem tableSel_fault (hm : s.mode = .llSym ∨ s.mode = .distSym) (h : s.scratch.tableSel.written = false) :
    step s = .fault (.unwrittenRegister .TABLESEL) := by
  obtain hm | hm := hm <;>
  · refine step_of_fetch_stop hr (by rw [hm]; rfl) ?_
    rw [fetch, hm]
    exact fetchReg_unwritten _ _ _ h

theorem llSym_fault (hm : s.mode = .llSym) (hsel : s.scratch.tableSel = .put .dynamic)
    (h : s.scratch.tblLL.written = false) : step s = .fault (.unwrittenRegister .TBL_LL) := by
  refine step_of_fetch_stop hr (by rw [hm]; rfl) ?_
  rw [fetch, hm]
  simp only [withTableLL]
  rw [hsel, fetchReg_written _ _ _ rfl]
  exact fetchReg_unwritten _ _ _ h

theorem distSym_fault (hm : s.mode = .distSym) (hsel : s.scratch.tableSel = .put .dynamic)
    (h : s.scratch.tblD.written = false) : step s = .fault (.unwrittenRegister .TBL_D) := by
  refine step_of_fetch_stop hr (by rw [hm]; rfl) ?_
  rw [fetch, hm]
  simp only [withTableD]
  rw [hsel, fetchReg_written _ _ _ rfl]
  exact fetchReg_unwritten _ _ _ h

theorem sym_unwritten_fault (hm : s.mode = .lenExtra ∨ s.mode = .distExtra) (h : s.scratch.sym.written = false) :
    step s = .fault (.unwrittenRegister .SYM) := by
  obtain hm | hm := hm <;>
  · refine step_of_fetch_stop hr (by rw [hm]; rfl) ?_
    rw [fetch, hm]
    exact fetchReg_unwritten _ _ _ h

theorem lenExtra_range_fault (hm : s.mode = .lenExtra) (h : s.scratch.sym.written = true)
    (hsym : s.scratch.sym.val.toNat < 257 ∨ 285 < s.scratch.sym.val.toNat) :
    step s = .fault (.registerOutOfRange .SYM) := by
  refine step_of_fetch_stop hr (by rw [hm]; rfl) ?_
  rw [fetch, hm]
  simp only [fetchLenExtra]
  rw [fetchReg_written _ _ _ h, if_neg (by unfold isLengthSymbol; omega)]

theorem distExtra_range_fault (hm : s.mode = .distExtra) (h : s.scratch.sym.written = true)
    (hsym : 29 < s.scratch.sym.val.toNat) : step s = .fault (.registerOutOfRange .SYM) := by
  refine step_of_fetch_stop hr (by rw [hm]; rfl) ?_
  rw [fetch, hm]
  simp only [fetchDistExtra]
  rw [fetchReg_written _ _ _ h, if_neg hsym.not_ge]

theorem litEmit_fault (hm : s.mode = .litEmit) (hout : s.cur.availOut ≠ 0) (h : s.scratch.litVal.written = false) :
    step s = .fault (.unwrittenRegister .LIT_VAL) := by
  rw [step_litEmit hr hm, stepLitEmit, if_neg hout, readReg_unwritten _ _ _ h]

theorem copy_faults (hm : s.mode = .copy) (hout : s.cur.availOut ≠ 0) :
    (s.scratch.dist.written = false → step s = .fault (.unwrittenRegister .DIST)) ∧
    (s.scratch.dist.written = true → s.scratch.copyRemain.written = false →
      step s = .fault (.unwrittenRegister .COPY_REMAIN)) ∧
    (s.scratch.dist.written = true → s.scratch.copyRemain.written = true →
      s.scratch.dist.val = 0 ∨ s.win.size < s.scratch.dist.val.toNat →
      step s = .fault (.windowReadInvalid s.scratch.dist.val.toNat)) := by
  rw [step_copy hr hm, stepCopy, if_neg hout]
  refine ⟨fun h1 => ?_, fun h1 h2 => ?_, fun h1 h2 hd => ?_⟩
  · rw [readReg_unwritten _ _ _ h1]
  · rw [readReg_written _ _ _ h1, readReg_unwritten _ _ _ h2]
  · rw [readReg_written _ _ _ h1, readReg_written _ _ _ h2, winBack, if_neg (by bv_omega)]

end

/-- Settles O45: clause by clause; each is the check that its rule makes first. -/
theorem modelFaults : Obligations.ModelFaults := by
  intro s
  refine ⟨fun h => ?_, fun b h => ?_, clcEntry_faults, fun i hi => lens_faults hi, fun h => ?_, lens_index_faults,
    fun n x h => ?_, fun n x h => ?_, dist0_fault, fun n h => if_neg h.not_ge, fun hr => ?_⟩
  · rw [exec, execEob, endBlock, readReg_unwritten _ _ _ h]
  · rw [exec, execStoredData, readReg_unwritten _ _ _ h]
  · rw [exec, execClRepeatPrev, readReg_unwritten _ _ _ h]
  · rw [exec, execLenExtra, readReg_unwritten _ _ _ h]
  · rw [exec, execDistExtra, readReg_unwritten _ _ _ h]
  · exact ⟨storedCopy_fault hr, dynLens_fault hr, dynRepeat_faults hr, tableSel_fault hr, llSym_fault hr,
      distSym_fault hr, sym_unwritten_fault hr, lenExtra_range_fault hr, distExtra_range_fault hr, litEmit_fault hr,
      copy_faults hr⟩

end Sys2Proof.Machine
end
